-- ==== Sys2Proof/Word.lean ====
section
/-! DEFINITION. The word of the block (00_scope.md R5, R9), register numbers (10_state.md R21), and
the radix. -/

namespace Sys2Proof

/-- A 64-bit word (R9): a register, a memory word, a command word, an address. -/
abbrev Word := BitVec 64

/-- A register number, naming `x0` to `x15` (R21). -/
abbrev Reg := Fin 16

/-- `RADIX = 10^19` (R5). A word below it is a radix word. -/
def RADIX : Nat := 10000000000000000000

/-- `RDIGITS = 19`, the decimal digits of a radix word (R5). -/
def RDIGITS : Nat := 19

/-- A number as a word, modulo `2^64`. -/
abbrev Word.ofNat (n : Nat) : Word := BitVec.ofNat 64 n

end Sys2Proof
end

