-- ==== Sys2Proof/Config.lean ====
section
/-! DEFINITION. What an implementation fixes (00_scope.md R6, R7), as plain data that a state carries
and nothing changes, and the free values, constants with no body, that stand for what the spec leaves
unspecified (93_implementation_defined.md part 1). -/

namespace Sys2Proof

/-- The commands that use scratch (R201, the row of ALLOC). -/
inductive Config.ScratchUser
  | bdivmod | nttfwd | nttinv | nttconv | nttaconv | kmul | kmuln | nmul
  deriving DecidableEq, Repr

/-- The named parameters of R6 and R7. "The model takes each as a configuration argument": a state holds
one `Config` (assumption 4). `none` in `scratchWords` is the spec's "unbounded"; `none` in the two
thresholds is the spec's "OPEN, no default", and neither has an effect on any result (R159, R192). -/
structure Config where
  /-- `MEM_WORDS`, the words of data memory. -/
  memWords : Nat
  /-- `CMD_WORDS`, the words of the command store. -/
  cmdWords : Nat
  /-- `MAX_NTT_LOG2`. -/
  maxNttLog2 : Nat
  /-- `NTT_POW2_CROSSOVER`. -/
  nttPow2Crossover : Nat
  /-- `KARATSUBA_BASECASE`. -/
  karatsubaBasecase : Nat
  /-- `KARATSUBA_NTT_THRESHOLD`. -/
  karatsubaNttThreshold : Option Nat
  /-- `SIXSTEP_THRESHOLD`. -/
  sixstepThreshold : Option Nat
  /-- `SCRATCH_WORDS`. -/
  scratchWords : Option Nat
  /-- `scratch_need(cmd, lengths)`, for the commands and lengths where this machine's value is known: command,
  length operands, words. Elsewhere it is the open constant `openScratchNeed` (assumption 5). -/
  scratchTable : List (Config.ScratchUser × List Nat × Nat)
  /-- The primes `P[0]`, `P[1]`, `P[2]`. -/
  p1 : Nat
  p2 : Nat
  p3 : Nat
  /-- The primitive roots `G[0]`, `G[1]`, `G[2]`. -/
  g1 : Nat
  g2 : Nat
  g3 : Nat
  deriving DecidableEq, Repr

namespace Config

/-- The defaults of R6 and R7. -/
def default : Config where
  memWords := 1048576
  cmdWords := 4096
  maxNttLog2 := 32
  nttPow2Crossover := 1024
  karatsubaBasecase := 16
  karatsubaNttThreshold := none
  sixstepThreshold := none
  scratchWords := none
  scratchTable := []
  p1 := 18446744069414584321
  p2 := 18446744056529682433
  p3 := 18446742974197923841
  g1 := 7
  g2 := 10
  g3 := 19

/-- `P[pi]` (R6). The index 3 is illegal in every command that uses `pi` (R75): no command that gets past
its ILLEGAL check asks for it, and it reads as `P[2]` here only to make the function total. -/
def prime (c : Config) (pi : BitVec 2) : Nat :=
  if pi = 0 then c.p1 else if pi = 1 then c.p2 else c.p3

/-- `G[pi]` (R6); index 3 as for `prime`. -/
def root (c : Config) (pi : BitVec 2) : Nat :=
  if pi = 0 then c.g1 else if pi = 1 then c.g2 else c.g3

/-- What R6 lists of one prime and its root, for the largest transform exponent `k`: a 64-bit prime above
`RADIX`, with `g` a primitive root and `3` and `2^k` dividing `p − 1` (the latter is the form
`2^64 − c·2^k + 1` as well). R6 lists no bound on the root; that `g` is below `p` is the model's choice (DESIGN CHOICE,
assumption 25). -/
structure LegalPrime (p g k : Nat) : Prop where
  prime : Nat.Prime p
  above_radix : RADIX < p
  is_word : p < 2 ^ 64
  root_lt : g < p
  primitive : orderOf (g : ZMod p) = p - 1
  pow2_dvd : 2 ^ k ∣ p - 1
  three_dvd : 3 ∣ p - 1

/-- The constraints R6 and R7 put on the parameters, and two of the model's own: the crossover is at most `2^63`, so that
the power of two NTTLEN selects below it is a word (assumption 17), and a root is below its prime (assumption 25). No
meaning checks them: a claim that needs one says so. -/
structure Legal (c : Config) : Prop where
  memWords_pos : 1 ≤ c.memWords
  memWords_le : c.memWords ≤ 2 ^ 48
  cmdWords_pos : 1 ≤ c.cmdWords
  cmdWords_le : c.cmdWords ≤ 2 ^ 32
  crossover_pow2 : ∃ k, k ≤ 63 ∧ c.nttPow2Crossover = 2 ^ k
  basecase_pos : 1 ≤ c.karatsubaBasecase
  threshold_gt : ∀ t, c.karatsubaNttThreshold = some t → c.karatsubaBasecase < t
  sixstep_pow2 : ∀ t, c.sixstepThreshold = some t → ∃ k, t = 2 ^ k
  prime1 : LegalPrime c.p1 c.g1 c.maxNttLog2
  prime2 : LegalPrime c.p2 c.g2 c.maxNttLog2
  prime3 : LegalPrime c.p3 c.g3 c.maxNttLog2
  distinct12 : c.p1 ≠ c.p2
  distinct13 : c.p1 ≠ c.p3
  distinct23 : c.p2 ≠ c.p3

/-- What R6 lists of the three primes that the Chinese remainder rests on: different primes, each a 64-bit number. -/
structure CrtPrimes (c : Config) : Prop where
  prime1 : Nat.Prime c.p1
  prime2 : Nat.Prime c.p2
  prime3 : Nat.Prime c.p3
  is_word1 : c.p1 < 2 ^ 64
  is_word2 : c.p2 < 2 ^ 64
  is_word3 : c.p3 < 2 ^ 64
  distinct12 : c.p1 ≠ c.p2
  distinct13 : c.p1 ≠ c.p3
  distinct23 : c.p2 ≠ c.p3

/-- FREE VALUE (assumption 2): what a word of `M` reads as that nothing has written since reset number
`epoch`, by address. R40, R60: "any 64-bit value". -/
opaque unwrittenData (epoch address : Nat) : Word

/-- FREE VALUE (assumption 3): what a word of `C` fetches and reads as that nothing has written since reset
number `epoch`, by address. R40, R60, U2. -/
opaque unwrittenCommand (epoch address : Nat) : Word

/-- FREE VALUE (assumption 6): the word left at an address of a destination array by an ALLOC fault, by the
count of free values drawn before it. R207: "any values, radix words or not". -/
opaque allocWord (count address : Nat) : Word

/-- FREE VALUE (assumption 8): whether a read of PC while RUN = 1 returns the address of the command in
execution, where there is one (`true`), or of the one about to be fetched (`false`). R28: "which of the two is unspecified". -/
opaque pcReadShowsExecuting (count : Nat) : Bool

/-- FREE VALUE (assumption 17): what NTTLEN leaves in its register where the length R165 selects is `2^64`, which no
register holds. -/
opaque overlongLength (c : Config) (rsize : Nat) : Word

/-- OPEN PARAMETER (assumption 5): `scratch_need(cmd, lengths)` of R7, "a total function of the command and
its length operands only", of one machine, where its table does not list it. -/
opaque openScratchNeed (c : Config) (user : ScratchUser) (lengths : List Nat) : Nat

end Config

end Sys2Proof
end

