-- ==== Sys2Proof/Machine/Numbers.lean ====
section
/-! DEFINITION. The integers behind the words: radix values and digits (00_scope.md R10), modular powers
(44_modular.md R137), the discrete transform and its roots (45_ntt.md R151 to R155), bit reversal (R154), and the
Chinese remainder (46_crt.md R180, R182). Everything is a function on natural numbers. -/

namespace Sys2Proof.Machine

open Sys2Proof

/-! ### Radix words (R10) -/

/-- `val` of R10: the integer a list of words stands for, least significant word first (R11). -/
def value : List Word → Nat
  | [] => 0
  | w :: rest => w.toNat + RADIX * value rest

/-- `digits(v, n)` of R10: the `n` low radix words of `v`. -/
def digits (v : Nat) : Nat → List Word
  | 0 => []
  | n + 1 => Word.ofNat (v % RADIX) :: digits (v / RADIX) n

/-! ### Modular arithmetic (R131 to R137) -/

/-- `(a − b) mod m` for residues (R132): `a − b` if `a ≥ b`, else `a − b + m`. -/
def subMod (a b m : Nat) : Nat := if b ≤ a then a - b else a + m - b

/-- The loop of R137 with `fuel` iterations: `r`, `b`, `e` are its three variables. -/
def powModLoop (m : Nat) : Nat → Nat → Nat → Nat → Nat
  | 0, r, _, _ => r
  | fuel + 1, r, b, e =>
    if e = 0 then r
    else powModLoop m fuel (if e % 2 = 1 then r * b % m else r) (b * b % m) (e / 2)

/-- `base^exp mod m` by the loop of R137, for an exponent below `2^64` ("the loop runs at most 64 times"). -/
def powMod (base exp m : Nat) : Nat := powModLoop m 64 (1 % m) base exp

/-- The inverse modulo a prime, by Fermat's theorem: `a^(p−2) mod p` (assumption 12). -/
def invMod (a p : Nat) : Nat := powMod (a % p) (p - 2) p

/-! ### Transforms (R151 to R155) -/

/-- `log2 n` when `n` is a power of two `2^k` with `k ≤ kmax`. -/
def log2? (kmax n : Nat) : Option Nat := (List.range (kmax + 1)).find? (fun k => 2 ^ k == n)

/-- A valid transform length (R151): `2^k` or `3 · 2^k` with `k ≤ kmax`. -/
def validLength (kmax n : Nat) : Bool :=
  (List.range (kmax + 1)).any (fun k => n == 2 ^ k || n == 3 * 2 ^ k)

/-- The forward root `ω(n, pi) = g^((p−1) div n) mod p` (R153). -/
def forwardRoot (c : Config) (pi : BitVec 2) (n : Nat) : Nat :=
  powMod (c.root pi) ((c.prime pi - 1) / n) (c.prime pi)

/-- The inverse root `g^((p−1) − (p−1) div n) mod p` (R153). -/
def inverseRoot (c : Config) (pi : BitVec 2) (n : Nat) : Nat :=
  powMod (c.root pi) ((c.prime pi - 1) - (c.prime pi - 1) / n) (c.prime pi)

/-- `( Σ_j a[j] · x^j ) mod p`, evaluated from the highest element down. -/
def polyMod (p x : Nat) : List Nat → Nat
  | [] => 0
  | a :: rest => (a + x * polyMod p x rest) % p

/-- `DFT(a, r)` of R155 modulo `p`, in natural order: element `k` is `( Σ_j a[j] · r^(j·k) ) mod p`. -/
def dft (p r : Nat) (a : List Nat) : List Nat :=
  (List.range a.length).map (fun k => polyMod p (powMod r k p) a)

/-- Stage `s` of `fntDif2` (R152) modulo `p` with root `r`, on `a`: element `i` after the stage. -/
def butterfly (p r s : Nat) (a : List Nat) (i : Nat) : Nat :=
  let block := a.length / 2 ^ s
  let half := block / 2
  let pos := i % block
  if pos < half then (a.getD i 0 + a.getD (i + half) 0) % p
  else
    subMod (a.getD (i - half) 0) (a.getD i 0) p * powMod r ((pos - half) * 2 ^ s) p % p

/-- The whole stage (R152). -/
def nttStage (p r s : Nat) (a : List Nat) : List Nat :=
  (List.range a.length).map (butterfly p r s a)

/-- `rev_k(i)` of R154: the `k`-bit binary form of `i` read backwards. -/
def bitReverse : Nat → Nat → Nat
  | 0, _ => 0
  | k + 1, i => (i % 2) * 2 ^ k + bitReverse k (i / 2)

/-- The list whose element `i` is element `rev_k(i)` of `a`: the permutation of R154, which is its own inverse
(assumption 16). -/
def bitReversed (k : Nat) (a : List Word) : List Word :=
  (List.range a.length).map (fun i => a.getD (bitReverse k i) 0)

/-- `[ (T1[k] · T2[k] · ninv) mod p ]` of R162. -/
def pointwise (p ninv : Nat) (a b : List Nat) : List Nat :=
  List.zipWith (fun x y => x * y * ninv % p) a b

/-- The smallest member of a list that is at least `r`. -/
def leastFrom (r : Nat) (candidates : List Nat) : Option Nat :=
  (candidates.filter (fun l => decide (r ≤ l))).min?

/-- The powers of two up to `2^kmax`. -/
def pow2Lengths (kmax : Nat) : List Nat := (List.range (kmax + 1)).map (fun k => 2 ^ k)

/-- The set `S` of R165. -/
def transformLengths (kmax : Nat) : List Nat :=
  pow2Lengths kmax ++ (List.range (kmax + 1)).map (fun k => 3 * 2 ^ k)

/-- Transform length selection (R165) for `rsize ≥ 1`: below or at the crossover the smallest power of two, above it
the smallest member of `S`, if any. (A 64-bit `rsize` is at most `2^64`.) -/
def selectLength (c : Config) (rsize : Nat) : Option Nat :=
  if rsize ≤ c.nttPow2Crossover then leastFrom rsize (pow2Lengths 64)
  else leastFrom rsize (transformLengths c.maxNttLog2)

/-! ### Chinese remainder (R180, R182) -/

/-- `CRT(a1, a2, a3)` of R180, by the mixed-radix form of R182 with its two inverses computed from the primes
(assumption 12). -/
def crt (c : Config) (a1 a2 a3 : Nat) : Nat :=
  let t2 := subMod (a2 % c.p2) (a1 % c.p2) c.p2 * invMod c.p1 c.p2 % c.p2
  let y := a1 + c.p1 * t2
  let t3 := subMod (a3 % c.p3) (y % c.p3) c.p3 * invMod (c.p1 * c.p2) c.p3 % c.p3
  y + c.p1 * c.p2 * t3

/-- The loop of R181 over the coefficients `z`, from a running value `carry`: the words out and the carry left. -/
def crtCarry : Nat → List Nat → List Word × Nat
  | carry, [] => ([], carry)
  | carry, z :: rest =>
    let acc := carry + z
    let (out, left) := crtCarry (acc / RADIX) rest
    (Word.ofNat (acc % RADIX) :: out, left)

/-! ### Decimal shifts (R114, R125) -/

/-- `U · 10^s`, with no power formed when `U = 0` (R114: "all zero words when `U = 0`"). -/
def shiftLeft10 (u s : Nat) : Nat := if u = 0 then 0 else u * 10 ^ s

/-- Whether `U · 10^s` does not fit in `n` words (R114): "for `U ≠ 0` any `s ≥ 19 · n` overflows", so that no large
power is formed. -/
def shiftLeft10Overflows (u s n : Nat) : Bool :=
  u != 0 && (decide (RDIGITS * n ≤ s) || decide (RADIX ^ n ≤ u * 10 ^ s))

/-- The quotient `Q` of R125 for a value of `m` words. -/
def shiftRight10 (u s m : Nat) : Nat :=
  if s = 0 then u else if RDIGITS * m < s then 0 else u / 10 ^ s

end Sys2Proof.Machine
end

