-- ==== Sys2Proof/Machine/Flags.lean ====
section
/-! DEFINITION. There are no condition codes: every carry, borrow, remainder and indicator is a value returned in
`x[rd]` and nowhere else (10_state.md R25). These are those values, from the exact integers of the command. -/

namespace Sys2Proof.Machine

open Sys2Proof

/-- `S div RADIX^m` (R101, R103: 0 or 1; R112: a radix word). -/
def carryOut (s m : Nat) : Word := Word.ofNat (s / RADIX ^ m)

/-- The borrow of R102: 1 if `U < V`, else 0. -/
def borrowOut (u v : Nat) : Word := if u < v then 1 else 0

/-- The remainder-presence flag of R123, and the leftover-carry indicator of R181: 1 if the value is not 0. -/
def presentFlag (v : Nat) : Word := if v ≠ 0 then 1 else 0

/-- The rounding indicator of R125 for `U` of `m` words shifted right by `s` digits. -/
def roundingIndicator (u s m : Nat) : Word :=
  if s = 0 then 0
  else if RDIGITS * m < s then presentFlag u
  else
    let d := u % 10 ^ s
    let lead := d / 10 ^ (s - 1)
    let rest := d % 10 ^ (s - 1)
    Word.ofNat (if (lead = 0 ∨ lead = 5) ∧ rest ≠ 0 then lead + 1 else lead)

end Sys2Proof.Machine
end

