-- ==== Sys2Proof/Syntax.lean ====
section
/-! DEFINITION. The 37 commands of the opcode map (30_encoding.md R76), one constructor a row, in the
table's order. A constructor's arguments are the fields the row uses, in the assembler's order
`rd, ra, rb, rc, re, rf, rg`, then `pi`, then `inv` (R80); what the named register holds is in R76 and in the
command's rule. `pi` is the two bits as encoded: the value 3 is an ill-formed command (R75). -/

namespace Sys2Proof

inductive Instr
  | halt
  | nop
  | li (rd : Reg) (imm : BitVec 32)
  | lih (rd : Reg) (imm : BitVec 32)
  | mov (rd ra : Reg)
  | ldw (rd ra : Reg) (imm : BitVec 32)
  | stw (rd ra : Reg) (imm : BitVec 32)
  | add (rd ra rb rc re rf : Reg)
  | sub (rd ra rb rc re rf : Reg)
  | sadd (rd ra rb rc re : Reg)
  | mulw (rd ra rb rc : Reg)
  | smul (rd ra rb rc re : Reg)
  | bmul (ra rb rc re rf : Reg)
  | shl10 (ra rb rc re rf : Reg)
  | divw (rd ra rb rc re : Reg)
  | sdiv (rd ra rb rc re : Reg)
  | bdivmod (rd ra rb rc re rf rg : Reg)
  | shr10 (rd ra rb rc re : Reg)
  | addmod (rd ra rb rc : Reg)
  | submod (rd ra rb rc : Reg)
  | mulmod (rd ra rb rc : Reg)
  | mulmodp (rd ra rb : Reg) (pi : BitVec 2)
  | mulmod2 (rd ra rb rc re rf rg : Reg)
  | mulmod2c (rd ra rb rc re rg : Reg)
  | powmod (rd ra rb rc : Reg)
  | redp (rd ra rb : Reg) (pi : BitVec 2)
  | nttstg (ra re rf : Reg) (pi : BitVec 2) (inv : Bool)
  | nttrev (ra re : Reg)
  | nttfwd (ra re : Reg) (pi : BitVec 2)
  | nttinv (ra re : Reg) (pi : BitVec 2)
  | nttconv (ra rb re : Reg) (pi : BitVec 2)
  | nttaconv (ra re : Reg) (pi : BitVec 2)
  | nttlen (rd ra : Reg)
  | crt3 (rd ra rb rc re rf : Reg)
  | kmul (ra rb rc re rf : Reg)
  | kmuln (ra rb rc re rf : Reg)
  | nmul (ra rb rc re rf : Reg)
  deriving DecidableEq, Repr

end Sys2Proof
end

