-- ==== Sys2Proof/WellFormed.lean ====
section
/-! DEFINITION. When a command as syntax is a command of the hardware. Every register field holds a number
0 to 15 by its type (30_encoding.md R71); what is left to check is R75: "`pi = 3` is illegal in every command
that uses `pi`". -/

namespace Sys2Proof

/-- The prime index a command carries, for the seven commands that use `pi` (R73). -/
def Instr.primeIndex? : Instr → Option (BitVec 2)
  | .mulmodp _ _ _ pi => some pi
  | .redp _ _ _ pi => some pi
  | .nttstg _ _ _ pi _ => some pi
  | .nttfwd _ _ pi => some pi
  | .nttinv _ _ pi => some pi
  | .nttconv _ _ _ pi => some pi
  | .nttaconv _ _ pi => some pi
  | .halt | .nop | .li _ _ | .lih _ _ | .mov _ _ | .ldw _ _ _ | .stw _ _ _
  | .add _ _ _ _ _ _ | .sub _ _ _ _ _ _ | .sadd _ _ _ _ _
  | .mulw _ _ _ _ | .smul _ _ _ _ _ | .bmul _ _ _ _ _ | .shl10 _ _ _ _ _
  | .divw _ _ _ _ _ | .sdiv _ _ _ _ _ | .bdivmod _ _ _ _ _ _ _ | .shr10 _ _ _ _ _
  | .addmod _ _ _ _ | .submod _ _ _ _ | .mulmod _ _ _ _
  | .mulmod2 _ _ _ _ _ _ _ | .mulmod2c _ _ _ _ _ _ | .powmod _ _ _ _
  | .nttrev _ _ | .nttlen _ _ | .crt3 _ _ _ _ _ _
  | .kmul _ _ _ _ _ | .kmuln _ _ _ _ _ | .nmul _ _ _ _ _ => none

/-- A command is well formed when its prime index, if it has one, is not 3 (R75). -/
abbrev Instr.WellFormed (i : Instr) : Prop := i.primeIndex? ≠ some 3

end Sys2Proof
end

