-- ==== Sys2Proof/Decode.lean ====
section
/-! DEFINITION. The command decoder and encoder (30_encoding.md). A word is cut into the fields of R71; the
opcode map of R76 is a list of rows; decoding follows the five steps of R78, is total on words, and rejects an
illegal word with the reason. The encoder is written from the same map. `opcodeTable` is
spec/opcode_table.json's own `mask` and `match`, kept apart from the decoder so that the two can be compared
(R73). -/

namespace Sys2Proof

/-! ### Fields (R71) -/

/-- The fields of a command word. Formats I and M read `rg`, `zero25`, `inv`, `pi` as one `imm32`. -/
structure Fields where
  op : BitVec 8
  rd : BitVec 4
  ra : BitVec 4
  rb : BitVec 4
  rc : BitVec 4
  re : BitVec 4
  rf : BitVec 4
  rg : BitVec 4
  zero25 : BitVec 25
  inv : BitVec 1
  pi : BitVec 2
  deriving DecidableEq, Repr

/-- Cut a word into its fields (R71). -/
def Fields.ofWord (c : Word) : Fields where
  op := c.extractLsb' 56 8
  rd := c.extractLsb' 52 4
  ra := c.extractLsb' 48 4
  rb := c.extractLsb' 44 4
  rc := c.extractLsb' 40 4
  re := c.extractLsb' 36 4
  rf := c.extractLsb' 32 4
  rg := c.extractLsb' 28 4
  zero25 := c.extractLsb' 3 25
  inv := c.extractLsb' 2 1
  pi := c.extractLsb' 0 2

/-- Put the fields together, each at its place (R71). -/
def Fields.toWord (f : Fields) : Word :=
  f.op ++ f.rd ++ f.ra ++ f.rb ++ f.rc ++ f.re ++ f.rf ++ f.rg ++ f.zero25 ++ f.inv ++ f.pi

/-- `imm32 = c[31:0]`, "taken as it stands" (R74). -/
def Fields.imm32 (f : Fields) : BitVec 32 := f.rg ++ f.zero25 ++ f.inv ++ f.pi

/-- The fields with `imm32` set. -/
def Fields.withImm (imm : BitVec 32) (f : Fields) : Fields :=
  { f with
    rg := imm.extractLsb' 28 4
    zero25 := imm.extractLsb' 3 25
    inv := imm.extractLsb' 2 1
    pi := imm.extractLsb' 0 2 }

/-- Fields that are zero but for the opcode. -/
def Fields.ofOp (op : BitVec 8) : Fields := ⟨op, 0, 0, 0, 0, 0, 0, 0, 0, 0, 0⟩

/-! ### The opcode map (R72, R76) -/

/-- The four formats (R72). -/
inductive Format
  | Z | I | M | R
  deriving DecidableEq, Repr

/-- The fields a format R command may use (R72). -/
inductive FieldName
  | rd | ra | rb | rc | re | rf | rg | inv | pi
  deriving DecidableEq, Repr

/-- Whether a field of the word is zero. -/
def Fields.isZero (f : Fields) : FieldName → Bool
  | .rd => f.rd == 0
  | .ra => f.ra == 0
  | .rb => f.rb == 0
  | .rc => f.rc == 0
  | .re => f.re == 0
  | .rf => f.rf == 0
  | .rg => f.rg == 0
  | .inv => f.inv == 0
  | .pi => f.pi == 0

/-- One row of the opcode map: the columns of R76, and the command the row's fields make. `used` lists the
columns not marked "-" of a format R row. -/
structure Row where
  mnemonic : String
  op : BitVec 8
  format : Format
  used : List FieldName
  build : Fields → Instr

/-- Rows of R76. -/
def rowsSequencer : List Row := [
  ⟨"HALT", 0x01, .Z, [], fun _ => .halt⟩,
  ⟨"NOP", 0x02, .Z, [], fun _ => .nop⟩,
  ⟨"LI", 0x03, .I, [], fun f => .li f.rd.toFin f.imm32⟩,
  ⟨"LIH", 0x04, .I, [], fun f => .lih f.rd.toFin f.imm32⟩,
  ⟨"MOV", 0x05, .R, [.rd, .ra], fun f => .mov f.rd.toFin f.ra.toFin⟩,
  ⟨"LDW", 0x06, .M, [], fun f => .ldw f.rd.toFin f.ra.toFin f.imm32⟩,
  ⟨"STW", 0x07, .M, [], fun f => .stw f.rd.toFin f.ra.toFin f.imm32⟩]

/-- Rows of R76. -/
def rowsUnits1to3 : List Row := [
  ⟨"ADD", 0x10, .R, [.rd, .ra, .rb, .rc, .re, .rf], fun f => .add f.rd.toFin f.ra.toFin f.rb.toFin f.rc.toFin f.re.toFin f.rf.toFin⟩,
  ⟨"SUB", 0x11, .R, [.rd, .ra, .rb, .rc, .re, .rf], fun f => .sub f.rd.toFin f.ra.toFin f.rb.toFin f.rc.toFin f.re.toFin f.rf.toFin⟩,
  ⟨"SADD", 0x12, .R, [.rd, .ra, .rb, .rc, .re], fun f => .sadd f.rd.toFin f.ra.toFin f.rb.toFin f.rc.toFin f.re.toFin⟩,
  ⟨"MULW", 0x18, .R, [.rd, .ra, .rb, .rc], fun f => .mulw f.rd.toFin f.ra.toFin f.rb.toFin f.rc.toFin⟩,
  ⟨"SMUL", 0x19, .R, [.rd, .ra, .rb, .rc, .re], fun f => .smul f.rd.toFin f.ra.toFin f.rb.toFin f.rc.toFin f.re.toFin⟩,
  ⟨"BMUL", 0x1A, .R, [.ra, .rb, .rc, .re, .rf], fun f => .bmul f.ra.toFin f.rb.toFin f.rc.toFin f.re.toFin f.rf.toFin⟩,
  ⟨"SHL10", 0x1B, .R, [.ra, .rb, .rc, .re, .rf], fun f => .shl10 f.ra.toFin f.rb.toFin f.rc.toFin f.re.toFin f.rf.toFin⟩,
  ⟨"DIVW", 0x20, .R, [.rd, .ra, .rb, .rc, .re], fun f => .divw f.rd.toFin f.ra.toFin f.rb.toFin f.rc.toFin f.re.toFin⟩,
  ⟨"SDIV", 0x21, .R, [.rd, .ra, .rb, .rc, .re], fun f => .sdiv f.rd.toFin f.ra.toFin f.rb.toFin f.rc.toFin f.re.toFin⟩,
  ⟨"BDIVMOD", 0x22, .R, [.rd, .ra, .rb, .rc, .re, .rf, .rg], fun f => .bdivmod f.rd.toFin f.ra.toFin f.rb.toFin f.rc.toFin f.re.toFin f.rf.toFin f.rg.toFin⟩,
  ⟨"SHR10", 0x23, .R, [.rd, .ra, .rb, .rc, .re], fun f => .shr10 f.rd.toFin f.ra.toFin f.rb.toFin f.rc.toFin f.re.toFin⟩]

/-- Rows of R76. -/
def rowsUnits4to6 : List Row := [
  ⟨"ADDMOD", 0x28, .R, [.rd, .ra, .rb, .rc], fun f => .addmod f.rd.toFin f.ra.toFin f.rb.toFin f.rc.toFin⟩,
  ⟨"SUBMOD", 0x29, .R, [.rd, .ra, .rb, .rc], fun f => .submod f.rd.toFin f.ra.toFin f.rb.toFin f.rc.toFin⟩,
  ⟨"MULMOD", 0x30, .R, [.rd, .ra, .rb, .rc], fun f => .mulmod f.rd.toFin f.ra.toFin f.rb.toFin f.rc.toFin⟩,
  ⟨"MULMODP", 0x31, .R, [.rd, .ra, .rb, .pi], fun f => .mulmodp f.rd.toFin f.ra.toFin f.rb.toFin f.pi⟩,
  ⟨"MULMOD2", 0x32, .R, [.rd, .ra, .rb, .rc, .re, .rf, .rg], fun f => .mulmod2 f.rd.toFin f.ra.toFin f.rb.toFin f.rc.toFin f.re.toFin f.rf.toFin f.rg.toFin⟩,
  ⟨"MULMOD2C", 0x33, .R, [.rd, .ra, .rb, .rc, .re, .rg], fun f => .mulmod2c f.rd.toFin f.ra.toFin f.rb.toFin f.rc.toFin f.re.toFin f.rg.toFin⟩,
  ⟨"POWMOD", 0x34, .R, [.rd, .ra, .rb, .rc], fun f => .powmod f.rd.toFin f.ra.toFin f.rb.toFin f.rc.toFin⟩,
  ⟨"REDP", 0x38, .R, [.rd, .ra, .rb, .pi], fun f => .redp f.rd.toFin f.ra.toFin f.rb.toFin f.pi⟩]

/-- Rows of R76. -/
def rowsUnits7to11 : List Row := [
  ⟨"NTTSTG", 0x40, .R, [.ra, .re, .rf, .inv, .pi], fun f => .nttstg f.ra.toFin f.re.toFin f.rf.toFin f.pi (f.inv == 1)⟩,
  ⟨"NTTREV", 0x41, .R, [.ra, .re], fun f => .nttrev f.ra.toFin f.re.toFin⟩,
  ⟨"NTTFWD", 0x48, .R, [.ra, .re, .pi], fun f => .nttfwd f.ra.toFin f.re.toFin f.pi⟩,
  ⟨"NTTINV", 0x49, .R, [.ra, .re, .pi], fun f => .nttinv f.ra.toFin f.re.toFin f.pi⟩,
  ⟨"NTTCONV", 0x4A, .R, [.ra, .rb, .re, .pi], fun f => .nttconv f.ra.toFin f.rb.toFin f.re.toFin f.pi⟩,
  ⟨"NTTACONV", 0x4B, .R, [.ra, .re, .pi], fun f => .nttaconv f.ra.toFin f.re.toFin f.pi⟩,
  ⟨"NTTLEN", 0x4C, .R, [.rd, .ra], fun f => .nttlen f.rd.toFin f.ra.toFin⟩,
  ⟨"CRT3", 0x50, .R, [.rd, .ra, .rb, .rc, .re, .rf], fun f => .crt3 f.rd.toFin f.ra.toFin f.rb.toFin f.rc.toFin f.re.toFin f.rf.toFin⟩,
  ⟨"KMUL", 0x58, .R, [.ra, .rb, .rc, .re, .rf], fun f => .kmul f.ra.toFin f.rb.toFin f.rc.toFin f.re.toFin f.rf.toFin⟩,
  ⟨"KMULN", 0x59, .R, [.ra, .rb, .rc, .re, .rf], fun f => .kmuln f.ra.toFin f.rb.toFin f.rc.toFin f.re.toFin f.rf.toFin⟩,
  ⟨"NMUL", 0x5A, .R, [.ra, .rb, .rc, .re, .rf], fun f => .nmul f.ra.toFin f.rb.toFin f.rc.toFin f.re.toFin f.rf.toFin⟩]

/-- The opcode map of R76, 37 rows in its order. -/
def opcodeMap : List Row := rowsSequencer ++ rowsUnits1to3 ++ rowsUnits4to6 ++ rowsUnits7to11

/-- Whether every bit the row's format and field list requires to be zero is zero (R72, R73). -/
def Row.zeroBitsOk (r : Row) (f : Fields) : Bool :=
  match r.format with
  | .Z => [FieldName.rd, .ra, .rb, .rc, .re, .rf, .rg, .inv, .pi].all f.isZero && f.zero25 == 0
  | .I => [FieldName.ra, .rb, .rc, .re, .rf].all f.isZero
  | .M => [FieldName.rb, .rc, .re, .rf].all f.isZero
  | .R => [FieldName.rd, .ra, .rb, .rc, .re, .rf, .rg, .inv, .pi].all
      (fun k => r.used.contains k || f.isZero k) && f.zero25 == 0

/-! ### Decoding (R78) -/

/-- Why a word is not a legal command (R77). -/
inductive DecodeError
  /-- `op` is in no row of R76. -/
  | unassignedOpcode
  /-- A must-be-zero bit is 1 (R73). -/
  | mustBeZero
  /-- `pi = 3` in a command that uses `pi` (R75). -/
  | primeIndexThree
  deriving DecidableEq, Repr

/-- Steps 1 to 5 of R78 on the fields of a word. -/
def decodeFields (f : Fields) : Except DecodeError Instr :=
  match opcodeMap.find? (fun r => r.op == f.op) with
  | none => .error .unassignedOpcode
  | some r =>
    if !r.zeroBitsOk f then .error .mustBeZero
    else if r.used.contains .pi && f.pi == 3 then .error .primeIndexThree
    else .ok (r.build f)

/-- R78: "every 64-bit word is either exactly one legal command or illegal". -/
def decode (c : Word) : Except DecodeError Instr := decodeFields (Fields.ofWord c)

/-- The decoder on a word numbered as spec/opcode_table.json numbers it: a command is one 64-bit word, bit 0
its least significant bit (R9, R70); the bits at and above `nbits` are 0. -/
def decodeTableWord (nbits w : Nat) : Option Instr :=
  match decode (Word.ofNat (w % 2 ^ nbits)) with
  | .ok i => some i
  | .error _ => none

/-! ### Encoding (R71, R72, R76) -/

/-- The fields of a command's word: its opcode, its operands at their places, every other bit zero. -/
def encodeFields : Instr → Fields
  | .halt => Fields.ofOp 0x01
  | .nop => Fields.ofOp 0x02
  | .li rd imm => Fields.withImm imm { Fields.ofOp 0x03 with rd := .ofFin rd }
  | .lih rd imm => Fields.withImm imm { Fields.ofOp 0x04 with rd := .ofFin rd }
  | .mov rd ra => { Fields.ofOp 0x05 with rd := .ofFin rd, ra := .ofFin ra }
  | .ldw rd ra imm => Fields.withImm imm { Fields.ofOp 0x06 with rd := .ofFin rd, ra := .ofFin ra }
  | .stw rd ra imm => Fields.withImm imm { Fields.ofOp 0x07 with rd := .ofFin rd, ra := .ofFin ra }
  | .add rd ra rb rc re rf => { Fields.ofOp 0x10 with rd := .ofFin rd, ra := .ofFin ra, rb := .ofFin rb, rc := .ofFin rc, re := .ofFin re, rf := .ofFin rf }
  | .sub rd ra rb rc re rf => { Fields.ofOp 0x11 with rd := .ofFin rd, ra := .ofFin ra, rb := .ofFin rb, rc := .ofFin rc, re := .ofFin re, rf := .ofFin rf }
  | .sadd rd ra rb rc re => { Fields.ofOp 0x12 with rd := .ofFin rd, ra := .ofFin ra, rb := .ofFin rb, rc := .ofFin rc, re := .ofFin re }
  | .mulw rd ra rb rc => { Fields.ofOp 0x18 with rd := .ofFin rd, ra := .ofFin ra, rb := .ofFin rb, rc := .ofFin rc }
  | .smul rd ra rb rc re => { Fields.ofOp 0x19 with rd := .ofFin rd, ra := .ofFin ra, rb := .ofFin rb, rc := .ofFin rc, re := .ofFin re }
  | .bmul ra rb rc re rf => { Fields.ofOp 0x1A with ra := .ofFin ra, rb := .ofFin rb, rc := .ofFin rc, re := .ofFin re, rf := .ofFin rf }
  | .shl10 ra rb rc re rf => { Fields.ofOp 0x1B with ra := .ofFin ra, rb := .ofFin rb, rc := .ofFin rc, re := .ofFin re, rf := .ofFin rf }
  | .divw rd ra rb rc re => { Fields.ofOp 0x20 with rd := .ofFin rd, ra := .ofFin ra, rb := .ofFin rb, rc := .ofFin rc, re := .ofFin re }
  | .sdiv rd ra rb rc re => { Fields.ofOp 0x21 with rd := .ofFin rd, ra := .ofFin ra, rb := .ofFin rb, rc := .ofFin rc, re := .ofFin re }
  | .bdivmod rd ra rb rc re rf rg => { Fields.ofOp 0x22 with rd := .ofFin rd, ra := .ofFin ra, rb := .ofFin rb, rc := .ofFin rc, re := .ofFin re, rf := .ofFin rf, rg := .ofFin rg }
  | .shr10 rd ra rb rc re => { Fields.ofOp 0x23 with rd := .ofFin rd, ra := .ofFin ra, rb := .ofFin rb, rc := .ofFin rc, re := .ofFin re }
  | .addmod rd ra rb rc => { Fields.ofOp 0x28 with rd := .ofFin rd, ra := .ofFin ra, rb := .ofFin rb, rc := .ofFin rc }
  | .submod rd ra rb rc => { Fields.ofOp 0x29 with rd := .ofFin rd, ra := .ofFin ra, rb := .ofFin rb, rc := .ofFin rc }
  | .mulmod rd ra rb rc => { Fields.ofOp 0x30 with rd := .ofFin rd, ra := .ofFin ra, rb := .ofFin rb, rc := .ofFin rc }
  | .mulmodp rd ra rb pi => { Fields.ofOp 0x31 with rd := .ofFin rd, ra := .ofFin ra, rb := .ofFin rb, pi := pi }
  | .mulmod2 rd ra rb rc re rf rg => { Fields.ofOp 0x32 with rd := .ofFin rd, ra := .ofFin ra, rb := .ofFin rb, rc := .ofFin rc, re := .ofFin re, rf := .ofFin rf, rg := .ofFin rg }
  | .mulmod2c rd ra rb rc re rg => { Fields.ofOp 0x33 with rd := .ofFin rd, ra := .ofFin ra, rb := .ofFin rb, rc := .ofFin rc, re := .ofFin re, rg := .ofFin rg }
  | .powmod rd ra rb rc => { Fields.ofOp 0x34 with rd := .ofFin rd, ra := .ofFin ra, rb := .ofFin rb, rc := .ofFin rc }
  | .redp rd ra rb pi => { Fields.ofOp 0x38 with rd := .ofFin rd, ra := .ofFin ra, rb := .ofFin rb, pi := pi }
  | .nttstg ra re rf pi inv => { Fields.ofOp 0x40 with ra := .ofFin ra, re := .ofFin re, rf := .ofFin rf, pi := pi, inv := .ofBool inv }
  | .nttrev ra re => { Fields.ofOp 0x41 with ra := .ofFin ra, re := .ofFin re }
  | .nttfwd ra re pi => { Fields.ofOp 0x48 with ra := .ofFin ra, re := .ofFin re, pi := pi }
  | .nttinv ra re pi => { Fields.ofOp 0x49 with ra := .ofFin ra, re := .ofFin re, pi := pi }
  | .nttconv ra rb re pi => { Fields.ofOp 0x4A with ra := .ofFin ra, rb := .ofFin rb, re := .ofFin re, pi := pi }
  | .nttaconv ra re pi => { Fields.ofOp 0x4B with ra := .ofFin ra, re := .ofFin re, pi := pi }
  | .nttlen rd ra => { Fields.ofOp 0x4C with rd := .ofFin rd, ra := .ofFin ra }
  | .crt3 rd ra rb rc re rf => { Fields.ofOp 0x50 with rd := .ofFin rd, ra := .ofFin ra, rb := .ofFin rb, rc := .ofFin rc, re := .ofFin re, rf := .ofFin rf }
  | .kmul ra rb rc re rf => { Fields.ofOp 0x58 with ra := .ofFin ra, rb := .ofFin rb, rc := .ofFin rc, re := .ofFin re, rf := .ofFin rf }
  | .kmuln ra rb rc re rf => { Fields.ofOp 0x59 with ra := .ofFin ra, rb := .ofFin rb, rc := .ofFin rc, re := .ofFin re, rf := .ofFin rf }
  | .nmul ra rb rc re rf => { Fields.ofOp 0x5A with ra := .ofFin ra, rb := .ofFin rb, rc := .ofFin rc, re := .ofFin re, rf := .ofFin rf }

/-- The command word of a command. -/
def encode (i : Instr) : Word := (encodeFields i).toWord

/-! ### spec/opcode_table.json's mask and match -/

/-- One row of spec/opcode_table.json: a word is of the row when `word &&& mask = pattern` and, where the row
uses `pi`, its two low bits are not 3 (R73). -/
structure TableRow where
  mnemonic : String
  mask : Word
  pattern : Word
  usesPi : Bool
  deriving DecidableEq, Repr

/-- Rows of spec/opcode_table.json. -/
def tableSequencer : List TableRow := [
  ⟨"HALT", 0xFFFFFFFFFFFFFFFF, 0x0100000000000000, false⟩,
  ⟨"NOP", 0xFFFFFFFFFFFFFFFF, 0x0200000000000000, false⟩,
  ⟨"LI", 0xFF0FFFFF00000000, 0x0300000000000000, false⟩,
  ⟨"LIH", 0xFF0FFFFF00000000, 0x0400000000000000, false⟩,
  ⟨"MOV", 0xFF00FFFFFFFFFFFF, 0x0500000000000000, false⟩,
  ⟨"LDW", 0xFF00FFFF00000000, 0x0600000000000000, false⟩,
  ⟨"STW", 0xFF00FFFF00000000, 0x0700000000000000, false⟩]

/-- Rows of spec/opcode_table.json. -/
def tableUnits1to3 : List TableRow := [
  ⟨"ADD", 0xFF000000FFFFFFFF, 0x1000000000000000, false⟩,
  ⟨"SUB", 0xFF000000FFFFFFFF, 0x1100000000000000, false⟩,
  ⟨"SADD", 0xFF00000FFFFFFFFF, 0x1200000000000000, false⟩,
  ⟨"MULW", 0xFF0000FFFFFFFFFF, 0x1800000000000000, false⟩,
  ⟨"SMUL", 0xFF00000FFFFFFFFF, 0x1900000000000000, false⟩,
  ⟨"BMUL", 0xFFF00000FFFFFFFF, 0x1A00000000000000, false⟩,
  ⟨"SHL10", 0xFFF00000FFFFFFFF, 0x1B00000000000000, false⟩,
  ⟨"DIVW", 0xFF00000FFFFFFFFF, 0x2000000000000000, false⟩,
  ⟨"SDIV", 0xFF00000FFFFFFFFF, 0x2100000000000000, false⟩,
  ⟨"BDIVMOD", 0xFF0000000FFFFFFF, 0x2200000000000000, false⟩,
  ⟨"SHR10", 0xFF00000FFFFFFFFF, 0x2300000000000000, false⟩]

/-- Rows of spec/opcode_table.json. -/
def tableUnits4to6 : List TableRow := [
  ⟨"ADDMOD", 0xFF0000FFFFFFFFFF, 0x2800000000000000, false⟩,
  ⟨"SUBMOD", 0xFF0000FFFFFFFFFF, 0x2900000000000000, false⟩,
  ⟨"MULMOD", 0xFF0000FFFFFFFFFF, 0x3000000000000000, false⟩,
  ⟨"MULMODP", 0xFF000FFFFFFFFFFC, 0x3100000000000000, true⟩,
  ⟨"MULMOD2", 0xFF0000000FFFFFFF, 0x3200000000000000, false⟩,
  ⟨"MULMOD2C", 0xFF00000F0FFFFFFF, 0x3300000000000000, false⟩,
  ⟨"POWMOD", 0xFF0000FFFFFFFFFF, 0x3400000000000000, false⟩,
  ⟨"REDP", 0xFF000FFFFFFFFFFC, 0x3800000000000000, true⟩]

/-- Rows of spec/opcode_table.json. -/
def tableUnits7to11 : List TableRow := [
  ⟨"NTTSTG", 0xFFF0FF00FFFFFFF8, 0x4000000000000000, true⟩,
  ⟨"NTTREV", 0xFFF0FF0FFFFFFFFF, 0x4100000000000000, false⟩,
  ⟨"NTTFWD", 0xFFF0FF0FFFFFFFFC, 0x4800000000000000, true⟩,
  ⟨"NTTINV", 0xFFF0FF0FFFFFFFFC, 0x4900000000000000, true⟩,
  ⟨"NTTCONV", 0xFFF00F0FFFFFFFFC, 0x4A00000000000000, true⟩,
  ⟨"NTTACONV", 0xFFF0FF0FFFFFFFFC, 0x4B00000000000000, true⟩,
  ⟨"NTTLEN", 0xFF00FFFFFFFFFFFF, 0x4C00000000000000, false⟩,
  ⟨"CRT3", 0xFF000000FFFFFFFF, 0x5000000000000000, false⟩,
  ⟨"KMUL", 0xFFF00000FFFFFFFF, 0x5800000000000000, false⟩,
  ⟨"KMULN", 0xFFF00000FFFFFFFF, 0x5900000000000000, false⟩,
  ⟨"NMUL", 0xFFF00000FFFFFFFF, 0x5A00000000000000, false⟩]

/-- spec/opcode_table.json, in its order. -/
def opcodeTable : List TableRow := tableSequencer ++ tableUnits1to3 ++ tableUnits4to6 ++ tableUnits7to11

/-- Whether a word is of a row of the table (R73). -/
def TableRow.accepts (r : TableRow) (c : Word) : Bool :=
  c &&& r.mask == r.pattern && !(r.usesPi && c.extractLsb' 0 2 == 3)

/-- The mnemonic of a command, as spec/opcode_table.json spells it. -/
def Instr.mnemonic : Instr → String
  | .halt => "HALT"
  | .nop => "NOP"
  | .li _ _ => "LI"
  | .lih _ _ => "LIH"
  | .mov _ _ => "MOV"
  | .ldw _ _ _ => "LDW"
  | .stw _ _ _ => "STW"
  | .add _ _ _ _ _ _ => "ADD"
  | .sub _ _ _ _ _ _ => "SUB"
  | .sadd _ _ _ _ _ => "SADD"
  | .mulw _ _ _ _ => "MULW"
  | .smul _ _ _ _ _ => "SMUL"
  | .bmul _ _ _ _ _ => "BMUL"
  | .shl10 _ _ _ _ _ => "SHL10"
  | .divw _ _ _ _ _ => "DIVW"
  | .sdiv _ _ _ _ _ => "SDIV"
  | .bdivmod _ _ _ _ _ _ _ => "BDIVMOD"
  | .shr10 _ _ _ _ _ => "SHR10"
  | .addmod _ _ _ _ => "ADDMOD"
  | .submod _ _ _ _ => "SUBMOD"
  | .mulmod _ _ _ _ => "MULMOD"
  | .mulmodp _ _ _ _ => "MULMODP"
  | .mulmod2 _ _ _ _ _ _ _ => "MULMOD2"
  | .mulmod2c _ _ _ _ _ _ => "MULMOD2C"
  | .powmod _ _ _ _ => "POWMOD"
  | .redp _ _ _ _ => "REDP"
  | .nttstg _ _ _ _ _ => "NTTSTG"
  | .nttrev _ _ => "NTTREV"
  | .nttfwd _ _ _ => "NTTFWD"
  | .nttinv _ _ _ => "NTTINV"
  | .nttconv _ _ _ _ => "NTTCONV"
  | .nttaconv _ _ _ => "NTTACONV"
  | .nttlen _ _ => "NTTLEN"
  | .crt3 _ _ _ _ _ _ => "CRT3"
  | .kmul _ _ _ _ _ => "KMUL"
  | .kmuln _ _ _ _ _ => "KMULN"
  | .nmul _ _ _ _ _ => "NMUL"

end Sys2Proof
end

