-- ==== Sys2Proof/Machine/State.lean ====
section
/-! DEFINITION. The state of the block (10_state.md R20), as plain data, its reset value (R40), and the
reasons a step can stop. The spec's state is complete in R20; `cfg`, `epoch`, `freeCount` and `lastCommand` are the
model's own (INVENTORY.md, "State"). Operations over the state are in Machine/Ops.lean. -/

namespace Sys2Proof.Machine

open Sys2Proof

/-- A store of words by word index: the words that something has written since reset, in the canonical form
`Memory.wf` of Machine/Ops.lean (addresses strictly rising). An unlisted address holds no value that anything
wrote. The cell is a 64-bit word, the spec's smallest addressable unit (R50, R51; assumption 1). -/
abbrev Memory := List (Nat × Word)

/-- The three bits of STATUS (R26). -/
structure Status where
  /-- RUN, bit 0. -/
  run : Bool
  /-- HALTED, bit 1. -/
  halted : Bool
  /-- FAULT, bit 2. -/
  fault : Bool
  deriving DecidableEq, Repr

/-- The nine causes of R201. Code 0, NONE, is the value of CAUSE when none is recorded. -/
inductive Cause
  | illegal | fetch | len | addr | overlap | divzero | range | badword | alloc
  deriving DecidableEq, Repr

/-- The whole state of the block. -/
structure State where
  /-- The general registers `x0` to `x15` (R21). -/
  regs : Vector Word 16
  /-- The command pointer, a count of command words (R23). -/
  pc : Word
  /-- STATUS (R26). -/
  status : Status
  /-- CAUSE (R29). -/
  cause : Word
  /-- EPC (R30). -/
  epc : Word
  /-- FINFO (R31). -/
  finfo : Word
  /-- Data memory `M` (R34). -/
  dataMem : Memory
  /-- The command store `C` (R35). -/
  cmdMem : Memory
  /-- The parameters of this machine (R6, R7); nothing changes them (assumption 4). -/
  cfg : Config
  /-- The number of the last reset: it indexes the free values of never-written words (assumptions 2, 3, 7). -/
  epoch : Nat
  /-- How many free values have been drawn (assumptions 6, 7, 8). -/
  freeCount : Nat
  /-- The address of the command last executed in this run, none right after START: one of the two a read of PC may
  answer while RUN = 1 (R28, assumption 8). -/
  lastCommand : Option Word
  deriving DecidableEq, Repr

/-- Why the model could stop with a fault. The block's own faults are not of this type: their entry is
described (R210), so a command that raises one goes to a NEXT state with RUN = 0 and FAULT = 1 (assumption 14).
"Nothing in the block is `stuck`" (93_implementation_defined.md), so there is no reason: nobody raises one. -/
inductive Fault
  deriving DecidableEq, Repr

/-- Why the model could refuse a command. -/
inductive Refusal
  /-- Raised by an arm of `exec` whose command has no meaning in the model yet, with its mnemonic; safe, since no
  claim about a next state covers it. No arm does so: every command has its meaning. -/
  | notModelled (mnemonic : String)
  deriving DecidableEq, Repr

/-- What a step answers. -/
abbrev Result := Host.Outcome State Fault Refusal

/-- The state right after reset number `epoch` of a machine with parameters `cfg` (R40, R230): every register and
every control register 0, IDLE, and no word of `M` or `C` written. -/
def State.resetOf (cfg : Config) (epoch freeCount : Nat) : State where
  regs := Vector.replicate 16 0
  pc := 0
  status := ⟨false, false, false⟩
  cause := 0
  epc := 0
  finfo := 0
  dataMem := []
  cmdMem := []
  cfg := cfg
  epoch := epoch
  freeCount := freeCount
  lastCommand := none

/-- The state right after reset (R40), with the default parameters of R6 and R7 (assumption 4) and the model's
two counters at 0 and no command executed (assumptions 7, 8). -/
def State.reset : State := State.resetOf Config.default 0 0

end Sys2Proof.Machine
end

