-- ==== Sys2Proof/Machine/Ops.lean ====
section
/-! DEFINITION. The named operations every meaning is written with: registers, the two stores, completing a
command (20_memory.md R59), and taking a fault (60_exceptions.md R210, R207). -/

namespace Sys2Proof.Machine

open Sys2Proof

/-! ### Stores -/

namespace Memory

/-- The word last written at an address; `none` where nothing has written since reset. -/
def get? : Memory → Nat → Option Word
  | [], _ => none
  | (b, v) :: rest, a => if b = a then some v else get? rest a

/-- Write one word, keeping the addresses strictly rising. -/
def set : Memory → Nat → Word → Memory
  | [], a, v => [(a, v)]
  | (b, w) :: rest, a, v =>
    if a < b then (a, v) :: (b, w) :: rest
    else if a = b then (a, v) :: rest
    else (b, w) :: set rest a v

/-- `MemWrite` of R10: the words of a list from an address up, element 0 at the address. -/
def writeList (m : Memory) (a : Nat) : List Word → Memory
  | [] => m
  | v :: rest => writeList (set m a v) (a + 1) rest

/-- The canonical form: addresses strictly rising. An unlisted address holds no value, so no entry can equal what
it holds. -/
abbrev wf (m : Memory) : Prop := m.Pairwise (fun x y => x.1 < y.1)

/-- Every listed address lies below `bound`. -/
abbrev within (m : Memory) (bound : Nat) : Prop := ∀ x ∈ m, x.1 < bound

end Memory

/-! ### Registers and words of the stores -/

/-- `x[r]` of R10. No register is hard-wired (R22). -/
def State.reg (s : State) (r : Reg) : Word := s.regs[r]

/-- `x[r] <- v` of R10. -/
def State.setReg (s : State) (r : Reg) (v : Word) : State := { s with regs := s.regs.set r v }

/-- `M[a]` of R10. A word nothing has written reads as its free value (R60, assumption 2). -/
def State.data (s : State) (a : Nat) : Word :=
  (s.dataMem.get? a).getD (Config.unwrittenData s.epoch a)

/-- `C[a]` of R10. A word nothing has written reads as its free value (R60, assumption 3). -/
def State.command (s : State) (a : Nat) : Word :=
  (s.cmdMem.get? a).getD (Config.unwrittenCommand s.epoch a)

/-- `MemRead(a, n)` of R10. -/
def State.dataList (s : State) (a : Nat) : Nat → List Word
  | 0 => []
  | n + 1 => s.data a :: s.dataList (a + 1) n

/-- `MemWrite(a, n, L)` of R10, `n` being the length of `L`. -/
def State.setData (s : State) (a : Nat) (l : List Word) : State :=
  { s with dataMem := s.dataMem.writeList a l }

/-- `pc <- pc + 1` (R24); the command's address is remembered for a read of PC (assumption 8). -/
def State.advance (s : State) : State := { s with pc := s.pc + 1, lastCommand := some s.pc }

/-! ### Array operands -/

/-- An array operand (R54): a base, which is the value of a register, and a length in words. -/
structure ArrayOperand where
  base : Word
  len : Nat
  deriving DecidableEq, Repr

/-- The words of an array. -/
def State.words (s : State) (a : ArrayOperand) : List Word := s.dataList a.base.toNat a.len

/-- Write the words of an array. -/
def State.setWords (s : State) (a : ArrayOperand) (l : List Word) : State := s.setData a.base.toNat l

/-! ### Faults -/

/-- The code of a cause (R201). -/
def Cause.code : Cause → Word
  | .illegal => 1
  | .fetch => 2
  | .len => 3
  | .addr => 4
  | .overlap => 5
  | .divzero => 6
  | .range => 7
  | .badword => 8
  | .alloc => 9

/-- What a command raises: `raise Cause(info)` of R10. `clobbers` is empty but for ALLOC, where it lists the
command's destination arrays (R207). -/
structure Trap where
  cause : Cause
  info : Word
  clobbers : List ArrayOperand := []
  deriving DecidableEq, Repr

/-- Free words for the addresses from `a` up, as draw number `count` (assumption 6). -/
def freeWords (count a : Nat) : Nat → List Word
  | 0 => []
  | n + 1 => Config.allocWord count a :: freeWords count (a + 1) n

/-- Leave free values in every word of the arrays (R207). -/
def State.clobber (s : State) : List ArrayOperand → State
  | [] => s
  | a :: rest =>
    State.clobber
      { s.setWords a (freeWords s.freeCount a.base.toNat a.len) with freeCount := s.freeCount + 1 } rest

/-- Fault entry (R210): CAUSE, EPC and FINFO recorded, FAULT set, RUN cleared, HALTED left as it is; `pc` and all
else unchanged, the destination arrays of an ALLOC excepted (R207). -/
def State.raise (s : State) (t : Trap) : State :=
  { s.clobber t.clobbers with
    cause := t.cause.code
    epc := s.pc
    finfo := t.info
    status := { s.status with fault := true, run := false } }

/-- Return from a fault is the host's CTRL.CLRF (R211, R27): FAULT, CAUSE, EPC and FINFO cleared. -/
def State.clearFault (s : State) : State :=
  { s with status := { s.status with fault := false }, cause := 0, epc := 0, finfo := 0 }

/-! ### A command -/

/-- One command (R59, R90): `trap` is its first failed check, if any. It then takes that fault; else its writes
happen and `pc` advances. -/
def command (s : State) (trap : Option Trap) (effect : Unit → State) : Result :=
  match trap with
  | some t => .next (s.raise t)
  | none => .next (effect ()).advance

end Sys2Proof.Machine
end

