-- ==== Sys2Proof/Machine/Operands.lean ====
section
/-! DEFINITION. The operand forms of a command and the checks made on them (20_memory.md R54 to R58,
40_sequencer_moves.md R96, R98, 60_exceptions.md R201 to R208). A check answers the trap it raises, or `none` when
it passes; `c1 <|> c2` is the first of two checks that fails. -/

namespace Sys2Proof.Machine

open Sys2Proof

/-! ### Operand forms -/

/-- A scalar operand as an unsigned integer (R9). -/
def State.scalar (s : State) (r : Reg) : Nat := (s.reg r).toNat

/-- An array operand (R54): its base in a register, its length a number of words. -/
def State.array (s : State) (r : Reg) (len : Nat) : ArrayOperand := ⟨s.reg r, len⟩

/-- `val` of an array of radix words (R10). -/
def State.value (s : State) (a : ArrayOperand) : Nat := Machine.value (s.words a)

/-- The elements of an array as residues (R150). -/
def State.residues (s : State) (a : ArrayOperand) : List Nat := (s.words a).map BitVec.toNat

/-- Write a list of residues to an array (R150). -/
def State.setResidues (s : State) (a : ArrayOperand) (l : List Nat) : State :=
  s.setWords a (l.map Word.ofNat)

/-- Base plus sign-extended displacement, modulo `2^64` (R96, R98). -/
def State.effectiveAddress (s : State) (ra : Reg) (imm : BitVec 32) : Word :=
  s.reg ra + imm.signExtend 64

/-! ### Overlap classes (R57) -/

/-- "Two ranges `[a, a+n)` and `[b, b+k)` are disjoint when `a + n ≤ b` or `b + k ≤ a`." -/
def ArrayOperand.disjoint (a b : ArrayOperand) : Bool :=
  decide (a.base.toNat + a.len ≤ b.base.toNat) || decide (b.base.toNat + b.len ≤ a.base.toNat)

/-! ### Checks -/

/-- A condition a command requires, and the trap it raises where it fails. -/
def require (ok : Bool) (cause : Cause) (info : Word) : Option Trap :=
  if ok then none else some { cause := cause, info := info }

/-- ILLEGAL for `pi = 3` (R75), with the command's word; the decoder has refused such a word already
(assumption 13). -/
def checkPrimeIndex (i : Instr) : Option Trap := require (decide i.WellFormed) .illegal (encode i)

/-- The length check (R56): `LEN(0)`. -/
def checkLen (ok : Bool) : Option Trap := require ok .len 0

/-- The range check (R55) of one array operand: `ADDR(base)` unless `base + len ≤ MEM_WORDS`, in unbounded
integers. -/
def State.checkAddr (s : State) (a : ArrayOperand) : Option Trap :=
  require (decide (a.base.toNat + a.len ≤ s.cfg.memWords)) .addr a.base

/-- The range checks of a command's array operands, in the order of its rule. -/
def State.checkAddrs (s : State) : List ArrayOperand → Option Trap
  | [] => none
  | a :: rest => s.checkAddr a <|> s.checkAddrs rest

/-- The same-base overlap class (R57): `OVERLAP(dst.base)` unless disjoint or of one base. -/
def checkSameBase (dst src : ArrayOperand) : Option Trap :=
  require (dst.base == src.base || dst.disjoint src) .overlap dst.base

/-- The strict overlap class (R57): `OVERLAP(dst.base)` unless disjoint. -/
def checkStrict (dst other : ArrayOperand) : Option Trap :=
  require (dst.disjoint other) .overlap dst.base

/-- `RANGE(v)` unless a scalar operand is below a bound (R130, R205). -/
def checkBelow (v : Word) (bound : Nat) : Option Trap := require (decide (v.toNat < bound)) .range v

/-- The first of the addresses `a`, `a+1`, …, `n` of them, whose word is not below `bound`. -/
def State.firstNotBelow (s : State) (bound a : Nat) : Nat → Option Nat
  | 0 => none
  | n + 1 => if (s.data a).toNat < bound then s.firstNotBelow bound (a + 1) n else some a

/-- The operand value check (R58): `BADWORD(addr)` at the first word of the array that is not below `bound`
(`RADIX` for a radix word, the prime for a residue). -/
def State.checkWords (s : State) (bound : Nat) (a : ArrayOperand) : Option Trap :=
  (s.firstNotBelow bound a.base.toNat a.len).map (fun i => { cause := .badword, info := Word.ofNat i })

/-- The value of `scratch_need` for a command and its lengths, where it is neither 0 by R191 nor listed by the machine:
open. -/
def scratchListed (c : Config) (user : Config.ScratchUser) (lengths : List Nat) : Nat :=
  match c.scratchTable.find? (fun row => row.1 == user && row.2.1 == lengths) with
  | some row => row.2.2
  | none => c.openScratchNeed user lengths

/-- `scratch_need(cmd, lengths)` (R7): a KMUL whose operands are at or below `KARATSUBA_BASECASE` needs none (R191); else
the machine's value (assumption 5). -/
def scratchNeed (c : Config) (user : Config.ScratchUser) (lengths : List Nat) : Nat :=
  if user == .kmul && lengths.all (fun l => decide (l ≤ c.karatsubaBasecase)) then 0
  else scratchListed c user lengths

/-- Whether `scratch_need(cmd, lengths) > SCRATCH_WORDS` (R207). -/
def scratchShort (c : Config) (user : Config.ScratchUser) (lengths : List Nat) : Bool :=
  match c.scratchWords with
  | none => false
  | some capacity => decide (capacity < scratchNeed c user lengths)

/-- The scratch check (R207): `ALLOC(0)`, which leaves the destination arrays unspecified. -/
def State.checkScratch (s : State) (user : Config.ScratchUser) (lengths : List Nat) (dsts : List ArrayOperand) :
    Option Trap :=
  if scratchShort s.cfg user lengths then some { cause := .alloc, info := 0, clobbers := dsts } else none

end Sys2Proof.Machine
end

