-- ==== Sys2Proof/Machine/Adder.lean ====
section
/-! DEFINITION. Unit 1, word adder and subtractor (41_word_adder_subtractor.md): ADD, SUB, SADD. Checks in the order
of R100: LEN, ADDR, OVERLAP, RANGE, BADWORD. -/

namespace Sys2Proof.Machine

open Sys2Proof

/-- The checks ADD and SUB share (R101, R102). -/
def State.checkAddSub (s : State) (w u v : ArrayOperand) : Option Trap :=
  checkLen (decide (v.len ≤ u.len ∧ 1 ≤ v.len))
    <|> s.checkAddrs [w, u, v]
    <|> checkSameBase w u
    <|> checkSameBase w v
    <|> s.checkWords RADIX u
    <|> s.checkWords RADIX v

/-- ADD (R101): `w = u + v` in `m` words, the carry in `rd`. -/
def execAdd (rd ra rb rc re rf : Reg) (s : State) : Result :=
  let m := s.scalar re
  let w := s.array ra m
  let u := s.array rb m
  let v := s.array rc (s.scalar rf)
  command s (s.checkAddSub w u v) fun _ =>
    let sum := s.value u + s.value v
    (s.setWords w (digits (sum % RADIX ^ m) m)).setReg rd (carryOut sum m)

/-- SUB (R102): `w = u − v` modulo `RADIX^m`, the borrow in `rd`. -/
def execSub (rd ra rb rc re rf : Reg) (s : State) : Result :=
  let m := s.scalar re
  let w := s.array ra m
  let u := s.array rb m
  let v := s.array rc (s.scalar rf)
  command s (s.checkAddSub w u v) fun _ =>
    let difference : Int := (s.value u : Int) - (s.value v : Int)
    let residue := (difference % ((RADIX ^ m : Nat) : Int)).toNat
    (s.setWords w (digits residue m)).setReg rd (borrowOut (s.value u) (s.value v))

/-- SADD (R103): `w = u + v` for a scalar radix word `v`, the carry in `rd`. -/
def execSadd (rd ra rb rc re : Reg) (s : State) : Result :=
  let m := s.scalar re
  let w := s.array ra m
  let u := s.array rb m
  let v := s.reg rc
  command s
    (checkLen (decide (1 ≤ m))
      <|> s.checkAddrs [w, u]
      <|> checkSameBase w u
      <|> checkBelow v RADIX
      <|> s.checkWords RADIX u)
    fun _ =>
      let sum := s.value u + v.toNat
      (s.setWords w (digits (sum % RADIX ^ m) m)).setReg rd (carryOut sum m)

end Sys2Proof.Machine
end

