-- ==== Sys2Proof/Machine/Crt.lean ====
section
/-! DEFINITION. Unit 10, CRT reconstructor (46_crt.md): CRT3. The running value is a natural number; R183's bound says
it always fits in three words. -/

namespace Sys2Proof.Machine

open Sys2Proof

/-- The coefficients `z_i` of three residue lists (R180). -/
def crtCoefficients (c : Config) : List Nat → List Nat → List Nat → List Nat
  | a1 :: r1, a2 :: r2, a3 :: r3 => crt c a1 a2 a3 :: crtCoefficients c r1 r2 r3
  | _, _, _ => []

/-- CRT3 (R181): radix words from three residue arrays, the leftover-carry indicator in `rd`. -/
def execCrt3 (rd ra rb rc re rf : Reg) (s : State) : Result :=
  let n := s.scalar rf
  let w := s.array ra n
  let r1 := s.array rb n
  let r2 := s.array rc n
  let r3 := s.array re n
  command s
    (checkLen (decide (1 ≤ n))
      <|> s.checkAddrs [w, r1, r2, r3]
      <|> checkSameBase w r1
      <|> checkStrict w r2
      <|> checkStrict w r3
      <|> s.checkWords s.cfg.p1 r1
      <|> s.checkWords s.cfg.p2 r2
      <|> s.checkWords s.cfg.p3 r3)
    fun _ =>
      let z := crtCoefficients s.cfg (s.residues r1) (s.residues r2) (s.residues r3)
      let result := crtCarry 0 z
      (s.setWords w result.1).setReg rd (presentFlag result.2)

end Sys2Proof.Machine
end

