-- ==== Sys2Proof/Machine/Divider.lean ====
section
/-! DEFINITION. Unit 3, word divider (43_word_divider_radix.md): DIVW, SDIV, BDIVMOD, SHR10. Checks in the order of
R120. -/

namespace Sys2Proof.Machine

open Sys2Proof

/-- DIVW (R121): `hi · 2^64 + lo` by `d`, remainder to `ra` first, quotient to `rd` second. -/
def execDivw (rd ra rb rc re : Reg) (s : State) : Result :=
  let hi := s.reg rb
  let d := s.scalar re
  command s (require (d != 0) .divzero 0 <|> checkBelow hi d) fun _ =>
    let n := hi.toNat * 2 ^ 64 + s.scalar rc
    (s.setReg ra (Word.ofNat (n % d))).setReg rd (Word.ofNat (n / d))

/-- SDIV (R122): `w = u div v` for a scalar radix word `v`, the remainder in `rd`. -/
def execSdiv (rd ra rb rc re : Reg) (s : State) : Result :=
  let n := s.scalar re
  let w := s.array ra n
  let u := s.array rb n
  let v := s.reg rc
  command s
    (checkLen (decide (1 ≤ n))
      <|> s.checkAddrs [w, u]
      <|> checkSameBase w u
      <|> require (v.toNat != 0) .divzero 0
      <|> checkBelow v RADIX
      <|> s.checkWords RADIX u)
    fun _ =>
      (s.setWords w (digits (s.value u / v.toNat) n)).setReg rd (Word.ofNat (s.value u % v.toNat))

/-- BDIVMOD (R123): quotient `q` and remainder `r` of `u` by `v`, the remainder-presence flag in `rd`. -/
def execBdivmod (rd ra rb rc re rf rg : Reg) (s : State) : Result :=
  let nplusm := s.scalar rf
  let n := s.scalar rg
  let q := s.array ra (nplusm - n + 1)
  let r := s.array rb n
  let u := s.array rc nplusm
  let v := s.array re n
  command s
    (checkLen (decide (1 ≤ n ∧ n ≤ nplusm))
      <|> s.checkAddrs [q, r, u, v]
      <|> checkStrict q r
      <|> checkStrict q u
      <|> checkStrict q v
      <|> checkStrict r u
      <|> checkStrict r v
      <|> s.checkWords RADIX u
      <|> s.checkWords RADIX v
      <|> require (s.value v != 0) .divzero 0
      <|> require (s.data (v.base.toNat + n - 1) != 0) .range 0
      <|> s.checkScratch .bdivmod [nplusm, n] [q, r])
    fun _ =>
      ((s.setWords q (digits (s.value u / s.value v) q.len)).setWords r
        (digits (s.value u % s.value v) n)).setReg rd (presentFlag (s.value u % s.value v))

/-- SHR10 (R125): `w = u div 10^s`, the rounding indicator in `rd`. -/
def execShr10 (rd ra rb rc re : Reg) (s : State) : Result :=
  let m := s.scalar re
  let w := s.array ra m
  let u := s.array rb m
  let shift := s.scalar rc
  command s
    (checkLen (decide (1 ≤ m))
      <|> s.checkAddrs [w, u]
      <|> checkSameBase w u
      <|> s.checkWords RADIX u)
    fun _ =>
      (s.setWords w (digits (shiftRight10 (s.value u) shift m) m)).setReg rd
        (roundingIndicator (s.value u) shift m)

end Sys2Proof.Machine
end

