-- ==== Sys2Proof/Machine/Multiplier.lean ====
section
/-! DEFINITION. Unit 2, word multiplier (42_word_multiplier.md): MULW, SMUL, BMUL, SHL10. Checks in the order of R110.
The checks and the effect of an array product (R113, R190) are here for unit 11 as well. -/

namespace Sys2Proof.Machine

open Sys2Proof

/-- MULW (R111): the 128-bit product, low word to `ra` first, high word to `rd` second. -/
def execMulw (rd ra rb rc : Reg) (s : State) : Result :=
  command s none fun _ =>
    let p := s.scalar rb * s.scalar rc
    (s.setReg ra (Word.ofNat (p % 2 ^ 64))).setReg rd (Word.ofNat (p / 2 ^ 64))

/-- SMUL (R112): `w = u · v` in `n` words for a scalar radix word `v`, the carry word in `rd`. -/
def execSmul (rd ra rb rc re : Reg) (s : State) : Result :=
  let n := s.scalar re
  let w := s.array ra n
  let u := s.array rb n
  let v := s.reg rc
  command s
    (checkLen (decide (1 ≤ n))
      <|> s.checkAddrs [w, u]
      <|> checkSameBase w u
      <|> checkBelow v RADIX
      <|> s.checkWords RADIX u)
    fun _ =>
      let product := s.value u * v.toNat
      (s.setWords w (digits (product % RADIX ^ n) n)).setReg rd (carryOut product n)

/-- The checks on `w = u · v` after its length checks: ADDR, OVERLAP strict, BADWORD (R113, R190). -/
def State.checkProduct (s : State) (w u v : ArrayOperand) : Option Trap :=
  s.checkAddrs [w, u, v]
    <|> checkStrict w u
    <|> checkStrict w v
    <|> s.checkWords RADIX u
    <|> s.checkWords RADIX v

/-- The write of an array product: `digits(val(u) · val(v), m + n)` (R113, R191, R193, R195). -/
def State.writeProduct (s : State) (w u v : ArrayOperand) : State :=
  s.setWords w (digits (s.value u * s.value v) w.len)

/-- BMUL (R113): the schoolbook product, `m + n` words. -/
def execBmul (ra rb rc re rf : Reg) (s : State) : Result :=
  let m := s.scalar re
  let n := s.scalar rf
  let w := s.array ra (m + n)
  let u := s.array rb m
  let v := s.array rc n
  command s (checkLen (decide (1 ≤ m ∧ 1 ≤ n)) <|> s.checkProduct w u v) fun _ => s.writeProduct w u v

/-- SHL10 (R114): `w = u · 10^s` in `n` words, `RANGE(s)` where it does not fit. -/
def execShl10 (ra rb rc re rf : Reg) (s : State) : Result :=
  let n := s.scalar re
  let m := s.scalar rf
  let w := s.array ra n
  let u := s.array rb m
  let shift := s.reg rc
  command s
    (checkLen (decide (m ≤ n ∧ 1 ≤ m))
      <|> s.checkAddrs [w, u]
      <|> checkSameBase w u
      <|> s.checkWords RADIX u
      <|> require (!shiftLeft10Overflows (s.value u) shift.toNat n) .range shift)
    fun _ => s.setWords w (digits (shiftLeft10 (s.value u) shift.toNat) n)

end Sys2Proof.Machine
end

