-- ==== Sys2Proof/Machine/Karatsuba.lean ====
section
/-! DEFINITION. Unit 11, Karatsuba multiplier (47_karatsuba.md): KMUL, KMULN, NMUL. The result does not depend on the
strategy (R192): each computes the exact product, and the recursion shows only through the scratch it needs (R196).
Checks in the order of R190: LEN, ADDR, OVERLAP, BADWORD, ALLOC. -/

namespace Sys2Proof.Machine

open Sys2Proof

/-- KMUL (R191). -/
def execKmul (ra rb rc re rf : Reg) (s : State) : Result :=
  let la := s.scalar re
  let lb := s.scalar rf
  let w := s.array ra (la + lb)
  let u := s.array rb la
  let v := s.array rc lb
  command s
    (checkLen (decide (1 ≤ la ∧ 1 ≤ lb))
      <|> s.checkProduct w u v
      <|> s.checkScratch .kmul [la, lb] [w])
    fun _ => s.writeProduct w u v

/-- KMULN (R193). -/
def execKmuln (ra rb rc re rf : Reg) (s : State) : Result :=
  let la := s.scalar re
  let lb := s.scalar rf
  let w := s.array ra (la + lb)
  let u := s.array rb la
  let v := s.array rc lb
  command s
    (checkLen (decide (1 ≤ la ∧ 1 ≤ lb))
      <|> s.checkProduct w u v
      <|> s.checkScratch .kmuln [la, lb] [w])
    fun _ => s.writeProduct w u v

/-- NMUL (R195): the length must also have a transform. -/
def execNmul (ra rb rc re rf : Reg) (s : State) : Result :=
  let la := s.scalar re
  let lb := s.scalar rf
  let w := s.array ra (la + lb)
  let u := s.array rb la
  let v := s.array rc lb
  command s
    (checkLen (decide (1 ≤ la ∧ 1 ≤ lb))
      <|> checkLen (decide (la + lb ≤ 3 * 2 ^ s.cfg.maxNttLog2))
      <|> s.checkProduct w u v
      <|> s.checkScratch .nmul [la, lb] [w])
    fun _ => s.writeProduct w u v

end Sys2Proof.Machine
end

