-- ==== Sys2Proof/Machine/Modular.lean ====
section
/-! DEFINITION. Units 4, 5 and 6, modular adder, multiplier and reducer (44_modular.md): ADDMOD, SUBMOD, MULMOD,
MULMODP, MULMOD2, MULMOD2C, POWMOD, REDP. Registers only; checks ILLEGAL, then RANGE with the first offending
operand (R130). -/

namespace Sys2Proof.Machine

open Sys2Proof

/-- `RANGE(t)` at the first of some scalars that is not below a modulus (R130, R135). -/
def checkResidues (m : Nat) : List Word → Option Trap
  | [] => none
  | t :: rest => checkBelow t m <|> checkResidues m rest

/-- ADDMOD (R131). -/
def execAddmod (rd ra rb rc : Reg) (s : State) : Result :=
  let m := s.scalar rc
  command s (checkResidues m [s.reg ra, s.reg rb]) fun _ =>
    s.setReg rd (Word.ofNat ((s.scalar ra + s.scalar rb) % m))

/-- SUBMOD (R132). -/
def execSubmod (rd ra rb rc : Reg) (s : State) : Result :=
  let m := s.scalar rc
  command s (checkResidues m [s.reg ra, s.reg rb]) fun _ =>
    s.setReg rd (Word.ofNat (subMod (s.scalar ra) (s.scalar rb) m))

/-- MULMOD (R133). -/
def execMulmod (rd ra rb rc : Reg) (s : State) : Result :=
  let m := s.scalar rc
  command s (checkResidues m [s.reg ra, s.reg rb]) fun _ =>
    s.setReg rd (Word.ofNat (s.scalar ra * s.scalar rb % m))

/-- MULMODP (R134): the product modulo `P[pi]`. -/
def execMulmodp (rd ra rb : Reg) (pi : BitVec 2) (s : State) : Result :=
  let p := s.cfg.prime pi
  command s (checkPrimeIndex (.mulmodp rd ra rb pi) <|> checkResidues p [s.reg ra, s.reg rb]) fun _ =>
    s.setReg rd (Word.ofNat (s.scalar ra * s.scalar rb % p))

/-- MULMOD2 (R135): `a0 · b0` to `rd` first, `a1 · b1` to `ra` second. -/
def execMulmod2 (rd ra rb rc re rf rg : Reg) (s : State) : Result :=
  let m := s.scalar rg
  command s (checkResidues m [s.reg rb, s.reg rc, s.reg re, s.reg rf]) fun _ =>
    let r0 := s.scalar rb * s.scalar rc % m
    let r1 := s.scalar re * s.scalar rf % m
    (s.setReg rd (Word.ofNat r0)).setReg ra (Word.ofNat r1)

/-- MULMOD2C (R136): `a0 · w` to `rd` first, `a1 · w` to `ra` second. -/
def execMulmod2c (rd ra rb rc re rg : Reg) (s : State) : Result :=
  let m := s.scalar rg
  command s (checkResidues m [s.reg rb, s.reg rc, s.reg re]) fun _ =>
    let r0 := s.scalar rb * s.scalar re % m
    let r1 := s.scalar rc * s.scalar re % m
    (s.setReg rd (Word.ofNat r0)).setReg ra (Word.ofNat r1)

/-- POWMOD (R137): `base^exp mod m`, `RANGE(m)` for `m < 2`. -/
def execPowmod (rd ra rb rc : Reg) (s : State) : Result :=
  let m := s.scalar rc
  command s (require (decide (2 ≤ m)) .range (s.reg rc) <|> checkBelow (s.reg ra) m) fun _ =>
    s.setReg rd (Word.ofNat (powMod (s.scalar ra) (s.scalar rb) m))

/-- REDP (R139): `hi · 2^64 + lo` modulo `P[pi]`, `hi` below it. -/
def execRedp (rd ra rb : Reg) (pi : BitVec 2) (s : State) : Result :=
  let p := s.cfg.prime pi
  command s (checkPrimeIndex (.redp rd ra rb pi) <|> checkBelow (s.reg ra) p) fun _ =>
    s.setReg rd (Word.ofNat ((s.scalar ra * 2 ^ 64 + s.scalar rb) % p))

end Sys2Proof.Machine
end

