-- ==== Sys2Proof/Machine/Sequencer.lean ====
section
/-! DEFINITION. Sequencer and move commands (40_sequencer_moves.md): HALT, NOP, LI, LIH, MOV, LDW, STW. -/

namespace Sys2Proof.Machine

open Sys2Proof

/-- HALT (R91): RUN cleared, HALTED set, `pc` past it. -/
def execHalt (s : State) : Result :=
  command s none fun _ => { s with status := { s.status with run := false, halted := true } }

/-- NOP (R92). -/
def execNop (s : State) : Result := command s none fun _ => s

/-- LI (R93): the immediate, zero-extended. -/
def execLi (rd : Reg) (imm : BitVec 32) (s : State) : Result :=
  command s none fun _ => s.setReg rd (imm.zeroExtend 64)

/-- LIH (R94): the immediate in bits 63:32, bits 31:0 kept. -/
def execLih (rd : Reg) (imm : BitVec 32) (s : State) : Result :=
  command s none fun _ => s.setReg rd (imm ++ (s.reg rd).extractLsb' 0 32)

/-- MOV (R97). -/
def execMov (rd ra : Reg) (s : State) : Result := command s none fun _ => s.setReg rd (s.reg ra)

/-- LDW (R96): the word at the effective address, not checked against `RADIX`. -/
def execLdw (rd ra : Reg) (imm : BitVec 32) (s : State) : Result :=
  let ea := s.effectiveAddress ra imm
  command s (s.checkAddr ⟨ea, 1⟩) fun _ => s.setReg rd (s.data ea.toNat)

/-- STW (R98): the `rd` field names the register stored. -/
def execStw (rd ra : Reg) (imm : BitVec 32) (s : State) : Result :=
  let ea := s.effectiveAddress ra imm
  command s (s.checkAddr ⟨ea, 1⟩) fun _ => s.setData ea.toNat [s.reg rd]

end Sys2Proof.Machine
end

