-- ==== Sys2Proof/Machine/Transform.lean ====
section
/-! DEFINITION. Units 7, 8 and 9, number-theoretic transform (45_ntt.md): NTTSTG, NTTREV, NTTFWD, NTTINV, NTTCONV,
NTTACONV, NTTLEN. Checks in the order of R158: ILLEGAL, LEN, ADDR, OVERLAP, RANGE, BADWORD, ALLOC. The six-step and
four-step organisations change no result (R159) and are not represented. -/

namespace Sys2Proof.Machine

open Sys2Proof

/-- NTTSTG (R152): one butterfly stage, in place. -/
def execNttstg (ra re rf : Reg) (pi : BitVec 2) (inv : Bool) (s : State) : Result :=
  let p := s.cfg.prime pi
  let n := s.scalar re
  let a := s.array ra n
  let k := log2? s.cfg.maxNttLog2 n
  command s
    (checkPrimeIndex (.nttstg ra re rf pi inv)
      <|> checkLen (k.isSome && decide (2 ≤ n))
      <|> s.checkAddr a
      <|> checkBelow (s.reg rf) (k.getD 0)
      <|> s.checkWords p a)
    fun _ =>
      let r := if inv then inverseRoot s.cfg pi n else forwardRoot s.cfg pi n
      s.setResidues a (nttStage p r (s.scalar rf) (s.residues a))

/-- NTTREV (R154): the bit-reversal permutation, in place; words moved, not interpreted. -/
def execNttrev (ra re : Reg) (s : State) : Result :=
  let n := s.scalar re
  let a := s.array ra n
  let k := log2? s.cfg.maxNttLog2 n
  command s (checkLen k.isSome <|> s.checkAddr a) fun _ =>
    s.setWords a (bitReversed (k.getD 0) (s.words a))

/-- NTTFWD (R156): the forward transform, in place. -/
def execNttfwd (ra re : Reg) (pi : BitVec 2) (s : State) : Result :=
  let p := s.cfg.prime pi
  let n := s.scalar re
  let a := s.array ra n
  command s
    (checkPrimeIndex (.nttfwd ra re pi)
      <|> checkLen (validLength s.cfg.maxNttLog2 n)
      <|> s.checkAddr a
      <|> s.checkWords p a
      <|> s.checkScratch .nttfwd [n] [a])
    fun _ => s.setResidues a (dft p (forwardRoot s.cfg pi n) (s.residues a))

/-- NTTINV (R157): the inverse transform, unscaled, in place. -/
def execNttinv (ra re : Reg) (pi : BitVec 2) (s : State) : Result :=
  let p := s.cfg.prime pi
  let n := s.scalar re
  let a := s.array ra n
  command s
    (checkPrimeIndex (.nttinv ra re pi)
      <|> checkLen (validLength s.cfg.maxNttLog2 n)
      <|> s.checkAddr a
      <|> s.checkWords p a
      <|> s.checkScratch .nttinv [n] [a])
    fun _ => s.setResidues a (dft p (inverseRoot s.cfg pi n) (s.residues a))

/-- NTTCONV (R162): the cyclic convolution in `c1`; `c2` is overwritten with its forward transform. An ALLOC
fault leaves both arrays unspecified, `c2` being counted as a destination: the model's choice (assumption 23). -/
def execNttconv (ra rb re : Reg) (pi : BitVec 2) (s : State) : Result :=
  let p := s.cfg.prime pi
  let n := s.scalar re
  let c1 := s.array ra n
  let c2 := s.array rb n
  command s
    (checkPrimeIndex (.nttconv ra rb re pi)
      <|> checkLen (validLength s.cfg.maxNttLog2 n)
      <|> s.checkAddrs [c1, c2]
      <|> checkStrict c1 c2
      <|> s.checkWords p c1
      <|> s.checkWords p c2
      <|> s.checkScratch .nttconv [n] [c1, c2])
    fun _ =>
      let t1 := dft p (forwardRoot s.cfg pi n) (s.residues c1)
      let t2 := dft p (forwardRoot s.cfg pi n) (s.residues c2)
      (s.setResidues c1 (dft p (inverseRoot s.cfg pi n) (pointwise p (invMod n p) t1 t2))).setResidues c2 t2

/-- NTTACONV (R163): the cyclic convolution of `c1` with itself, in place. -/
def execNttaconv (ra re : Reg) (pi : BitVec 2) (s : State) : Result :=
  let p := s.cfg.prime pi
  let n := s.scalar re
  let c1 := s.array ra n
  command s
    (checkPrimeIndex (.nttaconv ra re pi)
      <|> checkLen (validLength s.cfg.maxNttLog2 n)
      <|> s.checkAddr c1
      <|> s.checkWords p c1
      <|> s.checkScratch .nttaconv [n] [c1])
    fun _ =>
      let t1 := dft p (forwardRoot s.cfg pi n) (s.residues c1)
      s.setResidues c1 (dft p (inverseRoot s.cfg pi n) (pointwise p (invMod n p) t1 t1))

/-- NTTLEN (R165): transform length selection. A length that is no word, which only a crossover above `2^63` lets it
select, leaves a free value in the register (assumption 17). -/
def execNttlen (rd ra : Reg) (s : State) : Result :=
  let rsize := s.scalar ra
  let selected := selectLength s.cfg rsize
  command s (checkLen (rsize != 0) <|> checkLen selected.isSome) fun _ =>
    let length := selected.getD 0
    s.setReg rd (if length < 2 ^ 64 then Word.ofNat length else s.cfg.overlongLength rsize)

end Sys2Proof.Machine
end

