-- ==== Sys2Proof/Machine/Dispatch.lean ====
section
/-! DEFINITION. Execution of a command by its rule (40_sequencer_moves.md R90): one arm per command of the opcode map,
each one call of its meaning. -/

namespace Sys2Proof.Machine

open Sys2Proof

/-- Execute a command: it completes or takes its fault (R90). -/
def exec (i : Instr) (s : State) : Host.Outcome State Fault Refusal :=
  match i with
  | .halt => Sys2Proof.Machine.execHalt s
  | .nop => Sys2Proof.Machine.execNop s
  | .li rd imm => Sys2Proof.Machine.execLi rd imm s
  | .lih rd imm => Sys2Proof.Machine.execLih rd imm s
  | .mov rd ra => Sys2Proof.Machine.execMov rd ra s
  | .ldw rd ra imm => Sys2Proof.Machine.execLdw rd ra imm s
  | .stw rd ra imm => Sys2Proof.Machine.execStw rd ra imm s
  | .add rd ra rb rc re rf => Sys2Proof.Machine.execAdd rd ra rb rc re rf s
  | .sub rd ra rb rc re rf => Sys2Proof.Machine.execSub rd ra rb rc re rf s
  | .sadd rd ra rb rc re => Sys2Proof.Machine.execSadd rd ra rb rc re s
  | .mulw rd ra rb rc => Sys2Proof.Machine.execMulw rd ra rb rc s
  | .smul rd ra rb rc re => Sys2Proof.Machine.execSmul rd ra rb rc re s
  | .bmul ra rb rc re rf => Sys2Proof.Machine.execBmul ra rb rc re rf s
  | .shl10 ra rb rc re rf => Sys2Proof.Machine.execShl10 ra rb rc re rf s
  | .divw rd ra rb rc re => Sys2Proof.Machine.execDivw rd ra rb rc re s
  | .sdiv rd ra rb rc re => Sys2Proof.Machine.execSdiv rd ra rb rc re s
  | .bdivmod rd ra rb rc re rf rg => Sys2Proof.Machine.execBdivmod rd ra rb rc re rf rg s
  | .shr10 rd ra rb rc re => Sys2Proof.Machine.execShr10 rd ra rb rc re s
  | .addmod rd ra rb rc => Sys2Proof.Machine.execAddmod rd ra rb rc s
  | .submod rd ra rb rc => Sys2Proof.Machine.execSubmod rd ra rb rc s
  | .mulmod rd ra rb rc => Sys2Proof.Machine.execMulmod rd ra rb rc s
  | .mulmodp rd ra rb pi => Sys2Proof.Machine.execMulmodp rd ra rb pi s
  | .mulmod2 rd ra rb rc re rf rg => Sys2Proof.Machine.execMulmod2 rd ra rb rc re rf rg s
  | .mulmod2c rd ra rb rc re rg => Sys2Proof.Machine.execMulmod2c rd ra rb rc re rg s
  | .powmod rd ra rb rc => Sys2Proof.Machine.execPowmod rd ra rb rc s
  | .redp rd ra rb pi => Sys2Proof.Machine.execRedp rd ra rb pi s
  | .nttstg ra re rf pi inv => Sys2Proof.Machine.execNttstg ra re rf pi inv s
  | .nttrev ra re => Sys2Proof.Machine.execNttrev ra re s
  | .nttfwd ra re pi => Sys2Proof.Machine.execNttfwd ra re pi s
  | .nttinv ra re pi => Sys2Proof.Machine.execNttinv ra re pi s
  | .nttconv ra rb re pi => Sys2Proof.Machine.execNttconv ra rb re pi s
  | .nttaconv ra re pi => Sys2Proof.Machine.execNttaconv ra re pi s
  | .nttlen rd ra => Sys2Proof.Machine.execNttlen rd ra s
  | .crt3 rd ra rb rc re rf => Sys2Proof.Machine.execCrt3 rd ra rb rc re rf s
  | .kmul ra rb rc re rf => Sys2Proof.Machine.execKmul ra rb rc re rf s
  | .kmuln ra rb rc re rf => Sys2Proof.Machine.execKmuln ra rb rc re rf s
  | .nmul ra rb rc re rf => Sys2Proof.Machine.execNmul ra rb rc re rf s

end Sys2Proof.Machine
end

