-- ==== Sys2Proof/Machine/Fetch.lean ====
section
/-! DEFINITION. One iteration of the sequencer (40_sequencer_moves.md R90), which Step.lean calls. -/

namespace Sys2Proof.Machine

open Sys2Proof

/-- Fetch, decode and execute the command at `pc` (R90): FETCH beyond `C` (R202), ILLEGAL for a word that is no
command (R203), else the command. -/
def runCommand (s : State) : Result :=
  if s.cfg.cmdWords ≤ s.pc.toNat then .next (s.raise { cause := .fetch, info := s.pc })
  else
    let c := s.command s.pc.toNat
    match decode c with
    | .error _ => .next (s.raise { cause := .illegal, info := c })
    | .ok i => exec i s

/-- One step (R90, R223): a command while RUN = 1; "when RUN = 0 the block holds its state" (assumption 9). -/
def sequencerStep (s : State) : Result := if s.status.run then runCommand s else .next s

/-- A state with a command word stored where the next fetch finds it, and running: the word at `C[pc]` (at `C[0]`
when `pc` lies beyond `C`), RUN = 1 as after START, HALTED and FAULT 0, no
command executed (assumption 10). -/
def placeCommand (s : State) (c : Word) : State :=
  let pc : Word := if s.pc.toNat < s.cfg.cmdWords then s.pc else 0
  { s with
    cmdMem := s.cmdMem.set pc.toNat c
    pc := pc
    status := ⟨true, false, false⟩
    lastCommand := none }

end Sys2Proof.Machine
end

