-- ==== Sys2Proof/Machine/Step.lean ====
section
/-! DEFINITION. The step of the machine, and how a command word is placed before it. -/

namespace Sys2Proof.Machine

/-- One step of the sequencer (R90). -/
def step (s : State) : Host.Outcome State Fault Refusal := sequencerStep s

/-- The state with the command word numbered `w` (of `nbits` bits; the bits above are 0) where the next step fetches
it (assumption 10). -/
def State.withFetchWord (s : State) (nbits w : Nat) : State :=
  placeCommand s (Sys2Proof.Word.ofNat (w % 2 ^ nbits))

end Sys2Proof.Machine
end

