-- ==== Sys2Proof/Machine/HostPort.lean ====
section
/-! DEFINITION. What the outside world can do to the block: the host port (10_state.md R26 to R36, R46,
70_reset_and_hazards.md R241), the reset input (R230, R231) and the three outputs (60_exceptions.md R218). "A model
represents the port as two operations, `host_read(space, addr)` and `host_write(space, addr, data)`, interleaved with
sequencer steps" (R241). -/

namespace Sys2Proof.Machine

open Sys2Proof

/-! ### Reset -/

/-- Reset, by the input `rst` or by CTRL.SRST, at any time (R230, R231): every state takes its reset value, `M` and
`C` hold words nobody wrote, and their free values are new ones (assumptions 2, 3, 19). -/
def State.doReset (s : State) : State := State.resetOf s.cfg (s.epoch + 1) s.freeCount

/-! ### Control registers -/

/-- The constant ID (R32). -/
def idWord : Word := 0x0000000057415301

/-- STATUS as the port reads it: RUN bit 0, HALTED bit 1, FAULT bit 2, the rest 0 (R26). -/
def Status.word (t : Status) : Word :=
  (0 : BitVec 61) ++ BitVec.ofBool t.fault ++ BitVec.ofBool t.halted ++ BitVec.ofBool t.run

/-- CTRL.CLRF (R27): clears the fault record if RUN = 0. -/
def State.ctrlClrf (s : State) : State := if s.status.run then s else s.clearFault

/-- CTRL.START (R27): runs from the current `pc` if RUN = 0 and FAULT = 0; no command has been executed in the new run. -/
def State.ctrlStart (s : State) : State :=
  if s.status.run || s.status.fault then s
  else { s with status := { s.status with run := true, halted := false }, lastCommand := none }

/-- A write to CTRL (R27): SRST (bit 2) and nothing else if set, else CLRF (bit 1), then START (bit 0). -/
def State.writeCtrl (s : State) (data : Word) : State :=
  if data.getLsbD 2 then s.doReset
  else
    let cleared := if data.getLsbD 1 then s.ctrlClrf else s
    if data.getLsbD 0 then cleared.ctrlStart else cleared

/-- The register a space 0 address from 0x10 to 0x1F names (R33). -/
def hostRegister? (addr : Word) : Option Reg :=
  if addr.extractLsb' 4 60 = 1 then some (addr.extractLsb' 0 4).toFin else none

/-- A write to space 0 (R26 to R33, R46): CTRL always; PC and the registers while RUN = 0; all else discarded. -/
def State.writeControl (s : State) (addr data : Word) : State :=
  if addr = 1 then s.writeCtrl data
  else if s.status.run then s
  else if addr = 3 then { s with pc := data }
  else
    match hostRegister? addr with
    | some r => s.setReg r data
    | none => s

/-- A read of PC while RUN = 1 (R28): the address of the command about to be fetched or, where this run has executed
one, of the last command executed, by a free choice (assumption 8). Right after START no command is in execution and
the answer is `pc`. That an address is read, and not 0 as R237 words it, is the model's choice (assumption 24). -/
def State.readPcRunning (s : State) : Word × State :=
  (if Config.pcReadShowsExecuting s.freeCount then s.lastCommand.getD s.pc else s.pc,
    { s with freeCount := s.freeCount + 1 })

/-- A read of space 0 (R26 to R33, R46): the registers read 0 while RUN = 1; CTRL and reserved addresses read 0. DESIGN
CHOICE: PC reads as an address while RUN = 1, as R28, R46, R241 and U4 say, where R237, D11 and U20 list `pc` among what
then reads 0 (assumption 24). -/
def State.readControl (s : State) (addr : Word) : Word × State :=
  if addr = 0 then (idWord, s)
  else if addr = 2 then (s.status.word, s)
  else if addr = 3 then (if s.status.run then s.readPcRunning else (s.pc, s))
  else if addr = 4 then (s.cause, s)
  else if addr = 5 then (s.epc, s)
  else if addr = 6 then (s.finfo, s)
  else
    match hostRegister? addr with
    | some r => (if s.status.run then 0 else s.reg r, s)
    | none => (0, s)

/-! ### The two operations of the port -/

/-- `host_read(space, addr)` (R36, R46): `C` and `M` read 0 while RUN = 1 and at or beyond their size; space 3 reads
0. The state changes only in the model's count of free values. -/
def hostRead (s : State) (space : BitVec 2) (addr : Word) : Word × State :=
  if space = 0 then s.readControl addr
  else if space = 1 then
    (if s.status.run || decide (s.cfg.cmdWords ≤ addr.toNat) then 0 else s.command addr.toNat, s)
  else if space = 2 then
    (if s.status.run || decide (s.cfg.memWords ≤ addr.toNat) then 0 else s.data addr.toNat, s)
  else (0, s)

/-- `host_write(space, addr, data)` (R36, R46): `C` and `M` only while RUN = 0 and inside their size; space 3 is
discarded. -/
def hostWrite (s : State) (space : BitVec 2) (addr data : Word) : State :=
  if space = 0 then s.writeControl addr data
  else if space = 1 then
    if s.status.run || decide (s.cfg.cmdWords ≤ addr.toNat) then s
    else { s with cmdMem := s.cmdMem.set addr.toNat data }
  else if space = 2 then
    if s.status.run || decide (s.cfg.memWords ≤ addr.toNat) then s
    else s.setData addr.toNat [data]
  else s

/-- The input signals of one transaction (R241): `h_we`, `h_space`, `h_addr`, `h_wdata`. -/
structure HostRequest where
  we : Bool
  space : BitVec 2
  addr : Word
  wdata : Word
  deriving DecidableEq, Repr

/-- One host transaction (R241): a read answers `h_rdata`, a write answers no data. -/
def hostTransaction (s : State) (q : HostRequest) : Option Word × State :=
  if q.we then (none, hostWrite s q.space q.addr q.wdata)
  else (some (hostRead s q.space q.addr).1, (hostRead s q.space q.addr).2)

/-! ### Outputs (R218) -/

/-- The output `run`. -/
def State.runOutput (s : State) : Bool := s.status.run

/-- The output `halted`. -/
def State.haltedOutput (s : State) : Bool := s.status.halted

/-- The output `fault`. -/
def State.faultOutput (s : State) : Bool := s.status.fault

/-! ### Everything that can happen to the block -/

/-- One event: a sequencer step, a host transaction between two steps, or the reset input. -/
inductive Event
  | step
  | host (q : HostRequest)
  | rst
  deriving DecidableEq, Repr

/-- The state after one event. -/
def State.onEvent (s : State) : Event → Result
  | .step => Machine.step s
  | .host q => .next (hostTransaction s q).2
  | .rst => .next s.doReset

/-- The state after a sequence of events, the first fault or refusal stopping it (the model has none, assumption
14). -/
def State.onEvents (s : State) : List Event → Result
  | [] => .next s
  | e :: rest =>
    match s.onEvent e with
    | .next t => t.onEvents rest
    | .fault r => .fault r
    | .refused r => .refused r

end Sys2Proof.Machine
end

