-- ==== Sys2Proof/Safety.lean ====
section
/-! DEFINITION. What a good state and a good run are, and the shapes of a completed and of a faulted command, in the
terms the claims use. -/

namespace Sys2Proof.Machine

open Sys2Proof

/-! ### The invariant -/

/-- At most one of RUN, HALTED and FAULT is 1 (10_state.md R26). -/
def Status.AtMostOne (t : Status) : Prop :=
  ¬(t.run = true ∧ t.halted = true) ∧ ¬(t.run = true ∧ t.fault = true) ∧ ¬(t.halted = true ∧ t.fault = true)

/-- CAUSE holds one of the codes 1 to 9 while FAULT is 1 (R29), and with FAULT = 0 the whole fault record is 0: a fault
sets FAULT and the three together (R210), and CLRF and reset clear the four together (R27, R40). -/
def State.FaultRecordOk (s : State) : Prop :=
  (s.status.fault = true → 1 ≤ s.cause.toNat ∧ s.cause.toNat ≤ 9)
    ∧ (s.status.fault = false → s.cause = 0 ∧ s.epc = 0 ∧ s.finfo = 0)

/-- The two stores are in canonical form and list only addresses that exist (R34, R35). -/
def State.StoresOk (s : State) : Prop :=
  s.dataMem.wf ∧ s.dataMem.within s.cfg.memWords ∧ s.cmdMem.wf ∧ s.cmdMem.within s.cfg.cmdWords

/-- In a run, the command last executed is a command of `C`, and the one before the command about to be fetched (R24,
R28). -/
def State.LastCommandOk (s : State) : Prop :=
  s.status.run = true → ∀ a, s.lastCommand = some a → s.pc = a + 1 ∧ a.toNat < s.cfg.cmdWords

/-- The invariant of the block. -/
def State.Inv (s : State) : Prop := s.status.AtMostOne ∧ s.FaultRecordOk ∧ s.StoresOk ∧ s.LastCommandOk

/-! ### Conditions on operands -/

/-- An array lies inside `M` (20_memory.md R55): `a + n ≤ MEM_WORDS`. -/
abbrev ArrayOperand.Fits (a : ArrayOperand) (s : State) : Prop := a.base.toNat + a.len ≤ s.cfg.memWords

/-- An address is one of an array's. -/
abbrev ArrayOperand.Holds (a : ArrayOperand) (b : Nat) : Prop := a.base.toNat ≤ b ∧ b < a.base.toNat + a.len

/-- Two ranges are disjoint (R57): `a + n ≤ b` or `b + k ≤ a`. -/
abbrev ArrayOperand.Apart (a b : ArrayOperand) : Prop :=
  a.base.toNat + a.len ≤ b.base.toNat ∨ b.base.toNat + b.len ≤ a.base.toNat

/-- The same-base class (R57): of one base, or disjoint. -/
abbrev ArrayOperand.InPlaceOrApart (dst src : ArrayOperand) : Prop := dst.base = src.base ∨ dst.Apart src

/-- Every word of an array is below a bound (R58). -/
abbrev State.WordsBelow (s : State) (bound : Nat) (a : ArrayOperand) : Prop :=
  ∀ i < a.len, (s.data (a.base.toNat + i)).toNat < bound

/-- The word at `addr` is the first of the array that is not below the bound (R58). -/
def State.FirstBad (s : State) (bound : Nat) (a : ArrayOperand) (addr : Nat) : Prop :=
  ∃ k < a.len, addr = a.base.toNat + k ∧ (∀ i < k, (s.data (a.base.toNat + i)).toNat < bound)
    ∧ ¬(s.data addr).toNat < bound

/-! ### What a command leaves -/

/-- `t` is `s` after a command that completed (R59, R24): `pc` is one more, and nothing has changed but the listed
destination registers and the words of the listed destination arrays. -/
structure State.Completes (s t : State) (dstRegs : List Reg) (dstArrays : List ArrayOperand) : Prop where
  pc : t.pc = s.pc + 1
  regs : ∀ r, r ∉ dstRegs → t.reg r = s.reg r
  data : ∀ b, (∀ a ∈ dstArrays, ¬a.Holds b) → t.data b = s.data b
  commands : ∀ b, t.command b = s.command b
  status : t.status = s.status
  cause : t.cause = s.cause
  epc : t.epc = s.epc
  finfo : t.finfo = s.finfo
  cfg : t.cfg = s.cfg

/-- `s` after fault entry (60_exceptions.md R210), for every fault but ALLOC: CAUSE, EPC, FINFO recorded, FAULT set, RUN
cleared, all else unchanged. -/
def State.faulted (s : State) (cause : Cause) (info : Word) : State :=
  { s with
    cause := cause.code
    epc := s.pc
    finfo := info
    status := { s.status with fault := true, run := false } }

/-- `t` is `s` after an ALLOC fault (R207, R210): as `faulted`, but that the words of the listed destination arrays may
hold anything. -/
structure State.AllocFaulted (s t : State) (dstArrays : List ArrayOperand) : Prop where
  cause : t.cause = 9
  epc : t.epc = s.pc
  finfo : t.finfo = 0
  status : t.status = { s.status with fault := true, run := false }
  pc : t.pc = s.pc
  regs : ∀ r, t.reg r = s.reg r
  data : ∀ b, (∀ a ∈ dstArrays, ¬a.Holds b) → t.data b = s.data b
  commands : ∀ b, t.command b = s.command b
  cfg : t.cfg = s.cfg

/-! ### A rule of files 40 to 47, as its pseudocode reads -/

/-- One line of checks of a command's pseudocode. -/
inductive RuleCheck
  /-- "if not ok: raise cause(info)". -/
  | unless (ok : Prop) [dec : Decidable ok] (cause : Cause) (info : Word)
  /-- "check radix words of a" (bound `RADIX`), or "check residues of a against p" (bound `p`): BADWORD (R58). -/
  | words (bound : Nat) (a : ArrayOperand)
  /-- "if scratch_need(user, lengths) > SCRATCH_WORDS: raise ALLOC(0)", the destination arrays being `dsts` (R207). -/
  | scratch (user : Config.ScratchUser) (lengths : List Nat) (dsts : List ArrayOperand)

/-- Command `i` in state `s` obeys its rule: taking the lines of checks in order, the first that fails is the fault it
takes, and when all pass it COMPLETES: `exec` answers a next state with what the rule says of it (`done`). -/
def State.Obeys (s : State) (i : Instr) (done : State → Prop) : List RuleCheck → Prop
  | [] => ∃ t, exec i s = .next t ∧ done t
  | @RuleCheck.unless ok _ cause info :: rest =>
    (¬ok → exec i s = .next (s.faulted cause info)) ∧ (ok → s.Obeys i done rest)
  | .words bound a :: rest =>
    (∀ addr, s.FirstBad bound a addr → exec i s = .next (s.faulted .badword (Word.ofNat addr)))
      ∧ (s.WordsBelow bound a → s.Obeys i done rest)
  | .scratch user lengths dsts :: rest =>
    (scratchShort s.cfg user lengths = true → ∃ t, exec i s = .next t ∧ s.AllocFaulted t dsts)
      ∧ (scratchShort s.cfg user lengths = false → s.Obeys i done rest)

/-- The rule of a command: its lines of checks, and what it leaves when they pass. -/
structure Rule where
  checks : List RuleCheck
  done : State → Prop

/-- Command `i` in state `s` obeys a rule. -/
def State.ObeysRule (s : State) (i : Instr) (r : Rule) : Prop := s.Obeys i r.done r.checks

/-- "range check" of a rule's arrays, in its order (R55). -/
def State.rangeChecks (s : State) (l : List ArrayOperand) : List RuleCheck :=
  l.map fun a => .unless (a.Fits s) .addr a.base

/-- "overlap same-base: dst against src" (R57). -/
def sameBaseCheck (dst src : ArrayOperand) : RuleCheck := .unless (dst.InPlaceOrApart src) .overlap dst.base

/-- "overlap strict: dst against other" (R57). -/
def strictCheck (dst other : ArrayOperand) : RuleCheck := .unless (dst.Apart other) .overlap dst.base

/-! ### The write set of a command (R59) -/

/-- The destination registers a command's rule names (R76, columns marked W). -/
def destinationRegisters : Instr → List Reg
  | .li rd _ | .lih rd _ | .mov rd _ | .ldw rd _ _ => [rd]
  | .add rd _ _ _ _ _ | .sub rd _ _ _ _ _ | .sadd rd _ _ _ _ | .smul rd _ _ _ _ => [rd]
  | .mulw rd ra _ _ | .divw rd ra _ _ _ | .mulmod2 rd ra _ _ _ _ _ | .mulmod2c rd ra _ _ _ _ => [rd, ra]
  | .sdiv rd _ _ _ _ | .bdivmod rd _ _ _ _ _ _ | .shr10 rd _ _ _ _ => [rd]
  | .addmod rd _ _ _ | .submod rd _ _ _ | .mulmod rd _ _ _ | .mulmodp rd _ _ _ | .powmod rd _ _ _ | .redp rd _ _ _ => [rd]
  | .nttlen rd _ | .crt3 rd _ _ _ _ _ => [rd]
  | .halt | .nop | .stw _ _ _ | .bmul _ _ _ _ _ | .shl10 _ _ _ _ _ => []
  | .nttstg _ _ _ _ _ | .nttrev _ _ | .nttfwd _ _ _ | .nttinv _ _ _ | .nttconv _ _ _ _ | .nttaconv _ _ _ => []
  | .kmul _ _ _ _ _ | .kmuln _ _ _ _ _ | .nmul _ _ _ _ _ => []

/-- The destination arrays a command's rule names, in the state it starts in. Both arrays of NTTCONV, which its rule
writes, are counted (assumption 23). -/
def State.destinationArrays (s : State) : Instr → List ArrayOperand
  | .stw _ ra imm => [⟨s.reg ra + imm.signExtend 64, 1⟩]
  | .add _ ra _ _ re _ | .sub _ ra _ _ re _ | .sadd _ ra _ _ re | .smul _ ra _ _ re => [⟨s.reg ra, (s.reg re).toNat⟩]
  | .shl10 ra _ _ re _ | .sdiv _ ra _ _ re | .shr10 _ ra _ _ re => [⟨s.reg ra, (s.reg re).toNat⟩]
  | .bmul ra _ _ re rf | .kmul ra _ _ re rf | .kmuln ra _ _ re rf | .nmul ra _ _ re rf =>
    [⟨s.reg ra, (s.reg re).toNat + (s.reg rf).toNat⟩]
  | .bdivmod _ ra rb _ _ rf rg =>
    [⟨s.reg ra, (s.reg rf).toNat - (s.reg rg).toNat + 1⟩, ⟨s.reg rb, (s.reg rg).toNat⟩]
  | .nttstg ra re _ _ _ | .nttrev ra re | .nttfwd ra re _ | .nttinv ra re _ | .nttaconv ra re _ =>
    [⟨s.reg ra, (s.reg re).toNat⟩]
  | .nttconv ra rb re _ => [⟨s.reg ra, (s.reg re).toNat⟩, ⟨s.reg rb, (s.reg re).toNat⟩]
  | .crt3 _ ra _ _ _ rf => [⟨s.reg ra, (s.reg rf).toNat⟩]
  | .halt | .nop | .li _ _ | .lih _ _ | .mov _ _ | .ldw _ _ _ => []
  | .mulw _ _ _ _ | .divw _ _ _ _ _ | .addmod _ _ _ _ | .submod _ _ _ _ | .mulmod _ _ _ _ | .mulmodp _ _ _ _ => []
  | .mulmod2 _ _ _ _ _ _ _ | .mulmod2c _ _ _ _ _ _ | .powmod _ _ _ _ | .redp _ _ _ _ | .nttlen _ _ => []

/-! ### The terms of files 45 and 46 as mathematics -/

/-- Element `i` of an array, as an integer. -/
def State.element (s : State) (a : ArrayOperand) (i : Nat) : Nat := (s.data (a.base.toNat + i)).toNat

end Sys2Proof.Machine

namespace Sys2Proof

/-- `ω(n, pi) = g^((p−1) div n) mod p` (45_ntt.md R153). -/
def Config.omega (c : Config) (pi : BitVec 2) (n : Nat) : Nat :=
  c.root pi ^ ((c.prime pi - 1) / n) % c.prime pi

/-- `ω^(−1) mod p = g^((p−1) − (p−1) div n) mod p` (R153). -/
def Config.omegaInv (c : Config) (pi : BitVec 2) (n : Nat) : Nat :=
  c.root pi ^ ((c.prime pi - 1) - (c.prime pi - 1) / n) % c.prime pi

/-- Element `k` of `DFT(a, r)` modulo `p` (R155): `( Σ_{j<n} a[j] · r^(j·k) ) mod p`. -/
def dftAt (p r n : Nat) (a : Nat → Nat) (k : Nat) : Nat :=
  (∑ j ∈ Finset.range n, a j * r ^ (j * k)) % p

/-- A valid transform length (R151). -/
abbrev Config.ValidLength (c : Config) (n : Nat) : Prop :=
  ∃ k ∈ List.range (c.maxNttLog2 + 1), n = 2 ^ k ∨ n = 3 * 2 ^ k

/-- Some member of the set `S` of R165 is at least `r`. -/
abbrev Config.HasLengthFrom (c : Config) (r : Nat) : Prop :=
  ∃ k ∈ List.range (c.maxNttLog2 + 1), r ≤ 2 ^ k ∨ r ≤ 3 * 2 ^ k

/-- A power of two `2^k`, `k ≤ MAX_NTT_LOG2` (R151). -/
abbrev Config.Pow2Length (c : Config) (n : Nat) : Prop := ∃ k ∈ List.range (c.maxNttLog2 + 1), n = 2 ^ k

end Sys2Proof
end

