-- ==== Sys2Proof/Certificates/Slice0/Obligations.lean ====
section
/-! DEFINITION. What is claimed of the model, for the provers. A statement about a command says its whole rule: the
`Rule` above it lists the pseudocode's checks in order, and `State.ObeysRule` (Safety.lean) says that the first check that
fails is the fault taken and that, when all pass, the command COMPLETES: `exec` answers a next state in which exactly
what the rule names has changed (`State.Completes`) and holds the values the rule gives. -/

section Statements

open Sys2Proof Sys2Proof.Machine

/-! ### Encoding (30_encoding.md) -/

/-- Words written out by hand from the fields of R71 and the rows of R76, at least one of each format and of each of the
eleven units, most of them the spec's own examples, decode to their commands. -/
def Obligations.Sample_words_decode : Prop :=
  decode 0x0100000000000000 = .ok .halt
    ∧ decode 0x0330000000000005 = .ok (.li 3 5)
    ∧ decode 0x043000008AC72304 = .ok (.lih 3 0x8AC72304)
    ∧ decode 0x0541000000000000 = .ok (.mov 4 1)
    ∧ decode 0x07120000FFFFFFFF = .ok (.stw 1 2 0xFFFFFFFF)
    ∧ decode 0x1012345600000000 = .ok (.add 1 2 3 4 5 6)
    ∧ decode 0x1A02345600000000 = .ok (.bmul 2 3 4 5 6)
    ∧ decode 0x2212345670000000 = .ok (.bdivmod 1 2 3 4 5 6 7)
    ∧ decode 0x2812340000000000 = .ok (.addmod 1 2 3 4)
    ∧ decode 0x3312345070000000 = .ok (.mulmod2c 1 2 3 4 5 7)
    ∧ decode 0x3812300000000002 = .ok (.redp 1 2 3 2)
    ∧ decode 0x4002005600000004 = .ok (.nttstg 2 5 6 0 true)
    ∧ decode 0x4802005000000001 = .ok (.nttfwd 2 5 1)
    ∧ decode 0x4901002000000000 = .ok (.nttinv 1 2 0)
    ∧ decode 0x5012345600000000 = .ok (.crt3 1 2 3 4 5 6)
    ∧ decode 0x5A02345600000000 = .ok (.nmul 2 3 4 5 6)

/-- Decoding an encoded well-formed command gives it back, every operand at every value its field admits. -/
def Obligations.Decode_of_encode : Prop :=
  ∀ i : Instr, i.WellFormed → decode (encode i) = .ok i

/-- R73: a legal command has exactly one encoding; the legal words are exactly those a row of spec/opcode_table.json
accepts by its mask and match, with `c[1:0]` not 3 where the row uses `pi`, and each decodes to a command of that row; any
other word, fetched for execution, raises `ILLEGAL(c)`. -/
def Obligations.Legal_words_are_the_table_words : Prop :=
  (∀ (c : Word) (i : Instr), decode c = .ok i → encode i = c)
    ∧ (∀ (c : Word) (i : Instr), decode c = .ok i → ∃ r ∈ opcodeTable, r.accepts c = true ∧ r.mnemonic = i.mnemonic)
    ∧ (∀ (c : Word), (∃ r ∈ opcodeTable, r.accepts c = true) → ∃ i, decode c = .ok i)
    ∧ (∀ s : State, s.status.run = true → s.pc.toNat < s.cfg.cmdWords →
        (∀ r ∈ opcodeTable, r.accepts (s.command s.pc.toNat) = false) →
        step s = .next (s.faulted .illegal (s.command s.pc.toNat)))

/-! ### The step (40_sequencer_moves.md R90) -/

/-- R90, R202, R203: while RUN = 1 a step raises FETCH beyond `C`, raises ILLEGAL for a word that is no command, and
else executes the command the word decodes to. -/
def Obligations.Step_runs_the_decoded_command : Prop :=
  ∀ s : State, s.status.run = true →
    (s.cfg.cmdWords ≤ s.pc.toNat → step s = .next (s.faulted .fetch s.pc))
      ∧ (s.pc.toNat < s.cfg.cmdWords →
          (∀ i, decode (s.command s.pc.toNat) = .ok i → step s = exec i s)
            ∧ ∀ e, decode (s.command s.pc.toNat) = .error e →
                step s = .next (s.faulted .illegal (s.command s.pc.toNat)))

/-- With RUN = 0 a step changes nothing (R223; that the model's step then answers the same state is log entry 9). -/
def Obligations.Stopped_block_holds_its_state : Prop :=
  ∀ s : State, s.status.run = false → step s = .next s

/-- The model's way to place a command (log entry 10): the next step runs exactly that command, in the placed state. -/
def Obligations.Placed_command_is_the_next_step : Prop :=
  ∀ (s : State) (i : Instr), i.WellFormed → 1 ≤ s.cfg.cmdWords →
    step (s.withFetchWord 64 (encode i).toNat) = exec i (s.withFetchWord 64 (encode i).toNat)

/-! ### Sequencer and move commands (40_sequencer_moves.md) -/

/-- R91: HALT clears RUN, sets HALTED, advances `pc` and changes nothing else of the block (`lastCommand` is the model's
own record, log entry 8). -/
def Obligations.Halt_stops_the_run : Prop :=
  ∀ s : State, ∃ last,
    exec .halt s =
      .next { s with
        status := { s.status with run := false, halted := true }, pc := s.pc + 1, lastCommand := last }

/-- R92, R93, R94, R97: NOP, LI, LIH and MOV. -/
def Obligations.Nop_li_lih_mov_write_their_register : Prop :=
  ∀ (s : State) (rd ra : Reg) (imm : BitVec 32),
    (∃ t, exec .nop s = .next t ∧ s.Completes t [] [])
      ∧ (∃ t, exec (.li rd imm) s = .next t ∧ s.Completes t [rd] [] ∧ (t.reg rd).toNat = imm.toNat)
      ∧ (∃ t, exec (.lih rd imm) s = .next t ∧ s.Completes t [rd] []
          ∧ (t.reg rd).toNat = imm.toNat * 2 ^ 32 + (s.reg rd).toNat % 2 ^ 32)
      ∧ ∃ t, exec (.mov rd ra) s = .next t ∧ s.Completes t [rd] [] ∧ t.reg rd = s.reg ra

/-- The rule of LDW (R96). -/
def Sys2Proof.Rules.ldw (s : State) (rd ra : Reg) (imm : BitVec 32) : Rule :=
  let ea := s.reg ra + imm.signExtend 64
  { checks := [.unless (ea.toNat < s.cfg.memWords) .addr ea]
    done := fun t => s.Completes t [rd] [] ∧ t.reg rd = s.data ea.toNat }

/-- The rule of STW (R98). -/
def Sys2Proof.Rules.stw (s : State) (rd ra : Reg) (imm : BitVec 32) : Rule :=
  let ea := s.reg ra + imm.signExtend 64
  { checks := [.unless (ea.toNat < s.cfg.memWords) .addr ea]
    done := fun t => s.Completes t [] [⟨ea, 1⟩] ∧ t.data ea.toNat = s.reg rd }

/-- LDW obeys R96 and STW obeys R98: the effective address is `x[ra]` plus the displacement as a signed number, modulo
`2^64`, and is what ADDR reports; LDW's register takes the word there, STW stores there and nowhere else. -/
def Obligations.Ldw_stw_obey_their_rules : Prop :=
  ∀ (s : State) (rd ra : Reg) (imm : BitVec 32),
    s.ObeysRule (.ldw rd ra imm) (Rules.ldw s rd ra imm)
      ∧ s.ObeysRule (.stw rd ra imm) (Rules.stw s rd ra imm)
      ∧ ((s.reg ra + imm.signExtend 64).toNat : Int) = ((s.reg ra).toNat + imm.toInt) % 2 ^ 64

/-! ### Unit 1 (41_word_adder_subtractor.md) -/

/-- The rule of ADD (R101). -/
def Sys2Proof.Rules.add (s : State) (rd ra rb rc re rf : Reg) : Rule :=
  let m := (s.reg re).toNat
  let n := (s.reg rf).toNat
  let w : ArrayOperand := ⟨s.reg ra, m⟩
  let u : ArrayOperand := ⟨s.reg rb, m⟩
  let v : ArrayOperand := ⟨s.reg rc, n⟩
  let sum := s.value u + s.value v
  { checks := .unless (n ≤ m ∧ 1 ≤ n) .len 0 :: s.rangeChecks [w, u, v] ++
      [sameBaseCheck w u, sameBaseCheck w v, .words RADIX u, .words RADIX v]
    done := fun t => s.Completes t [rd] [w]
      ∧ t.words w = digits (sum % RADIX ^ m) m
      ∧ (t.reg rd).toNat = sum / RADIX ^ m }

/-- The rule of SUB (R102). -/
def Sys2Proof.Rules.sub (s : State) (rd ra rb rc re rf : Reg) : Rule :=
  let m := (s.reg re).toNat
  let n := (s.reg rf).toNat
  let w : ArrayOperand := ⟨s.reg ra, m⟩
  let u : ArrayOperand := ⟨s.reg rb, m⟩
  let v : ArrayOperand := ⟨s.reg rc, n⟩
  let difference : Int := s.value u - s.value v
  { checks := .unless (n ≤ m ∧ 1 ≤ n) .len 0 :: s.rangeChecks [w, u, v] ++
      [sameBaseCheck w u, sameBaseCheck w v, .words RADIX u, .words RADIX v]
    done := fun t => s.Completes t [rd] [w]
      ∧ t.words w = digits (difference % (RADIX : Int) ^ m).toNat m
      ∧ (t.reg rd).toNat = if difference < 0 then 1 else 0 }

/-- The rule of SADD (R103). -/
def Sys2Proof.Rules.sadd (s : State) (rd ra rb rc re : Reg) : Rule :=
  let m := (s.reg re).toNat
  let w : ArrayOperand := ⟨s.reg ra, m⟩
  let u : ArrayOperand := ⟨s.reg rb, m⟩
  let v := s.reg rc
  let sum := s.value u + v.toNat
  { checks := .unless (1 ≤ m) .len 0 :: s.rangeChecks [w, u] ++
      [sameBaseCheck w u, .unless (v.toNat < RADIX) .range v, .words RADIX u]
    done := fun t => s.Completes t [rd] [w]
      ∧ t.words w = digits (sum % RADIX ^ m) m
      ∧ (t.reg rd).toNat = sum / RADIX ^ m }

/-- ADD obeys R101. -/
def Obligations.Add_obeys_its_rule : Prop :=
  ∀ (s : State) (rd ra rb rc re rf : Reg),
    s.ObeysRule (.add rd ra rb rc re rf) (Rules.add s rd ra rb rc re rf)

/-- SUB obeys R102. -/
def Obligations.Sub_obeys_its_rule : Prop :=
  ∀ (s : State) (rd ra rb rc re rf : Reg),
    s.ObeysRule (.sub rd ra rb rc re rf) (Rules.sub s rd ra rb rc re rf)

/-- SADD obeys R103. -/
def Obligations.Sadd_obeys_its_rule : Prop :=
  ∀ (s : State) (rd ra rb rc re : Reg),
    s.ObeysRule (.sadd rd ra rb rc re) (Rules.sadd s rd ra rb rc re)

/-- Radix notation (R10, R11): `val` is the sum of the words weighted by powers of `RADIX`; the words `digits` writes are
radix words that stand for the value modulo `RADIX^n`; and radix words are the digits of their value. -/
def Obligations.Radix_words_stand_for_their_value : Prop :=
  (∀ (s : State) (a : ArrayOperand), s.value a = ∑ i ∈ Finset.range a.len, s.element a i * RADIX ^ i)
    ∧ (∀ v n, value (digits v n) = v % RADIX ^ n ∧ ∀ d ∈ digits v n, d.toNat < RADIX)
    ∧ ∀ l : List Word, (∀ d ∈ l, d.toNat < RADIX) → digits (value l) l.length = l

/-- The laws of unit 1 (R104): ADD loses nothing, SUB is its inverse with the ADD's carry for borrow, and every result
word is a radix word. Here `w`, `x` are the results of ADD and of the following SUB of `v`, in registers that do not
disturb the operands; the SUB works in place on `w`. -/
def Obligations.Add_then_sub_gives_back_the_operand : Prop :=
  ∀ (s : State) (rd ra rb rc re rf : Reg),
    let m := (s.reg re).toNat
    let n := (s.reg rf).toNat
    let w : ArrayOperand := ⟨s.reg ra, m⟩
    let u : ArrayOperand := ⟨s.reg rb, m⟩
    let v : ArrayOperand := ⟨s.reg rc, n⟩
    1 ≤ n → n ≤ m → w.Fits s → u.Fits s → v.Fits s → w.InPlaceOrApart u → w.Apart v →
    s.WordsBelow RADIX u → s.WordsBelow RADIX v →
    rd ∉ [ra, rc, re, rf] →
    ∃ t x, exec (.add rd ra rb rc re rf) s = .next t
      ∧ s.value u + s.value v = t.value w + (t.reg rd).toNat * RADIX ^ m
      ∧ t.WordsBelow RADIX w
      ∧ exec (.sub rd ra ra rc re rf) t = .next x
      ∧ x.words w = s.words u
      ∧ x.reg rd = t.reg rd

/-! ### Unit 2 (42_word_multiplier.md) -/

/-- The rule of SMUL (R112). -/
def Sys2Proof.Rules.smul (s : State) (rd ra rb rc re : Reg) : Rule :=
  let n := (s.reg re).toNat
  let w : ArrayOperand := ⟨s.reg ra, n⟩
  let u : ArrayOperand := ⟨s.reg rb, n⟩
  let v := s.reg rc
  let product := s.value u * v.toNat
  { checks := .unless (1 ≤ n) .len 0 :: s.rangeChecks [w, u] ++
      [sameBaseCheck w u, .unless (v.toNat < RADIX) .range v, .words RADIX u]
    done := fun t => s.Completes t [rd] [w]
      ∧ t.words w = digits (product % RADIX ^ n) n
      ∧ (t.reg rd).toNat = product / RADIX ^ n
      ∧ (t.reg rd).toNat ≤ RADIX - 2 }

/-- The lines of checks of an array product after its length checks (R113, R190). -/
def Sys2Proof.Rules.productChecks (s : State) (w u v : ArrayOperand) : List RuleCheck :=
  s.rangeChecks [w, u, v] ++ [strictCheck w u, strictCheck w v, .words RADIX u, .words RADIX v]

/-- What an array product leaves (R113, R191, R193, R195). -/
def Sys2Proof.Rules.productDone (s : State) (w u v : ArrayOperand) (t : State) : Prop :=
  s.Completes t [] [w] ∧ t.words w = digits (s.value u * s.value v) w.len

/-- The rule of BMUL (R113). -/
def Sys2Proof.Rules.bmul (s : State) (ra rb rc re rf : Reg) : Rule :=
  let m := (s.reg re).toNat
  let n := (s.reg rf).toNat
  let w : ArrayOperand := ⟨s.reg ra, m + n⟩
  let u : ArrayOperand := ⟨s.reg rb, m⟩
  let v : ArrayOperand := ⟨s.reg rc, n⟩
  { checks := .unless (1 ≤ m ∧ 1 ≤ n) .len 0 :: Rules.productChecks s w u v
    done := Rules.productDone s w u v }

/-- The rule of SHL10 (R114). -/
def Sys2Proof.Rules.shl10 (s : State) (ra rb rc re rf : Reg) : Rule :=
  let n := (s.reg re).toNat
  let m := (s.reg rf).toNat
  let w : ArrayOperand := ⟨s.reg ra, n⟩
  let u : ArrayOperand := ⟨s.reg rb, m⟩
  let shift := (s.reg rc).toNat
  { checks := .unless (m ≤ n ∧ 1 ≤ m) .len 0 :: s.rangeChecks [w, u] ++
      [sameBaseCheck w u, .words RADIX u,
        .unless (¬(s.value u ≠ 0 ∧ RADIX ^ n ≤ s.value u * 10 ^ shift)) .range (s.reg rc)]
    done := fun t => s.Completes t [] [w] ∧ t.words w = digits (s.value u * 10 ^ shift) n }

/-- MULW obeys R111: the 128-bit product of any two words; the low word is written first, so a register named twice
ends holding the high word. -/
def Obligations.Mulw_writes_the_double_word : Prop :=
  ∀ (s : State) (rd ra rb rc : Reg),
    ∃ t, exec (.mulw rd ra rb rc) s = .next t ∧ s.Completes t [rd, ra] []
      ∧ (t.reg rd).toNat = (s.reg rb).toNat * (s.reg rc).toNat / 2 ^ 64
      ∧ (ra ≠ rd → (t.reg ra).toNat = (s.reg rb).toNat * (s.reg rc).toNat % 2 ^ 64)

/-- SMUL obeys R112; its carry is a radix word, at most `RADIX − 2`. -/
def Obligations.Smul_obeys_its_rule : Prop :=
  ∀ (s : State) (rd ra rb rc re : Reg),
    s.ObeysRule (.smul rd ra rb rc re) (Rules.smul s rd ra rb rc re)

/-- BMUL obeys R113, and loses nothing: the words it writes stand for the exact product. -/
def Obligations.Bmul_obeys_its_rule : Prop :=
  ∀ (s : State) (ra rb rc re rf : Reg),
    s.ObeysRule (.bmul ra rb rc re rf) (Rules.bmul s ra rb rc re rf)
      ∧ ∀ u v : ArrayOperand, s.WordsBelow RADIX u → s.WordsBelow RADIX v →
          value (digits (s.value u * s.value v) (u.len + v.len)) = s.value u * s.value v

/-- SHL10 obeys R114: it raises RANGE exactly where `U · 10^s` does not fit, whatever the size of `s`. -/
def Obligations.Shl10_obeys_its_rule : Prop :=
  ∀ (s : State) (ra rb rc re rf : Reg),
    s.ObeysRule (.shl10 ra rb rc re rf) (Rules.shl10 s ra rb rc re rf)

/-! ### Unit 3 (43_word_divider_radix.md) -/

/-- The rule of DIVW (R121). The quotient is written second, so it remains in a register named twice. -/
def Sys2Proof.Rules.divw (s : State) (rd ra rb rc re : Reg) : Rule :=
  let hi := s.reg rb
  let d := (s.reg re).toNat
  let dividend := hi.toNat * 2 ^ 64 + (s.reg rc).toNat
  { checks := [.unless (d ≠ 0) .divzero 0, .unless (hi.toNat < d) .range hi]
    done := fun t => s.Completes t [rd, ra] []
      ∧ (t.reg rd).toNat = dividend / d
      ∧ (ra ≠ rd → (t.reg ra).toNat = dividend % d) }

/-- The rule of SDIV (R122). -/
def Sys2Proof.Rules.sdiv (s : State) (rd ra rb rc re : Reg) : Rule :=
  let n := (s.reg re).toNat
  let w : ArrayOperand := ⟨s.reg ra, n⟩
  let u : ArrayOperand := ⟨s.reg rb, n⟩
  let v := s.reg rc
  { checks := .unless (1 ≤ n) .len 0 :: s.rangeChecks [w, u] ++
      [sameBaseCheck w u, .unless (v ≠ 0) .divzero 0, .unless (v.toNat < RADIX) .range v, .words RADIX u]
    done := fun t => s.Completes t [rd] [w]
      ∧ t.words w = digits (s.value u / v.toNat) n
      ∧ (t.reg rd).toNat = s.value u % v.toNat }

/-- The rule of BDIVMOD (R123). -/
def Sys2Proof.Rules.bdivmod (s : State) (rd ra rb rc re rf rg : Reg) : Rule :=
  let nplusm := (s.reg rf).toNat
  let n := (s.reg rg).toNat
  let q : ArrayOperand := ⟨s.reg ra, nplusm - n + 1⟩
  let r : ArrayOperand := ⟨s.reg rb, n⟩
  let u : ArrayOperand := ⟨s.reg rc, nplusm⟩
  let v : ArrayOperand := ⟨s.reg re, n⟩
  { checks := .unless (1 ≤ n ∧ n ≤ nplusm) .len 0 :: s.rangeChecks [q, r, u, v] ++
      [strictCheck q r, strictCheck q u, strictCheck q v, strictCheck r u, strictCheck r v,
        .words RADIX u, .words RADIX v, .unless (s.value v ≠ 0) .divzero 0,
        .unless (s.element v (n - 1) ≠ 0) .range 0, .scratch .bdivmod [nplusm, n] [q, r]]
    done := fun t => s.Completes t [rd] [q, r]
      ∧ t.words q = digits (s.value u / s.value v) q.len
      ∧ t.words r = digits (s.value u % s.value v) n
      ∧ t.reg rd = if s.value u % s.value v ≠ 0 then 1 else 0 }

/-- The rounding indicator of SHR10, by the three branches of R125's pseudocode. -/
def Sys2Proof.Rules.rounding (u m shift : Nat) : Nat :=
  let lead := u % 10 ^ shift / 10 ^ (shift - 1)
  let rest := u % 10 ^ shift % 10 ^ (shift - 1)
  if shift = 0 then 0
  else if 19 * m < shift then (if u ≠ 0 then 1 else 0)
  else if (lead = 0 ∨ lead = 5) ∧ rest ≠ 0 then lead + 1 else lead

/-- The rule of SHR10 (R125). -/
def Sys2Proof.Rules.shr10 (s : State) (rd ra rb rc re : Reg) : Rule :=
  let m := (s.reg re).toNat
  let w : ArrayOperand := ⟨s.reg ra, m⟩
  let u : ArrayOperand := ⟨s.reg rb, m⟩
  let shift := (s.reg rc).toNat
  { checks := .unless (1 ≤ m) .len 0 :: s.rangeChecks [w, u] ++ [sameBaseCheck w u, .words RADIX u]
    done := fun t => s.Completes t [rd] [w]
      ∧ t.words w = digits (s.value u / 10 ^ shift) m
      ∧ (t.reg rd).toNat = Rules.rounding (s.value u) m shift }

/-- DIVW obeys R121. -/
def Obligations.Divw_obeys_its_rule : Prop :=
  ∀ (s : State) (rd ra rb rc re : Reg),
    s.ObeysRule (.divw rd ra rb rc re) (Rules.divw s rd ra rb rc re)

/-- SDIV obeys R122. -/
def Obligations.Sdiv_obeys_its_rule : Prop :=
  ∀ (s : State) (rd ra rb rc re : Reg),
    s.ObeysRule (.sdiv rd ra rb rc re) (Rules.sdiv s rd ra rb rc re)

/-- BDIVMOD obeys R123, and its law (R126): after it, quotient times divisor plus remainder is the dividend, and the
remainder is less than the divisor. -/
def Obligations.Bdivmod_obeys_its_rule : Prop :=
  ∀ (s : State) (rd ra rb rc re rf rg : Reg),
    s.ObeysRule (.bdivmod rd ra rb rc re rf rg) (Rules.bdivmod s rd ra rb rc re rf rg)
      ∧ ∀ u v : ArrayOperand, 1 ≤ v.len → v.len ≤ u.len → s.WordsBelow RADIX u → s.WordsBelow RADIX v →
          s.element v (v.len - 1) ≠ 0 →
          let q := digits (s.value u / s.value v) (u.len - v.len + 1)
          let r := digits (s.value u % s.value v) v.len
          value q * s.value v + value r = s.value u ∧ value r < s.value v

/-- SHR10 obeys R125. -/
def Obligations.Shr10_obeys_its_rule : Prop :=
  ∀ (s : State) (rd ra rb rc re : Reg),
    s.ObeysRule (.shr10 rd ra rb rc re) (Rules.shr10 s rd ra rb rc re)

/-- The classes of the rounding indicator (R125): with `D` the discarded part, 0 exactly when `D` is 0, 5 exactly when
`D` is half a unit of the last kept digit, 1 to 4 below half, 6 to 9 above; for every shift, the one beyond the array's
digits included. -/
def Obligations.Rounding_indicator_tells_the_class : Prop :=
  ∀ u m shift : Nat, u < RADIX ^ m → 1 ≤ shift →
    let d := u % 10 ^ shift
    let rnd := (roundingIndicator u shift m).toNat
    (rnd = 0 ↔ d = 0)
      ∧ (rnd = 5 ↔ d = 5 * 10 ^ (shift - 1))
      ∧ ((1 ≤ rnd ∧ rnd ≤ 4) ↔ (0 < d ∧ d < 5 * 10 ^ (shift - 1)))
      ∧ ((6 ≤ rnd ∧ rnd ≤ 9) ↔ 5 * 10 ^ (shift - 1) < d)

/-! ### Units 4, 5 and 6 (44_modular.md) -/

/-- The checks of R130: each of the residues below the modulus, in order. -/
def Sys2Proof.Rules.residueChecks (m : Nat) (l : List Word) : List RuleCheck :=
  l.map fun t => .unless (t.toNat < m) .range t

/-- The rule of a modular command with one destination (R131, R132, R133, R134, R139). -/
def Sys2Proof.Rules.residue (s : State) (rd : Reg) (m : Nat) (operands : List Word) (result : Nat) : Rule where
  checks := Rules.residueChecks m operands
  done t := s.Completes t [rd] [] ∧ (t.reg rd).toNat = result

/-- ADDMOD, SUBMOD and MULMOD obey R131, R132 and R133. -/
def Obligations.Addmod_submod_mulmod_obey_their_rules : Prop :=
  ∀ (s : State) (rd ra rb rc : Reg),
    let a := s.reg ra
    let b := s.reg rb
    let m := (s.reg rc).toNat
    s.ObeysRule (.addmod rd ra rb rc) (Rules.residue s rd m [a, b] ((a.toNat + b.toNat) % m))
      ∧ s.ObeysRule (.submod rd ra rb rc)
          (Rules.residue s rd m [a, b] (((a.toNat : Int) - b.toNat) % (m : Int)).toNat)
      ∧ s.ObeysRule (.mulmod rd ra rb rc) (Rules.residue s rd m [a, b] (a.toNat * b.toNat % m))

/-- MULMODP and REDP obey R134 and R139, for a prime that is a word (R6) and a legal prime index. -/
def Obligations.Mulmodp_redp_obey_their_rules : Prop :=
  ∀ (s : State) (rd ra rb : Reg) (pi : BitVec 2), pi ≠ 3 → s.cfg.prime pi < 2 ^ 64 →
    let a := s.reg ra
    let b := s.reg rb
    let p := s.cfg.prime pi
    s.ObeysRule (.mulmodp rd ra rb pi) (Rules.residue s rd p [a, b] (a.toNat * b.toNat % p))
      ∧ s.ObeysRule (.redp rd ra rb pi) (Rules.residue s rd p [a] ((a.toNat * 2 ^ 64 + b.toNat) % p))

/-- MULMOD2 and MULMOD2C obey R135 and R136: both products are of the operands at the start, `rd` is written first, so a
register named twice ends holding the second product. -/
def Obligations.Mulmod2_mulmod2c_obey_their_rules : Prop :=
  ∀ (s : State) (rd ra rb rc re rf rg : Reg),
    let m := (s.reg rg).toNat
    let product := fun x y : Reg => (s.reg x).toNat * (s.reg y).toNat % m
    s.ObeysRule (.mulmod2 rd ra rb rc re rf rg)
        { checks := Rules.residueChecks m [s.reg rb, s.reg rc, s.reg re, s.reg rf]
          done := fun t => s.Completes t [rd, ra] []
            ∧ (t.reg ra).toNat = product re rf ∧ (rd ≠ ra → (t.reg rd).toNat = product rb rc) }
      ∧ s.ObeysRule (.mulmod2c rd ra rb rc re rg)
        { checks := Rules.residueChecks m [s.reg rb, s.reg rc, s.reg re]
          done := fun t => s.Completes t [rd, ra] []
            ∧ (t.reg ra).toNat = product rc re ∧ (rd ≠ ra → (t.reg rd).toNat = product rb re) }

/-- POWMOD obeys R137: the square-and-multiply loop gives the power itself, for every 64-bit exponent. -/
def Obligations.Powmod_obeys_its_rule : Prop :=
  ∀ (s : State) (rd ra rb rc : Reg),
    let m := (s.reg rc).toNat
    s.ObeysRule (.powmod rd ra rb rc)
      { checks := [.unless (2 ≤ m) .range (s.reg rc), .unless ((s.reg ra).toNat < m) .range (s.reg ra)]
        done := fun t => s.Completes t [rd] []
          ∧ (t.reg rd).toNat = (s.reg ra).toNat ^ (s.reg rb).toNat % m }

/-- One result, two paths (R140, R139): MULMODP is MULMOD with `m = P[pi]`, faults included; and it is MULW into two
other registers followed by REDP of them. -/
def Obligations.Modular_multiplication_paths_agree : Prop :=
  ∀ (s : State) (rd ra rb rc : Reg) (pi : BitVec 2), pi ≠ 3 →
    ((s.reg rc).toNat = s.cfg.prime pi → exec (.mulmodp rd ra rb pi) s = exec (.mulmod rd ra rb rc) s)
      ∧ ∀ h l : Reg, h ≠ l → s.cfg.prime pi < 2 ^ 64 →
          (s.reg ra).toNat < s.cfg.prime pi → (s.reg rb).toNat < s.cfg.prime pi →
          ∃ t x y, exec (.mulmodp rd ra rb pi) s = .next t
            ∧ exec (.mulw h l ra rb) s = .next x ∧ exec (.redp rd h l pi) x = .next y
            ∧ y.reg rd = t.reg rd

/-- SUBMOD after ADDMOD (R141): `SUBMOD(ADDMOD(a, b), b) = a`, in registers that do not disturb `b` and the modulus. -/
def Obligations.Submod_undoes_addmod : Prop :=
  ∀ (s : State) (rd ra rb rc : Reg), rd ≠ rb → rd ≠ rc →
    (s.reg ra).toNat < (s.reg rc).toNat → (s.reg rb).toNat < (s.reg rc).toNat →
    ∃ t x, exec (.addmod rd ra rb rc) s = .next t ∧ exec (.submod rd rd rb rc) t = .next x
      ∧ x.reg rd = s.reg ra

/-! ### Units 7, 8 and 9 (45_ntt.md) -/

/-- The rule of NTTSTG (R152), for a legal prime index. The butterfly of block `q` and index `j` takes the elements
`q · B + j` and `q · B + j + half`. -/
def Sys2Proof.Rules.nttstg (s : State) (ra re rf : Reg) (pi : BitVec 2) (inv : Bool) : Rule :=
  let p := s.cfg.prime pi
  let n := (s.reg re).toNat
  let a : ArrayOperand := ⟨s.reg ra, n⟩
  let stage := (s.reg rf).toNat
  let r := if inv then s.cfg.omegaInv pi n else s.cfg.omega pi n
  let block := n / 2 ^ stage
  let half := block / 2
  { checks := .unless (2 ≤ n ∧ s.cfg.Pow2Length n) .len 0 :: s.rangeChecks [a] ++
      [.unless (stage < n.log2) .range (s.reg rf), .words p a]
    done := fun t => s.Completes t [] [a]
      ∧ ∀ q j, q * block < n → j < half →
          let u := s.element a (q * block + j)
          let v := s.element a (q * block + j + half)
          t.element a (q * block + j) = (u + v) % p
            ∧ t.element a (q * block + j + half)
                = (((u : Int) - v) % (p : Int)).toNat * r ^ (j * 2 ^ stage) % p }

/-- The rule of NTTREV (R154). `r` is `rev_k(i)`: the `k`-bit number whose bit `b` is bit `k − 1 − b` of `i`. -/
def Sys2Proof.Rules.nttrev (s : State) (ra re : Reg) : Rule :=
  let n := (s.reg re).toNat
  let a : ArrayOperand := ⟨s.reg ra, n⟩
  { checks := .unless (s.cfg.Pow2Length n) .len 0 :: s.rangeChecks [a]
    done := fun t => s.Completes t [] [a]
      ∧ ∀ k i r, n = 2 ^ k → i < n → r < n → (∀ b < k, r.testBit b = i.testBit (k - 1 - b)) →
          t.data (a.base.toNat + r) = s.data (a.base.toNat + i) }

/-- The rule of NTTFWD with root `ω`, and of NTTINV with root `ω^(−1)` (R156, R157), for a legal prime index. -/
def Sys2Proof.Rules.transform (s : State) (ra re : Reg) (pi : BitVec 2) (user : Config.ScratchUser)
    (root : Nat → Nat) : Rule :=
  let p := s.cfg.prime pi
  let n := (s.reg re).toNat
  let a : ArrayOperand := ⟨s.reg ra, n⟩
  { checks := .unless (s.cfg.ValidLength n) .len 0 :: s.rangeChecks [a] ++ [.words p a, .scratch user [n] [a]]
    done := fun t => s.Completes t [] [a] ∧ ∀ k < n, t.element a k = dftAt p (root n) n (s.element a) k }

/-- Element `k` of the pointwise products of R162: `( T1[k] · T2[k] · ninv ) mod p`. -/
def Sys2Proof.Rules.pointwise (p ninv : Nat) (t1 t2 : Nat → Nat) (k : Nat) : Nat := t1 k * t2 k * ninv % p

/-- The rule of NTTCONV (R162), for a legal prime index. -/
def Sys2Proof.Rules.nttconv (s : State) (ra rb re : Reg) (pi : BitVec 2) : Rule :=
  let p := s.cfg.prime pi
  let n := (s.reg re).toNat
  let c1 : ArrayOperand := ⟨s.reg ra, n⟩
  let c2 : ArrayOperand := ⟨s.reg rb, n⟩
  let t1 := dftAt p (s.cfg.omega pi n) n (s.element c1)
  let t2 := dftAt p (s.cfg.omega pi n) n (s.element c2)
  { checks := .unless (s.cfg.ValidLength n) .len 0 :: s.rangeChecks [c1, c2] ++
      [strictCheck c1 c2, .words p c1, .words p c2, .scratch .nttconv [n] [c1, c2]]
    done := fun t => s.Completes t [] [c1, c2]
      ∧ ∃ ninv < p, n * ninv % p = 1 ∧ ∀ k < n,
          t.element c1 k = dftAt p (s.cfg.omegaInv pi n) n (Rules.pointwise p ninv t1 t2) k
            ∧ t.element c2 k = t2 k }

/-- The rule of NTTACONV (R163), for a legal prime index. -/
def Sys2Proof.Rules.nttaconv (s : State) (ra re : Reg) (pi : BitVec 2) : Rule :=
  let p := s.cfg.prime pi
  let n := (s.reg re).toNat
  let c1 : ArrayOperand := ⟨s.reg ra, n⟩
  let t1 := dftAt p (s.cfg.omega pi n) n (s.element c1)
  { checks := .unless (s.cfg.ValidLength n) .len 0 :: s.rangeChecks [c1] ++
      [.words p c1, .scratch .nttaconv [n] [c1]]
    done := fun t => s.Completes t [] [c1]
      ∧ ∃ ninv < p, n * ninv % p = 1 ∧ ∀ k < n,
          t.element c1 k = dftAt p (s.cfg.omegaInv pi n) n (Rules.pointwise p ninv t1 t1) k }

/-- The rule of NTTLEN (R165): the smallest power of two from `rsize` up at or below the crossover, else the smallest
member of the set `S`. -/
def Sys2Proof.Rules.nttlen (s : State) (rd ra : Reg) : Rule :=
  let rsize := (s.reg ra).toNat
  { checks := [.unless (rsize ≠ 0) .len 0,
      .unless (rsize ≤ s.cfg.nttPow2Crossover ∨ s.cfg.HasLengthFrom rsize) .len 0]
    done := fun t => s.Completes t [rd] []
      ∧ rsize ≤ (t.reg rd).toNat
      ∧ (rsize ≤ s.cfg.nttPow2Crossover →
          (∃ k, (t.reg rd).toNat = 2 ^ k) ∧ ∀ k, rsize ≤ 2 ^ k → (t.reg rd).toNat ≤ 2 ^ k)
      ∧ (s.cfg.nttPow2Crossover < rsize →
          s.cfg.ValidLength (t.reg rd).toNat
            ∧ ∀ l, s.cfg.ValidLength l → rsize ≤ l → (t.reg rd).toNat ≤ l) }

/-- NTTSTG obeys R152, for a legal prime index and a prime that is a word (R6). -/
def Obligations.Nttstg_obeys_its_rule : Prop :=
  ∀ (s : State) (ra re rf : Reg) (pi : BitVec 2) (inv : Bool), pi ≠ 3 → s.cfg.prime pi < 2 ^ 64 →
    s.ObeysRule (.nttstg ra re rf pi inv) (Rules.nttstg s ra re rf pi inv)

/-- NTTREV obeys R154. -/
def Obligations.Nttrev_obeys_its_rule : Prop :=
  ∀ (s : State) (ra re : Reg), s.ObeysRule (.nttrev ra re) (Rules.nttrev s ra re)

/-- NTTFWD and NTTINV obey R156 and R157: element `k` is `( Σ_j a[j] · r^(j·k) ) mod p`, in natural order, for a legal
prime index and a prime that is a word (R6). -/
def Obligations.Nttfwd_nttinv_obey_their_rules : Prop :=
  ∀ (s : State) (ra re : Reg) (pi : BitVec 2), pi ≠ 3 → s.cfg.prime pi < 2 ^ 64 →
    s.ObeysRule (.nttfwd ra re pi) (Rules.transform s ra re pi .nttfwd (s.cfg.omega pi))
      ∧ s.ObeysRule (.nttinv ra re pi) (Rules.transform s ra re pi .nttinv (s.cfg.omegaInv pi))

/-- NTTCONV and NTTACONV obey R162 and R163, for a legal prime index and legal parameters (`Config.Legal`). An ALLOC fault
of NTTCONV may leave anything in either array; that `c2` is one of those R207 leaves unspecified is the model's choice
(log entry 23). -/
def Obligations.Nttconv_nttaconv_obey_their_rules : Prop :=
  ∀ (s : State) (ra rb re : Reg) (pi : BitVec 2), pi ≠ 3 → s.cfg.Legal →
    s.ObeysRule (.nttconv ra rb re pi) (Rules.nttconv s ra rb re pi)
      ∧ s.ObeysRule (.nttaconv ra re pi) (Rules.nttaconv s ra re pi)

/-- NTTLEN obeys R165, where the lengths it may select are words (which R6 and R7 give for the set `S`, and log entry 17
asks of the crossover). -/
def Obligations.Nttlen_obeys_its_rule : Prop :=
  ∀ (s : State) (rd ra : Reg), s.cfg.nttPow2Crossover ≤ 2 ^ 63 → 3 * 2 ^ s.cfg.maxNttLog2 < 2 ^ 64 →
    s.ObeysRule (.nttlen rd ra) (Rules.nttlen s rd ra)

/-- NTTINV after NTTFWD, and NTTFWD after NTTINV, multiply every element by `n` modulo `p` (R157, R167), on every array
of every valid length, for legal parameters (`Config.Legal`). -/
def Obligations.Inverse_transform_multiplies_by_the_length : Prop :=
  ∀ (s : State) (ra re : Reg) (pi : BitVec 2), pi ≠ 3 → s.cfg.Legal →
    let n := (s.reg re).toNat
    let a : ArrayOperand := ⟨s.reg ra, n⟩
    s.cfg.ValidLength n → a.Fits s → s.WordsBelow (s.cfg.prime pi) a →
    scratchShort s.cfg .nttfwd [n] = false → scratchShort s.cfg .nttinv [n] = false →
    (∃ t x, exec (.nttfwd ra re pi) s = .next t ∧ exec (.nttinv ra re pi) t = .next x
        ∧ ∀ j < n, x.element a j = n * s.element a j % s.cfg.prime pi)
      ∧ ∃ t x, exec (.nttinv ra re pi) s = .next t ∧ exec (.nttfwd ra re pi) t = .next x
        ∧ ∀ j < n, x.element a j = n * s.element a j % s.cfg.prime pi

/-- NTTSTG for each stage of a list in order, the stage index written to `rf` before each. -/
def Sys2Proof.Rules.stages (ra re rf : Reg) (pi : BitVec 2) (inv : Bool) : List Nat → State → Result
  | [], s => .next s
  | stage :: rest, s =>
    match exec (.nttstg ra re rf pi inv) (s.setReg rf (Word.ofNat stage)) with
    | .next t => Rules.stages ra re rf pi inv rest t
    | .fault f => .fault f
    | .refused r => .refused r

/-- The fast transform (R156, R157): for `n = 2^k`, NTTSTG for the stages `0, 1, …, k − 1` and then NTTREV write the same
words as NTTFWD (`inv = 0`) and NTTINV (`inv = 1`), each where it has its scratch, for legal parameters (`Config.Legal`). -/
def Obligations.Stages_and_reversal_are_the_transform : Prop :=
  ∀ (s : State) (ra re rf : Reg) (pi : BitVec 2) (k : Nat), pi ≠ 3 → s.cfg.Legal → rf ≠ ra → rf ≠ re →
    (s.reg re).toNat = 2 ^ k → 1 ≤ k → k ≤ s.cfg.maxNttLog2 →
    let n := (s.reg re).toNat
    let a : ArrayOperand := ⟨s.reg ra, n⟩
    a.Fits s → s.WordsBelow (s.cfg.prime pi) a →
    (scratchShort s.cfg .nttfwd [n] = false →
      ∃ t x y, Rules.stages ra re rf pi false (List.range k) s = .next t ∧ exec (.nttrev ra re) t = .next x
        ∧ exec (.nttfwd ra re pi) s = .next y ∧ x.words a = y.words a)
      ∧ (scratchShort s.cfg .nttinv [n] = false →
        ∃ t x y, Rules.stages ra re rf pi true (List.range k) s = .next t ∧ exec (.nttrev ra re) t = .next x
          ∧ exec (.nttinv ra re pi) s = .next y ∧ x.words a = y.words a)

/-- Element `k` of the cyclic convolution of two arrays of `n` elements modulo `p` (R162). -/
def Sys2Proof.Rules.cyclic (p n : Nat) (x y : Nat → Nat) (k : Nat) : Nat :=
  (∑ i ∈ Finset.range n, ∑ j ∈ Finset.range n, if (i + j) % n = k then x i * y j else 0) % p

/-- The convolution theorem (R162, R163): NTTCONV leaves in `c1` the cyclic convolution of its two arrays modulo `p`, and
NTTACONV that of its array with itself, whatever else `M` has room for, for legal parameters (`Config.Legal`). -/
def Obligations.Nttconv_is_the_cyclic_convolution : Prop :=
  ∀ (s : State) (ra re : Reg) (pi : BitVec 2), pi ≠ 3 → s.cfg.Legal →
    let p := s.cfg.prime pi
    let n := (s.reg re).toNat
    let c1 : ArrayOperand := ⟨s.reg ra, n⟩
    s.cfg.ValidLength n → c1.Fits s → s.WordsBelow p c1 →
    (∀ rb : Reg,
      let c2 : ArrayOperand := ⟨s.reg rb, n⟩
      c2.Fits s → c1.Apart c2 → s.WordsBelow p c2 → scratchShort s.cfg .nttconv [n] = false →
      ∃ t, exec (.nttconv ra rb re pi) s = .next t
        ∧ ∀ k < n, t.element c1 k = Rules.cyclic p n (s.element c1) (s.element c2) k)
      ∧ (scratchShort s.cfg .nttaconv [n] = false →
        ∃ t, exec (.nttaconv ra re pi) s = .next t
          ∧ ∀ k < n, t.element c1 k = Rules.cyclic p n (s.element c1) (s.element c1) k)

/-! ### Unit 10 (46_crt.md) -/

/-- The rule of CRT3 (R181): `z i` is the integer of R180 for position `i`, and `carry` is the running value of the
loop. -/
def Sys2Proof.Rules.crt3 (s : State) (rd ra rb rc re rf : Reg) : Rule :=
  let n := (s.reg rf).toNat
  let w : ArrayOperand := ⟨s.reg ra, n⟩
  let r1 : ArrayOperand := ⟨s.reg rb, n⟩
  let r2 : ArrayOperand := ⟨s.reg rc, n⟩
  let r3 : ArrayOperand := ⟨s.reg re, n⟩
  let c := s.cfg
  { checks := .unless (1 ≤ n) .len 0 :: s.rangeChecks [w, r1, r2, r3] ++
      [sameBaseCheck w r1, strictCheck w r2, strictCheck w r3,
        .words c.p1 r1, .words c.p2 r2, .words c.p3 r3]
    done := fun t => s.Completes t [rd] [w]
      ∧ ∃ z carry : Nat → Nat, carry 0 = 0
        ∧ (∀ i < n, z i < c.p1 * c.p2 * c.p3
            ∧ z i % c.p1 = s.element r1 i ∧ z i % c.p2 = s.element r2 i ∧ z i % c.p3 = s.element r3 i
            ∧ t.element w i = (carry i + z i) % RADIX ∧ carry (i + 1) = (carry i + z i) / RADIX)
        ∧ t.reg rd = if carry n ≠ 0 then 1 else 0 }

/-- CRT3 obeys R181, for any three different 64-bit primes (R6). -/
def Obligations.Crt3_obeys_its_rule : Prop :=
  ∀ (s : State) (rd ra rb rc re rf : Reg), s.cfg.CrtPrimes →
    s.ObeysRule (.crt3 rd ra rb rc re rf) (Rules.crt3 s rd ra rb rc re rf)

/-- R180: the Chinese remainder of three residues is the one integer below `P1 · P2 · P3` with those residues, for any
three different 64-bit primes (R6). -/
def Obligations.Crt_is_the_one_integer_with_the_residues : Prop :=
  ∀ (c : Config) (a1 a2 a3 : Nat), c.CrtPrimes → a1 < c.p1 → a2 < c.p2 → a3 < c.p3 →
    ∀ z, (z < c.p1 * c.p2 * c.p3 ∧ z % c.p1 = a1 ∧ z % c.p2 = a2 ∧ z % c.p3 = a3) ↔ z = crt c a1 a2 a3

/-- What the words of CRT3 stand for (R181): the number `Σ z_i · RADIX^i`, of which the `n` words hold the part modulo
`RADIX^n` and the indicator tells whether more is left. -/
def Obligations.Crt_words_stand_for_the_sum : Prop :=
  ∀ z : List Nat,
    let sum := ∑ i ∈ Finset.range z.length, z.getD i 0 * RADIX ^ i
    value (crtCarry 0 z).1 = sum % RADIX ^ z.length
      ∧ (∀ d ∈ (crtCarry 0 z).1, d.toNat < RADIX)
      ∧ (presentFlag (crtCarry 0 z).2 = 1 ↔ RADIX ^ z.length ≤ sum)

/-- The carry bound (R183), with the primes of R6: before every iteration the running value is at most `cmax`, so that
with the next coefficient added it is below `2^192`. -/
def Obligations.Crt_carry_stays_within_three_words : Prop :=
  ∀ (before : List Nat) (z : Nat),
    let pp := Config.default.p1 * Config.default.p2 * Config.default.p3
    (∀ x ∈ before, x < pp) → z < pp →
    (crtCarry 0 before).2 ≤ 627710135393475385904124401220046371710 ∧ (crtCarry 0 before).2 + z < 2 ^ 192

/-! ### Unit 11 (47_karatsuba.md) -/

/-- The rule of KMUL (R191) and, with its own name for the scratch it needs, of KMULN (R193). -/
def Sys2Proof.Rules.kmul (s : State) (user : Config.ScratchUser) (ra rb rc re rf : Reg) : Rule :=
  let la := (s.reg re).toNat
  let lb := (s.reg rf).toNat
  let w : ArrayOperand := ⟨s.reg ra, la + lb⟩
  let u : ArrayOperand := ⟨s.reg rb, la⟩
  let v : ArrayOperand := ⟨s.reg rc, lb⟩
  { checks := .unless (1 ≤ la ∧ 1 ≤ lb) .len 0 :: Rules.productChecks s w u v ++ [.scratch user [la, lb] [w]]
    done := Rules.productDone s w u v }

/-- The rule of NMUL (R195). -/
def Sys2Proof.Rules.nmul (s : State) (ra rb rc re rf : Reg) : Rule :=
  let la := (s.reg re).toNat
  let lb := (s.reg rf).toNat
  let w : ArrayOperand := ⟨s.reg ra, la + lb⟩
  let u : ArrayOperand := ⟨s.reg rb, la⟩
  let v : ArrayOperand := ⟨s.reg rc, lb⟩
  { checks := .unless (1 ≤ la ∧ 1 ≤ lb) .len 0 :: .unless (la + lb ≤ 3 * 2 ^ s.cfg.maxNttLog2) .len 0 ::
      Rules.productChecks s w u v ++ [.scratch .nmul [la, lb] [w]]
    done := Rules.productDone s w u v }

/-- KMUL, KMULN and NMUL obey R191, R193 and R195; operands at or below `KARATSUBA_BASECASE` words need no scratch in
KMUL. -/
def Obligations.Kmul_kmuln_nmul_obey_their_rules : Prop :=
  ∀ (s : State) (ra rb rc re rf : Reg),
    s.ObeysRule (.kmul ra rb rc re rf) (Rules.kmul s .kmul ra rb rc re rf)
      ∧ s.ObeysRule (.kmuln ra rb rc re rf) (Rules.kmul s .kmuln ra rb rc re rf)
      ∧ s.ObeysRule (.nmul ra rb rc re rf) (Rules.nmul s ra rb rc re rf)
      ∧ ∀ la lb : Nat, la ≤ s.cfg.karatsubaBasecase → lb ≤ s.cfg.karatsubaBasecase →
          scratchShort s.cfg .kmul [la, lb] = false

/-- R192: BMUL, KMUL, KMULN and NMUL leave the same state for the same operands, for every value of the four tuning
parameters, wherever BMUL completes and the others have the scratch and NMUL the transform length they need. -/
def Obligations.Multiplication_strategies_agree : Prop :=
  ∀ (s t : State) (ra rb rc re rf : Reg) (basecase crossover : Nat) (karatsuba sixstep : Option Nat),
    let tuned := { s.cfg with
      karatsubaBasecase := basecase, nttPow2Crossover := crossover
      karatsubaNttThreshold := karatsuba, sixstepThreshold := sixstep }
    let la := (s.reg re).toNat
    let lb := (s.reg rf).toNat
    s.status.fault = false → exec (.bmul ra rb rc re rf) s = .next t → t.status.fault = false →
    (scratchShort tuned .kmul [la, lb] = false →
        exec (.kmul ra rb rc re rf) { s with cfg := tuned } = .next { t with cfg := tuned })
      ∧ (scratchShort tuned .kmuln [la, lb] = false →
        exec (.kmuln ra rb rc re rf) { s with cfg := tuned } = .next { t with cfg := tuned })
      ∧ (scratchShort tuned .nmul [la, lb] = false → la + lb ≤ 3 * 2 ^ s.cfg.maxNttLog2 →
        exec (.nmul ra rb rc re rf) { s with cfg := tuned } = .next { t with cfg := tuned })

/-! ### Faults (60_exceptions.md) -/

/-- R24, R59, R210: every command in every state without a fault answers a next state; it has completed, and added one
to `pc`, or it has faulted, and changed nothing but STATUS, CAUSE, EPC and FINFO (after ALLOC, the words of its
destination arrays as well). Only HALT changes STATUS without a fault. A completed command is the one last executed
(R28, log entry 8). -/
def Obligations.Every_command_completes_or_faults : Prop :=
  ∀ (i : Instr) (s : State), s.status.fault = false →
    ∃ t, exec i s = .next t ∧
      ((t.status.fault = false ∧ t.pc = s.pc + 1 ∧ t.lastCommand = some s.pc
          ∧ t.cause = s.cause ∧ t.epc = s.epc ∧ t.finfo = s.finfo ∧ (i ≠ .halt → t.status = s.status))
        ∨ (∃ c info, c ≠ .alloc ∧ t = s.faulted c info)
        ∨ s.AllocFaulted t (s.destinationArrays i))

/-- The write set (R59, R35, R66): whatever a command does, completing or faulting, no register but its destination
registers changes, no word of `M` but those of its destination arrays, no word of `C`, and no parameter. -/
def Obligations.A_command_writes_only_its_destinations : Prop :=
  ∀ (i : Instr) (s t : State), exec i s = .next t →
    (∀ r, r ∉ destinationRegisters i → t.reg r = s.reg r)
      ∧ (∀ b, (∀ a ∈ s.destinationArrays i, ¬a.Holds b) → t.data b = s.data b)
      ∧ (∀ b, t.command b = s.command b)
      ∧ t.cfg = s.cfg

/-- The commands that can raise each cause, by mnemonic (R201, column "raised by"). ILLEGAL and FETCH are raised by the
fetch. -/
def Sys2Proof.Rules.raisedBy : Cause → List String
  | .illegal => []
  | .fetch => []
  | .len => ["ADD", "SUB", "SADD", "SMUL", "BMUL", "SHL10", "SDIV", "BDIVMOD", "SHR10", "NTTSTG", "NTTREV", "NTTFWD",
      "NTTINV", "NTTCONV", "NTTACONV", "NTTLEN", "CRT3", "KMUL", "KMULN", "NMUL"]
  | .addr => ["LDW", "STW", "ADD", "SUB", "SADD", "SMUL", "BMUL", "SHL10", "SDIV", "BDIVMOD", "SHR10", "NTTSTG",
      "NTTREV", "NTTFWD", "NTTINV", "NTTCONV", "NTTACONV", "CRT3", "KMUL", "KMULN", "NMUL"]
  | .overlap => ["ADD", "SUB", "SADD", "SMUL", "BMUL", "SHL10", "SDIV", "BDIVMOD", "SHR10", "NTTCONV", "CRT3", "KMUL",
      "KMULN", "NMUL"]
  | .divzero => ["DIVW", "SDIV", "BDIVMOD"]
  | .range => ["SADD", "SMUL", "SHL10", "DIVW", "SDIV", "BDIVMOD", "ADDMOD", "SUBMOD", "MULMOD", "MULMODP", "MULMOD2",
      "MULMOD2C", "POWMOD", "REDP", "NTTSTG"]
  | .badword => ["ADD", "SUB", "SADD", "SMUL", "BMUL", "SHL10", "SDIV", "BDIVMOD", "SHR10", "NTTSTG", "NTTFWD", "NTTINV",
      "NTTCONV", "NTTACONV", "CRT3", "KMUL", "KMULN", "NMUL"]
  | .alloc => ["BDIVMOD", "NTTFWD", "NTTINV", "NTTCONV", "NTTACONV", "KMUL", "KMULN", "NMUL"]

/-- R201: a well-formed command that faults records a code from 3 to 9 whose row names the command, and FINFO is 0 for
LEN, DIVZERO and ALLOC. -/
def Obligations.Causes_are_raised_by_their_commands : Prop :=
  ∀ (i : Instr) (s t : State), i.WellFormed → s.status.fault = false → exec i s = .next t → t.status.fault = true →
    ∃ c, t.cause = c.code ∧ 3 ≤ t.cause.toNat ∧ t.cause.toNat ≤ 9 ∧ i.mnemonic ∈ Rules.raisedBy c
      ∧ (c = .len ∨ c = .divzero ∨ c = .alloc → t.finfo = 0)

/-- A command with `pi = 3`, given to `exec` (no word decodes to it), raises ILLEGAL with its encoding (R75; that `exec`
checks it again is log entry 13). -/
def Obligations.Prime_index_three_is_illegal : Prop :=
  (∀ (i : Instr) (s : State), ¬i.WellFormed → exec i s = .next (s.faulted .illegal (encode i)))
    ∧ ∀ (c : Word) (i : Instr), decode c = .ok i → i.WellFormed

/-- R204: LEN, ADDR and OVERLAP depend on register values only. Two states of one machine with the same registers and any
memories: where the command raises one of the three in one, it raises the same, with the same FINFO, in the other. -/
def Obligations.Len_addr_overlap_ignore_memory : Prop :=
  ∀ (i : Instr) (s s' t t' : State), s.regs = s'.regs → s.cfg = s'.cfg →
    s.status.fault = false → s'.status.fault = false →
    exec i s = .next t → exec i s' = .next t' → t.status.fault = true →
    (t.cause = 3 ∨ t.cause = 4 ∨ t.cause = 5) →
    t'.status.fault = true ∧ t'.cause = t.cause ∧ t'.finfo = t.finfo

/-- R212: faults do not nest. While FAULT = 1 and RUN = 0, no step and no host transaction other than a CTRL write with
CLRF or SRST changes the record of the fault or starts a run. -/
def Obligations.Faults_do_not_nest : Prop :=
  ∀ (s t : State) (e : Event), s.status.fault = true → s.status.run = false →
    s.onEvent e = .next t → e ≠ .rst →
    (∀ data, e = .host ⟨true, 0, 1, data⟩ → data.getLsbD 1 = false ∧ data.getLsbD 2 = false) →
    t.status = s.status ∧ t.cause = s.cause ∧ t.epc = s.epc ∧ t.finfo = s.finfo

/-- R211: a CTRL write of CLRF and START together clears the fault record and runs again from the same `pc`, so that the
next step executes the faulting command again; START alone has no effect while FAULT = 1. -/
def Obligations.Clearing_a_fault_resumes_at_the_command : Prop :=
  ∀ (s : State), s.status.fault = true → s.status.run = false →
    hostWrite s 0 1 3 =
        { s with status := ⟨true, false, false⟩, cause := 0, epc := 0, finfo := 0, lastCommand := none }
      ∧ (∀ i, s.pc.toNat < s.cfg.cmdWords → decode (s.command s.pc.toNat) = .ok i →
          step (hostWrite s 0 1 3) = exec i (hostWrite s 0 1 3))
      ∧ hostWrite s 0 1 1 = s

/-! ### The invariant -/

/-- Every step keeps the invariant: at most one of RUN, HALTED and FAULT (R26), a true fault record (R29, R210, R40),
stores in canonical form that list only addresses that exist (R34, R35), and a last command that is the one before `pc`
(R24, R28). -/
def Obligations.Every_step_keeps_the_invariant : Prop :=
  ∀ s t : State, s.Inv → step s = .next t → t.Inv

/-- The state after reset meets the invariant. -/
def Obligations.Reset_meets_the_invariant : Prop := State.reset.Inv

/-- Every event keeps the invariant and answers a next state: a step, a host transaction of any kind, a reset. -/
def Obligations.Every_event_keeps_the_invariant : Prop :=
  ∀ (s : State) (e : Event), s.Inv → ∃ t, s.onEvent e = .next t ∧ t.Inv

/-- A run always ends (R24, R234): from a state that is running, after at most `CMD_WORDS − p0` commands and the step
that finds `pc` beyond `C`, RUN is 0 and exactly one of HALTED and FAULT is 1. -/
def Obligations.Every_run_ends : Prop :=
  ∀ s : State, s.Inv → s.status.run = true → s.cfg.cmdWords ≤ 2 ^ 32 →
    ∃ k ≤ s.cfg.cmdWords - s.pc.toNat + 1, ∃ t, core.run k s = .next t
      ∧ t.status.run = false ∧ (t.status.halted = true ↔ t.status.fault = false)

/-! ### Reset and the host port (10_state.md, 70_reset_and_hazards.md) -/

/-- R40, R230: reset, by the input or by CTRL.SRST, whatever else the write sets and whether or not the block is running,
leaves every register, `pc`, STATUS, CAUSE, EPC and FINFO 0; and `State.reset` has these values. -/
def Obligations.Reset_clears_every_register : Prop :=
  let cleared := fun t : State => (∀ r, t.reg r = 0) ∧ t.pc = 0 ∧ t.status = ⟨false, false, false⟩
    ∧ t.cause = 0 ∧ t.epc = 0 ∧ t.finfo = 0
  cleared State.reset
    ∧ (∀ s : State, s.onEvent .rst = .next s.doReset ∧ cleared s.doReset ∧ s.doReset.cfg = s.cfg)
    ∧ ∀ (s : State) (data : Word), data.getLsbD 2 = true → hostWrite s 0 1 data = s.doReset

/-- R27: a read of CTRL answers 0; a write with SRST is the reset and nothing else; one without clears the fault record if
CLRF is set and RUN = 0, then starts a run if START is set and RUN = 0 and FAULT = 0 after that; it changes nothing
else, neither what unwritten words read as nor, where it starts no run, what a read of PC answers, and no other bit of it
has an effect. -/
def Obligations.Ctrl_clears_then_starts : Prop :=
  ∀ (s : State) (data : Word),
    let t := hostWrite s 0 1 data
    let clears := data.getLsbD 1 = true ∧ s.status.run = false
    let starts := data.getLsbD 0 = true ∧ s.status.run = false ∧ t.status.fault = false
    hostRead s 0 1 = (0, s)
      ∧ (data.getLsbD 2 = true → t = s.doReset)
      ∧ (data.getLsbD 2 = false →
        (clears → t.status.fault = false ∧ t.cause = 0 ∧ t.epc = 0 ∧ t.finfo = 0)
          ∧ (¬clears → t.status.fault = s.status.fault ∧ t.cause = s.cause ∧ t.epc = s.epc ∧ t.finfo = s.finfo)
          ∧ (starts → t.status.run = true ∧ t.status.halted = false)
          ∧ (¬starts → t.status.run = s.status.run ∧ t.status.halted = s.status.halted
            ∧ (hostRead t 0 3).1 = (hostRead s 0 3).1)
          ∧ t.regs = s.regs ∧ t.pc = s.pc ∧ t.dataMem = s.dataMem ∧ t.cmdMem = s.cmdMem ∧ t.cfg = s.cfg
          ∧ t.epoch = s.epoch ∧ t.freeCount = s.freeCount
          ∧ (∀ b, t.data b = s.data b) ∧ ∀ b, t.command b = s.command b)

/-- R26 to R33, R36, R46: what each read of the port answers while RUN = 0. -/
def Obligations.Host_reads_answer_the_registers_and_stores : Prop :=
  ∀ s : State, s.status.run = false →
    let read := fun (space : BitVec 2) (addr : Word) => (hostRead s space addr).1
    read 0 0 = 0x57415301 ∧ read 0 1 = 0
      ∧ (read 0 2).toNat = (if s.status.halted then 2 else 0) + (if s.status.fault then 4 else 0)
      ∧ read 0 3 = s.pc ∧ read 0 4 = s.cause ∧ read 0 5 = s.epc ∧ read 0 6 = s.finfo
      ∧ (∀ r : Reg, read 0 (Word.ofNat (16 + r.val)) = s.reg r)
      ∧ (∀ a : Word, (7 ≤ a.toNat ∧ a.toNat ≤ 15) ∨ 32 ≤ a.toNat → read 0 a = 0)
      ∧ (∀ a : Word, read 1 a = if a.toNat < s.cfg.cmdWords then s.command a.toNat else 0)
      ∧ (∀ a : Word, read 2 a = if a.toNat < s.cfg.memWords then s.data a.toNat else 0)
      ∧ (∀ a : Word, read 3 a = 0)
      ∧ ∀ space a, (hostRead s space a).2 = s

/-- R28, R30 to R36, R46: what each write of the port does while RUN = 0, CTRL apart: PC, a register, a word of `C`, a
word of `M`, and nothing for the read-only and the reserved addresses. -/
def Obligations.Host_writes_reach_what_they_name : Prop :=
  ∀ (s : State) (data : Word), s.status.run = false →
    hostWrite s 0 3 data = { s with pc := data }
      ∧ (∀ r : Reg, (hostWrite s 0 (Word.ofNat (16 + r.val)) data).reg r = data
          ∧ ∀ q, q ≠ r → (hostWrite s 0 (Word.ofNat (16 + r.val)) data).reg q = s.reg q)
      ∧ (∀ r : Reg, { hostWrite s 0 (Word.ofNat (16 + r.val)) data with regs := s.regs } = s)
      ∧ (∀ a : Word, a ≠ 1 → a ≠ 3 → (a.toNat < 16 ∨ 32 ≤ a.toNat) → hostWrite s 0 a data = s)
      ∧ (∀ a : Word, a.toNat < s.cfg.cmdWords →
          (∀ b, (hostWrite s 1 a data).command b = if b = a.toNat then data else s.command b)
            ∧ { hostWrite s 1 a data with cmdMem := s.cmdMem } = s)
      ∧ (∀ a : Word, s.cfg.cmdWords ≤ a.toNat → hostWrite s 1 a data = s)
      ∧ (∀ a : Word, a.toNat < s.cfg.memWords →
          (∀ b, (hostWrite s 2 a data).data b = if b = a.toNat then data else s.data b)
            ∧ { hostWrite s 2 a data with dataMem := s.dataMem } = s)
      ∧ (∀ a : Word, s.cfg.memWords ≤ a.toNat → hostWrite s 2 a data = s)
      ∧ ∀ a : Word, hostWrite s 3 a data = s

/-- R46, R237: while RUN = 1 no host write but CTRL.SRST does anything, reads of the registers, `M` and `C` answer 0,
STATUS, CAUSE, EPC, FINFO and ID read as they are, and PC reads as the address of the command about to be fetched or of
the one last executed in this run (R28; the choice between them is free, log entry 8); right after START it reads as
`pc`. R237 lists `pc` among what reads 0; that R28 is followed there is the model's choice (log entry 24). -/
def Obligations.Host_cannot_disturb_a_run : Prop :=
  (∀ s : State, s.status.run = true →
    (∀ space a data, ¬(space = 0 ∧ a = 1 ∧ data.getLsbD 2 = true) → hostWrite s space a data = s)
      ∧ (∀ space a, (space = 0 → 7 ≤ a.toNat) → (hostRead s space a).1 = 0)
      ∧ (hostRead s 0 0).1 = 0x57415301 ∧ (hostRead s 0 4).1 = s.cause ∧ (hostRead s 0 5).1 = s.epc
      ∧ (hostRead s 0 6).1 = s.finfo
      ∧ (hostRead s 0 2).1.toNat = 1 + (if s.status.halted then 2 else 0) + (if s.status.fault then 4 else 0)
      ∧ ((hostRead s 0 3).1 = s.pc ∨ s.lastCommand = some (hostRead s 0 3).1)
      ∧ ∀ space a, ∃ k, (hostRead s space a).2 = { s with freeCount := k })
    ∧ ∀ s : State, s.status.run = false → s.status.fault = false →
      let started := hostWrite s 0 1 1
      started.status.run = true ∧ (hostRead started 0 3).1 = s.pc

end Statements
end

