-- ==== Sys2Proof/Laws/Numbers.lean ====
section
/-! SUPPORT. The loop of R137 computes a power, and the lists of Machine/Numbers.lean have the lengths they are
written with. -/

namespace Sys2Proof.Machine

open Sys2Proof

/-- The loop of R137, from any of its states. -/
theorem powModLoop_eq (m fuel r b e : Nat) (he : e < 2 ^ fuel) (hr : r < m) :
    powModLoop m fuel r b e = r * b ^ e % m := by
  induction fuel generalizing r b e with
  | zero => simp at he; simp [powModLoop, he, Nat.mod_eq_of_lt hr]
  | succ fuel ih =>
    simp only [powModLoop]
    split_ifs with h0 h1
    · simp [h0, Nat.mod_eq_of_lt hr]
    · rw [ih _ _ _ (by rw [pow_succ] at he; omega) (Nat.mod_lt _ (by omega))]
      have : e = 2 * (e / 2) + 1 := by omega
      conv_rhs => rw [this, pow_succ, pow_mul]
      rw [Nat.mul_mod, Nat.pow_mod, Nat.mod_mod, Nat.mod_mod, ← Nat.pow_mod, ← Nat.mul_mod]
      ring_nf
    · rw [ih _ _ _ (by rw [pow_succ] at he; omega) hr]
      have : e = 2 * (e / 2) := by omega
      conv_rhs => rw [this, pow_mul]
      rw [Nat.mul_mod, Nat.pow_mod, Nat.mod_mod, ← Nat.pow_mod, ← Nat.mul_mod]
      ring_nf

/-- `powMod` is the power modulo `m`, for every exponent a word can hold. -/
theorem powMod_eq (b e m : Nat) (hm : 0 < m) (he : e < 2 ^ 64) : powMod b e m = b ^ e % m := by
  rw [powMod, powModLoop_eq _ _ _ _ _ he (Nat.mod_lt _ hm), Nat.mod_mul_mod, one_mul]

/-- Horner's evaluation in closed form, one element at a time. -/
theorem polyMod_cons (p x a : Nat) (rest : List Nat) :
    polyMod p x (a :: rest) = (a + x * polyMod p x rest) % p := rfl

@[simp] theorem digits_length (v n : Nat) : (digits v n).length = n := by
  induction n generalizing v with
  | zero => rfl
  | succ n ih => simp [digits, ih]

@[simp] theorem dft_length (p r : Nat) (a : List Nat) : (dft p r a).length = a.length := by simp [dft]

@[simp] theorem nttStage_length (p r s : Nat) (a : List Nat) : (nttStage p r s a).length = a.length := by
  simp [nttStage]

@[simp] theorem bitReversed_length (k : Nat) (a : List Word) : (bitReversed k a).length = a.length := by
  simp [bitReversed]

@[simp] theorem pointwise_length (p ninv : Nat) (a b : List Nat) :
    (pointwise p ninv a b).length = min a.length b.length := by
  simp [pointwise]

@[simp] theorem crtCarry_length (c : Nat) (z : List Nat) : (crtCarry c z).1.length = z.length := by
  induction z generalizing c with
  | nil => rfl
  | cons x rest ih => simp [crtCarry, ih]

end Sys2Proof.Machine
end

