-- ==== Sys2Proof/Laws/Config.lean ====
section
/-! SUPPORT. The default parameters of R6 and R7 are legal: the three primes are prime, the three roots primitive. -/

namespace Sys2Proof.Config

open Sys2Proof.Machine

/-- A power in `ZMod p`, by the loop of R137. -/
theorem zmod_pow {p g e : Nat} (hp : 1 < p) (he : e < 2 ^ 64) :
    ((g : ZMod p) ^ e = 1) ↔ powMod g e p = 1 := by
  rw [powMod_eq g e p (by omega) he, ← Nat.cast_pow, ← Nat.cast_one (R := ZMod p), ZMod.natCast_eq_natCast_iff]
  unfold Nat.ModEq
  rw [Nat.mod_eq_of_lt hp]

/-- Lucas's test with the prime factors of `p − 1` listed. -/
theorem prime_and_order {p g : Nat} (factors : List Nat) (hp : 1 < p) (hlt : p < 2 ^ 64)
    (hfactors : ∀ q, q.Prime → q ∣ p - 1 → q ∈ factors) (hone : powMod g (p - 1) p = 1)
    (hne : ∀ q ∈ factors, powMod g ((p - 1) / q) p ≠ 1) :
    p.Prime ∧ orderOf (g : ZMod p) = p - 1 := by
  have h1 : (g : ZMod p) ^ (p - 1) = 1 := (zmod_pow hp (by omega)).2 hone
  have h2 : ∀ q, q.Prime → q ∣ p - 1 → (g : ZMod p) ^ ((p - 1) / q) ≠ 1 := by
    intro q hq hd h
    have hle : (p - 1) / q ≤ p - 1 := Nat.div_le_self _ _
    exact hne q (hfactors q hq hd) ((zmod_pow hp (by omega)).1 h)
  exact ⟨lucas_primality p g h1 h2, orderOf_eq_of_pow_and_pow_div_prime (by omega) h1 h2⟩

/-- A prime that divides a product of primes is one of them. -/
theorem prime_mem_of_dvd_prod {q : Nat} (hq : q.Prime) (l : List Nat) (hl : ∀ x ∈ l, x.Prime) (h : q ∣ l.prod) :
    q ∈ l := by
  obtain ⟨x, hx, hd⟩ := (Prime.dvd_prod_iff hq.prime).1 h
  exact (Nat.prime_dvd_prime_iff_eq hq (hl x hx)).1 hd ▸ hx

/-- One row of the table of R6. -/
theorem legalPrime_of {p g k : Nat} (small : List Nat) (twos : Nat) (hp : RADIX < p) (hlt : p < 2 ^ 64) (hg : g < p)
    (hprod : p - 1 = 2 ^ twos * small.prod) (hsmall : ∀ x ∈ small, x.Prime) (hk : k ≤ twos) (h3 : 3 ∈ small)
    (hone : powMod g (p - 1) p = 1) (hne : ∀ q ∈ 2 :: small, powMod g ((p - 1) / q) p ≠ 1) : LegalPrime p g k := by
  have h1 : 1 < p := by unfold RADIX at hp; omega
  obtain ⟨hprime, horder⟩ := prime_and_order (2 :: small) h1 hlt (by
    intro q hq hd
    rw [hprod] at hd
    rcases (Nat.Prime.dvd_mul hq).1 hd with h | h
    · have := (Nat.prime_dvd_prime_iff_eq hq Nat.prime_two).1 (hq.dvd_of_dvd_pow h)
      simp [this]
    · exact List.mem_cons_of_mem _ (prime_mem_of_dvd_prod hq small hsmall h)) hone hne
  refine ⟨hprime, hp, hlt, hg, horder, ?_, ?_⟩
  · rw [hprod]; exact Dvd.dvd.mul_right (pow_dvd_pow 2 hk) _
  · rw [hprod]; exact Dvd.dvd.mul_left (List.dvd_prod h3) _

theorem default_prime1 : LegalPrime default.p1 default.g1 default.maxNttLog2 :=
  legalPrime_of [3, 5, 17, 257, 65537] 32 (by decide) (by decide) (by decide) (by decide +kernel)
    (by intro x hx; simp at hx; rcases hx with rfl | rfl | rfl | rfl | rfl <;> norm_num)
    (by decide) (by decide) (by decide +kernel) (by decide +kernel)

theorem default_prime2 : LegalPrime default.p2 default.g2 default.maxNttLog2 :=
  legalPrime_of [3, 3, 7, 11, 31, 151, 331] 34 (by decide) (by decide) (by decide) (by decide +kernel)
    (by intro x hx; simp at hx; rcases hx with rfl | rfl | rfl | rfl | rfl | rfl <;> norm_num)
    (by decide) (by decide) (by decide +kernel) (by decide +kernel)

theorem default_prime3 : LegalPrime default.p3 default.g3 default.maxNttLog2 :=
  legalPrime_of [3, 3, 5, 7, 13, 17, 241] 40 (by decide) (by decide) (by decide) (by decide +kernel)
    (by intro x hx; simp at hx; rcases hx with rfl | rfl | rfl | rfl | rfl | rfl <;> norm_num)
    (by decide) (by decide) (by decide +kernel) (by decide +kernel)

/-- The defaults of R6 and R7 meet the constraints of R6 and R7. -/
theorem default_legal : default.Legal where
  memWords_pos := by decide
  memWords_le := by decide
  cmdWords_pos := by decide
  cmdWords_le := by decide
  crossover_pow2 := ⟨10, by decide, by decide⟩
  basecase_pos := by decide
  threshold_gt := by intro t h; cases h
  sixstep_pow2 := by intro t h; cases h
  prime1 := default_prime1
  prime2 := default_prime2
  prime3 := default_prime3
  distinct12 := by decide
  distinct13 := by decide
  distinct23 := by decide

/-- Legal parameters have the primes the Chinese remainder rests on. -/
theorem Legal.crtPrimes {c : Config} (h : c.Legal) : c.CrtPrimes :=
  ⟨h.prime1.prime, h.prime2.prime, h.prime3.prime, h.prime1.is_word, h.prime2.is_word, h.prime3.is_word,
    h.distinct12, h.distinct13, h.distinct23⟩

end Sys2Proof.Config
end

