-- ==== Sys2Proof/Laws/Decode.lean ====
section
/-! SUPPORT. The bit-level laws of the command word: cutting a word into fields and putting fields together undo each
other, and so do `withImm` and `imm32`. -/

namespace Sys2Proof

/-- The fields of a word put together are the word. -/
@[simp] theorem Fields.toWord_ofWord (c : Word) : (Fields.ofWord c).toWord = c := by
  apply BitVec.eq_of_getLsbD_eq
  intro i hi
  simp only [Fields.ofWord, Fields.toWord, BitVec.getLsbD_append, BitVec.getLsbD_extractLsb']
  interval_cases i <;> simp

/-- Fields put together are cut apart again. -/
@[simp] theorem Fields.ofWord_toWord (f : Fields) : Fields.ofWord f.toWord = f := by
  rcases f with ⟨op, rd, ra, rb, rc, re, rf, rg, zero25, inv, pi⟩
  simp only [Fields.ofWord, Fields.toWord, Fields.mk.injEq]
  refine ⟨?_, ?_, ?_, ?_, ?_, ?_, ?_, ?_, ?_, ?_, ?_⟩ <;>
    (apply BitVec.eq_of_getLsbD_eq
     intro i hi
     simp only [BitVec.getLsbD_extractLsb', BitVec.getLsbD_append]
     interval_cases i <;> simp)

/-- The immediate set is the immediate read (R74). -/
@[simp] theorem Fields.imm32_withImm (imm : BitVec 32) (f : Fields) : (Fields.withImm imm f).imm32 = imm := by
  apply BitVec.eq_of_getLsbD_eq
  intro i hi
  simp only [Fields.imm32, Fields.withImm, BitVec.getLsbD_append, BitVec.getLsbD_extractLsb']
  interval_cases i <;> simp

end Sys2Proof
end

