-- ==== Sys2Proof/Laws/Memory.lean ====
section
/-! SUPPORT. The laws of the stores: what a read gives after a write, and that every write keeps the canonical form and
lists no new address but the one written. -/

namespace Sys2Proof.Machine.Memory

open Sys2Proof

@[simp] theorem get?_nil (a : Nat) : Memory.get? [] a = none := rfl

/-- A read after a write. -/
theorem get?_set (m : Memory) (a b : Nat) (v : Word) :
    (m.set a v).get? b = if b = a then some v else m.get? b := by
  induction m with
  | nil => simp [Memory.set, Memory.get?, eq_comm]
  | cons x rest ih =>
    obtain ⟨k, w⟩ := x
    simp only [Memory.set]
    split_ifs <;> simp [Memory.get?, *] <;> grind

@[simp] theorem get?_set_self (m : Memory) (a : Nat) (v : Word) : (m.set a v).get? a = some v := by
  simp [get?_set]

theorem get?_set_ne (m : Memory) {a b : Nat} (v : Word) (h : b ≠ a) : (m.set a v).get? b = m.get? b := by
  simp [get?_set, h]

/-- The addresses a write leaves listed. -/
theorem mem_set {m : Memory} {a : Nat} {v : Word} {x : Nat × Word} (h : x ∈ m.set a v) :
    x = (a, v) ∨ x ∈ m := by
  induction m with
  | nil => simpa [Memory.set] using h
  | cons y rest ih =>
    obtain ⟨k, w⟩ := y
    simp only [Memory.set] at h
    split_ifs at h <;> simp only [List.mem_cons] at h ⊢ <;> grind

/-- A write keeps the canonical form. -/
theorem wf_set {m : Memory} (h : m.wf) (a : Nat) (v : Word) : (m.set a v).wf := by
  induction m with
  | nil => simp [Memory.wf, Memory.set]
  | cons y rest ih =>
    obtain ⟨k, w⟩ := y
    obtain ⟨hk, hrest⟩ := List.pairwise_cons.1 h
    simp only [Memory.set]
    split_ifs with hlt heq
    · refine List.pairwise_cons.2 ⟨?_, h⟩
      intro x hx
      rcases List.mem_cons.1 hx with rfl | hx
      · exact hlt
      · exact Nat.lt_trans hlt (hk x hx)
    · exact List.pairwise_cons.2 ⟨fun x hx => heq ▸ hk x hx, hrest⟩
    · refine List.pairwise_cons.2 ⟨?_, ih hrest⟩
      intro x hx
      rcases mem_set hx with rfl | hx
      · show k < a
        omega
      · exact hk x hx

/-- A write below the bound keeps every listed address below it. -/
theorem within_set {m : Memory} {bound : Nat} (h : m.within bound) {a : Nat} (ha : a < bound) (v : Word) :
    (m.set a v).within bound := by
  intro x hx
  rcases mem_set hx with rfl | hx
  · exact ha
  · exact h x hx

@[simp] theorem writeList_nil (m : Memory) (a : Nat) : m.writeList a [] = m := rfl

theorem writeList_cons (m : Memory) (a : Nat) (v : Word) (l : List Word) :
    m.writeList a (v :: l) = (m.set a v).writeList (a + 1) l := rfl

/-- A read outside the words written. -/
theorem get?_writeList_outside (l : List Word) (m : Memory) {a b : Nat} (h : b < a ∨ a + l.length ≤ b) :
    (m.writeList a l).get? b = m.get? b := by
  induction l generalizing m a with
  | nil => rfl
  | cons v rest ih =>
    simp only [List.length_cons] at h
    rw [writeList_cons, ih _ (by omega), get?_set_ne _ _ (by omega)]

/-- A read of a word written. -/
theorem get?_writeList_inside (l : List Word) (m : Memory) (a : Nat) {i : Nat} (h : i < l.length) :
    (m.writeList a l).get? (a + i) = some l[i] := by
  induction l generalizing m a i with
  | nil => simp at h
  | cons v rest ih =>
    rw [writeList_cons]
    cases i with
    | zero => rw [get?_writeList_outside _ _ (by omega)]; simp
    | succ i =>
      simp only [List.length_cons, Nat.add_lt_add_iff_right] at h
      have := ih (m.set a v) (a + 1) h
      simpa [Nat.add_assoc, Nat.add_comm 1 i] using this

/-- Writing a list keeps the canonical form. -/
theorem wf_writeList (l : List Word) {m : Memory} (h : m.wf) (a : Nat) : (m.writeList a l).wf := by
  induction l generalizing m a with
  | nil => exact h
  | cons v rest ih => exact ih (wf_set h a v) (a + 1)

/-- Writing a list below the bound keeps every listed address below it. -/
theorem within_writeList (l : List Word) {m : Memory} {bound : Nat} (h : m.within bound) {a : Nat}
    (ha : a + l.length ≤ bound) : (m.writeList a l).within bound := by
  induction l generalizing m a with
  | nil => exact h
  | cons v rest ih =>
    simp only [List.length_cons] at ha
    exact ih (within_set h (by omega) v) (by omega)

end Sys2Proof.Machine.Memory
end

