-- ==== Sys2Proof/Laws/State.lean ====
section
/-! SUPPORT. The small laws of the state: one lemma for each field and each update, and what a register or a word reads
after each update. Later proofs use them and unfold no record update. -/

namespace Sys2Proof.Machine.State

open Sys2Proof Sys2Proof.Machine

/-! ### The fields after an update -/

@[simp] theorem setReg_pc (s : State) (r : Reg) (v : Word) : (s.setReg r v).pc = s.pc := rfl
@[simp] theorem setReg_status (s : State) (r : Reg) (v : Word) : (s.setReg r v).status = s.status := rfl
@[simp] theorem setReg_cause (s : State) (r : Reg) (v : Word) : (s.setReg r v).cause = s.cause := rfl
@[simp] theorem setReg_epc (s : State) (r : Reg) (v : Word) : (s.setReg r v).epc = s.epc := rfl
@[simp] theorem setReg_finfo (s : State) (r : Reg) (v : Word) : (s.setReg r v).finfo = s.finfo := rfl
@[simp] theorem setReg_dataMem (s : State) (r : Reg) (v : Word) : (s.setReg r v).dataMem = s.dataMem := rfl
@[simp] theorem setReg_cmdMem (s : State) (r : Reg) (v : Word) : (s.setReg r v).cmdMem = s.cmdMem := rfl
@[simp] theorem setReg_cfg (s : State) (r : Reg) (v : Word) : (s.setReg r v).cfg = s.cfg := rfl
@[simp] theorem setReg_epoch (s : State) (r : Reg) (v : Word) : (s.setReg r v).epoch = s.epoch := rfl
@[simp] theorem setReg_freeCount (s : State) (r : Reg) (v : Word) : (s.setReg r v).freeCount = s.freeCount := rfl
@[simp] theorem setReg_lastCommand (s : State) (r : Reg) (v : Word) : (s.setReg r v).lastCommand = s.lastCommand := rfl

@[simp] theorem setData_regs (s : State) (a : Nat) (l : List Word) : (s.setData a l).regs = s.regs := rfl
@[simp] theorem setData_pc (s : State) (a : Nat) (l : List Word) : (s.setData a l).pc = s.pc := rfl
@[simp] theorem setData_status (s : State) (a : Nat) (l : List Word) : (s.setData a l).status = s.status := rfl
@[simp] theorem setData_cause (s : State) (a : Nat) (l : List Word) : (s.setData a l).cause = s.cause := rfl
@[simp] theorem setData_epc (s : State) (a : Nat) (l : List Word) : (s.setData a l).epc = s.epc := rfl
@[simp] theorem setData_finfo (s : State) (a : Nat) (l : List Word) : (s.setData a l).finfo = s.finfo := rfl
@[simp] theorem setData_dataMem (s : State) (a : Nat) (l : List Word) : (s.setData a l).dataMem = s.dataMem.writeList a l := rfl
@[simp] theorem setData_cmdMem (s : State) (a : Nat) (l : List Word) : (s.setData a l).cmdMem = s.cmdMem := rfl
@[simp] theorem setData_cfg (s : State) (a : Nat) (l : List Word) : (s.setData a l).cfg = s.cfg := rfl
@[simp] theorem setData_epoch (s : State) (a : Nat) (l : List Word) : (s.setData a l).epoch = s.epoch := rfl
@[simp] theorem setData_freeCount (s : State) (a : Nat) (l : List Word) : (s.setData a l).freeCount = s.freeCount := rfl
@[simp] theorem setData_lastCommand (s : State) (a : Nat) (l : List Word) : (s.setData a l).lastCommand = s.lastCommand := rfl

@[simp] theorem setWords_regs (s : State) (a : ArrayOperand) (l : List Word) : (s.setWords a l).regs = s.regs := rfl
@[simp] theorem setWords_pc (s : State) (a : ArrayOperand) (l : List Word) : (s.setWords a l).pc = s.pc := rfl
@[simp] theorem setWords_status (s : State) (a : ArrayOperand) (l : List Word) : (s.setWords a l).status = s.status := rfl
@[simp] theorem setWords_cause (s : State) (a : ArrayOperand) (l : List Word) : (s.setWords a l).cause = s.cause := rfl
@[simp] theorem setWords_epc (s : State) (a : ArrayOperand) (l : List Word) : (s.setWords a l).epc = s.epc := rfl
@[simp] theorem setWords_finfo (s : State) (a : ArrayOperand) (l : List Word) : (s.setWords a l).finfo = s.finfo := rfl
@[simp] theorem setWords_dataMem (s : State) (a : ArrayOperand) (l : List Word) : (s.setWords a l).dataMem = s.dataMem.writeList a.base.toNat l := rfl
@[simp] theorem setWords_cmdMem (s : State) (a : ArrayOperand) (l : List Word) : (s.setWords a l).cmdMem = s.cmdMem := rfl
@[simp] theorem setWords_cfg (s : State) (a : ArrayOperand) (l : List Word) : (s.setWords a l).cfg = s.cfg := rfl
@[simp] theorem setWords_epoch (s : State) (a : ArrayOperand) (l : List Word) : (s.setWords a l).epoch = s.epoch := rfl
@[simp] theorem setWords_freeCount (s : State) (a : ArrayOperand) (l : List Word) : (s.setWords a l).freeCount = s.freeCount := rfl
@[simp] theorem setWords_lastCommand (s : State) (a : ArrayOperand) (l : List Word) : (s.setWords a l).lastCommand = s.lastCommand := rfl

@[simp] theorem setResidues_regs (s : State) (a : ArrayOperand) (l : List Nat) : (s.setResidues a l).regs = s.regs := rfl
@[simp] theorem setResidues_pc (s : State) (a : ArrayOperand) (l : List Nat) : (s.setResidues a l).pc = s.pc := rfl
@[simp] theorem setResidues_status (s : State) (a : ArrayOperand) (l : List Nat) : (s.setResidues a l).status = s.status := rfl
@[simp] theorem setResidues_cause (s : State) (a : ArrayOperand) (l : List Nat) : (s.setResidues a l).cause = s.cause := rfl
@[simp] theorem setResidues_epc (s : State) (a : ArrayOperand) (l : List Nat) : (s.setResidues a l).epc = s.epc := rfl
@[simp] theorem setResidues_finfo (s : State) (a : ArrayOperand) (l : List Nat) : (s.setResidues a l).finfo = s.finfo := rfl
@[simp] theorem setResidues_dataMem (s : State) (a : ArrayOperand) (l : List Nat) : (s.setResidues a l).dataMem = s.dataMem.writeList a.base.toNat (l.map Word.ofNat) := rfl
@[simp] theorem setResidues_cmdMem (s : State) (a : ArrayOperand) (l : List Nat) : (s.setResidues a l).cmdMem = s.cmdMem := rfl
@[simp] theorem setResidues_cfg (s : State) (a : ArrayOperand) (l : List Nat) : (s.setResidues a l).cfg = s.cfg := rfl
@[simp] theorem setResidues_epoch (s : State) (a : ArrayOperand) (l : List Nat) : (s.setResidues a l).epoch = s.epoch := rfl
@[simp] theorem setResidues_freeCount (s : State) (a : ArrayOperand) (l : List Nat) : (s.setResidues a l).freeCount = s.freeCount := rfl
@[simp] theorem setResidues_lastCommand (s : State) (a : ArrayOperand) (l : List Nat) : (s.setResidues a l).lastCommand = s.lastCommand := rfl

@[simp] theorem advance_regs (s : State) : (s.advance).regs = s.regs := rfl
@[simp] theorem advance_pc (s : State) : (s.advance).pc = s.pc + 1 := rfl
@[simp] theorem advance_status (s : State) : (s.advance).status = s.status := rfl
@[simp] theorem advance_cause (s : State) : (s.advance).cause = s.cause := rfl
@[simp] theorem advance_epc (s : State) : (s.advance).epc = s.epc := rfl
@[simp] theorem advance_finfo (s : State) : (s.advance).finfo = s.finfo := rfl
@[simp] theorem advance_dataMem (s : State) : (s.advance).dataMem = s.dataMem := rfl
@[simp] theorem advance_cmdMem (s : State) : (s.advance).cmdMem = s.cmdMem := rfl
@[simp] theorem advance_cfg (s : State) : (s.advance).cfg = s.cfg := rfl
@[simp] theorem advance_epoch (s : State) : (s.advance).epoch = s.epoch := rfl
@[simp] theorem advance_freeCount (s : State) : (s.advance).freeCount = s.freeCount := rfl
@[simp] theorem advance_lastCommand (s : State) : (s.advance).lastCommand = some s.pc := rfl

@[simp] theorem clearFault_regs (s : State) : (s.clearFault).regs = s.regs := rfl
@[simp] theorem clearFault_pc (s : State) : (s.clearFault).pc = s.pc := rfl
@[simp] theorem clearFault_status (s : State) : (s.clearFault).status = { s.status with fault := false } := rfl
@[simp] theorem clearFault_cause (s : State) : (s.clearFault).cause = 0 := rfl
@[simp] theorem clearFault_epc (s : State) : (s.clearFault).epc = 0 := rfl
@[simp] theorem clearFault_finfo (s : State) : (s.clearFault).finfo = 0 := rfl
@[simp] theorem clearFault_dataMem (s : State) : (s.clearFault).dataMem = s.dataMem := rfl
@[simp] theorem clearFault_cmdMem (s : State) : (s.clearFault).cmdMem = s.cmdMem := rfl
@[simp] theorem clearFault_cfg (s : State) : (s.clearFault).cfg = s.cfg := rfl
@[simp] theorem clearFault_epoch (s : State) : (s.clearFault).epoch = s.epoch := rfl
@[simp] theorem clearFault_freeCount (s : State) : (s.clearFault).freeCount = s.freeCount := rfl
@[simp] theorem clearFault_lastCommand (s : State) : (s.clearFault).lastCommand = s.lastCommand := rfl

@[simp] theorem raise_status (s : State) (t : Trap) : (s.raise t).status = { s.status with fault := true, run := false } := rfl
@[simp] theorem raise_cause (s : State) (t : Trap) : (s.raise t).cause = t.cause.code := rfl
@[simp] theorem raise_epc (s : State) (t : Trap) : (s.raise t).epc = s.pc := rfl
@[simp] theorem raise_finfo (s : State) (t : Trap) : (s.raise t).finfo = t.info := rfl

@[simp] theorem doReset_regs (s : State) : (s.doReset).regs = Vector.replicate 16 0 := rfl
@[simp] theorem doReset_pc (s : State) : (s.doReset).pc = 0 := rfl
@[simp] theorem doReset_status (s : State) : (s.doReset).status = ⟨false, false, false⟩ := rfl
@[simp] theorem doReset_cause (s : State) : (s.doReset).cause = 0 := rfl
@[simp] theorem doReset_epc (s : State) : (s.doReset).epc = 0 := rfl
@[simp] theorem doReset_finfo (s : State) : (s.doReset).finfo = 0 := rfl
@[simp] theorem doReset_dataMem (s : State) : (s.doReset).dataMem = [] := rfl
@[simp] theorem doReset_cmdMem (s : State) : (s.doReset).cmdMem = [] := rfl
@[simp] theorem doReset_cfg (s : State) : (s.doReset).cfg = s.cfg := rfl
@[simp] theorem doReset_epoch (s : State) : (s.doReset).epoch = s.epoch + 1 := rfl
@[simp] theorem doReset_freeCount (s : State) : (s.doReset).freeCount = s.freeCount := rfl
@[simp] theorem doReset_lastCommand (s : State) : (s.doReset).lastCommand = none := rfl

/-! ### Registers -/

/-- A register after a register write (R10). -/
theorem setReg_reg (s : State) (r q : Reg) (v : Word) :
    (s.setReg r v).reg q = if q = r then v else s.reg q := by
  simp only [State.reg, State.setReg, Fin.getElem_fin, Vector.getElem_set, Fin.ext_iff, eq_comm]

@[simp] theorem setReg_reg_self (s : State) (r : Reg) (v : Word) : (s.setReg r v).reg r = v := by
  simp [setReg_reg]

theorem setReg_reg_ne (s : State) {r q : Reg} (v : Word) (h : q ≠ r) : (s.setReg r v).reg q = s.reg q := by
  simp [setReg_reg, h]

@[simp] theorem setData_reg (s : State) (a : Nat) (l : List Word) (q : Reg) : (s.setData a l).reg q = s.reg q := rfl
@[simp] theorem setWords_reg (s : State) (a : ArrayOperand) (l : List Word) (q : Reg) : (s.setWords a l).reg q = s.reg q := rfl
@[simp] theorem setResidues_reg (s : State) (a : ArrayOperand) (l : List Nat) (q : Reg) : (s.setResidues a l).reg q = s.reg q := rfl
@[simp] theorem advance_reg (s : State) (q : Reg) : (s.advance).reg q = s.reg q := rfl
@[simp] theorem clearFault_reg (s : State) (q : Reg) : (s.clearFault).reg q = s.reg q := rfl

/-! ### Words of the stores -/

@[simp] theorem setReg_data (s : State) (r : Reg) (v : Word) (a : Nat) : (s.setReg r v).data a = s.data a := rfl
@[simp] theorem setReg_command (s : State) (r : Reg) (v : Word) (a : Nat) : (s.setReg r v).command a = s.command a := rfl
@[simp] theorem advance_data (s : State) (a : Nat) : (s.advance).data a = s.data a := rfl
@[simp] theorem advance_command (s : State) (a : Nat) : (s.advance).command a = s.command a := rfl
@[simp] theorem clearFault_data (s : State) (a : Nat) : (s.clearFault).data a = s.data a := rfl
@[simp] theorem clearFault_command (s : State) (a : Nat) : (s.clearFault).command a = s.command a := rfl
@[simp] theorem setData_command (s : State) (b : Nat) (l : List Word) (a : Nat) : (s.setData b l).command a = s.command a := rfl
@[simp] theorem setWords_command (s : State) (b : ArrayOperand) (l : List Word) (a : Nat) : (s.setWords b l).command a = s.command a := rfl

/-- A word of `M` outside a list written. -/
theorem setData_data_outside (s : State) (l : List Word) {a b : Nat} (h : b < a ∨ a + l.length ≤ b) :
    (s.setData a l).data b = s.data b := by
  simp [State.data, Memory.get?_writeList_outside l s.dataMem h]

/-- A word of `M` inside a list written. -/
theorem setData_data_inside (s : State) (l : List Word) (a : Nat) {i : Nat} (h : i < l.length) :
    (s.setData a l).data (a + i) = l[i] := by
  simp [State.data, Memory.get?_writeList_inside l s.dataMem a h]

@[simp] theorem dataList_length (s : State) (a n : Nat) : (s.dataList a n).length = n := by
  induction n generalizing a with
  | zero => rfl
  | succ n ih => simp [State.dataList, ih]

/-- Element `i` of `MemRead(a, n)`. -/
theorem dataList_getElem (s : State) (a n i : Nat) (h : i < (s.dataList a n).length) :
    (s.dataList a n)[i] = s.data (a + i) := by
  induction n generalizing a i with
  | zero => simp at h
  | succ n ih =>
    cases i with
    | zero => rfl
    | succ i =>
      simp only [dataList_length, Nat.add_lt_add_iff_right] at h
      simp only [State.dataList, List.getElem_cons_succ]
      rw [ih (a + 1) i (by simpa using h)]
      congr 1; omega

/-- A list read depends only on its words. -/
theorem dataList_congr {s t : State} {a n : Nat} (h : ∀ i < n, s.data (a + i) = t.data (a + i)) :
    s.dataList a n = t.dataList a n := by
  apply List.ext_getElem (by simp)
  intro i hi hj
  rw [dataList_getElem, dataList_getElem]
  exact h i (by simpa using hi)

/-- The words written are the words read back. -/
theorem setData_dataList (s : State) (a : Nat) (l : List Word) : (s.setData a l).dataList a l.length = l := by
  apply List.ext_getElem (by simp)
  intro i hi hj
  rw [dataList_getElem, setData_data_inside s l a hj]

end Sys2Proof.Machine.State
end

