-- ==== Sys2Proof/Laws/Ops.lean ====
section
/-! SUPPORT. What each shared operation can do, said once: the check chains, fault entry, and a command. -/

namespace Sys2Proof.Machine

open Sys2Proof

/-! ### Checks -/

@[simp] theorem require_eq_none {ok : Bool} {c : Cause} {i : Word} : require ok c i = none ↔ ok = true := by
  cases ok <;> simp [require]

/-- A check that fails raises its own trap and clobbers nothing. -/
theorem require_eq_some {ok : Bool} {c : Cause} {i : Word} {t : Trap} :
    require ok c i = some t ↔ ok = false ∧ t = { cause := c, info := i } := by
  cases ok <;> simp [require, eq_comm]

@[simp] theorem checkLen_eq_none {ok : Bool} : checkLen ok = none ↔ ok = true := require_eq_none

@[simp] theorem checkAddr_eq_none {s : State} {a : ArrayOperand} : s.checkAddr a = none ↔ a.Fits s := by
  simp [State.checkAddr, ArrayOperand.Fits]

@[simp] theorem checkAddrs_eq_none {s : State} {l : List ArrayOperand} :
    s.checkAddrs l = none ↔ ∀ a ∈ l, a.Fits s := by
  induction l with
  | nil => simp [State.checkAddrs]
  | cons a rest ih => simp [State.checkAddrs, ih]

theorem disjoint_iff {a b : ArrayOperand} : a.disjoint b = true ↔ a.Apart b := by
  simp [ArrayOperand.disjoint, ArrayOperand.Apart]

@[simp] theorem checkStrict_eq_none {a b : ArrayOperand} : checkStrict a b = none ↔ a.Apart b := by
  simp [checkStrict, disjoint_iff]

@[simp] theorem checkSameBase_eq_none {a b : ArrayOperand} : checkSameBase a b = none ↔ a.InPlaceOrApart b := by
  simp [checkSameBase, disjoint_iff, ArrayOperand.InPlaceOrApart]

@[simp] theorem checkBelow_eq_none {v : Word} {bound : Nat} : checkBelow v bound = none ↔ v.toNat < bound := by
  simp [checkBelow]

/-- The scan finds nothing exactly when every word is below the bound. -/
theorem firstNotBelow_eq_none {s : State} {bound a n : Nat} :
    s.firstNotBelow bound a n = none ↔ ∀ i < n, (s.data (a + i)).toNat < bound := by
  induction n generalizing a with
  | zero => simp [State.firstNotBelow]
  | succ n ih =>
    simp only [State.firstNotBelow]
    split_ifs with h
    · rw [ih]
      constructor
      · intro hall i hi
        cases i with
        | zero => simpa using h
        | succ i => simpa [Nat.add_assoc, Nat.add_comm 1] using hall i (by omega)
      · intro hall i hi
        simpa [Nat.add_assoc, Nat.add_comm 1] using hall (i + 1) (by omega)
    · simp only [false_iff, not_forall]
      exact ⟨0, by omega, by simpa using h⟩

/-- The scan answers the first word that is not below the bound. -/
theorem firstNotBelow_first {s : State} {bound a n k : Nat} (hk : k < n)
    (hbefore : ∀ i < k, (s.data (a + i)).toNat < bound) (hbad : ¬(s.data (a + k)).toNat < bound) :
    s.firstNotBelow bound a n = some (a + k) := by
  induction n generalizing a k with
  | zero => omega
  | succ n ih =>
    simp only [State.firstNotBelow]
    cases k with
    | zero => simp only [Nat.add_zero] at hbad ⊢; rw [if_neg hbad]
    | succ k =>
      rw [if_pos (by simpa using hbefore 0 (by omega)), ih (k := k) (by omega)]
      · congr 1; omega
      · intro i hi
        simpa [Nat.add_assoc, Nat.add_comm 1] using hbefore (i + 1) (by omega)
      · simpa [Nat.add_assoc, Nat.add_comm 1] using hbad

@[simp] theorem checkWords_eq_none {s : State} {bound : Nat} {a : ArrayOperand} :
    s.checkWords bound a = none ↔ s.WordsBelow bound a := by
  simp [State.checkWords, State.WordsBelow, firstNotBelow_eq_none]

@[simp] theorem checkScratch_eq_none {s : State} {user : Config.ScratchUser} {lens : List Nat}
    {dsts : List ArrayOperand} : s.checkScratch user lens dsts = none ↔ scratchShort s.cfg user lens = false := by
  simp [State.checkScratch]

/-! ### Fault entry -/

@[simp] theorem freeWords_length (c a n : Nat) : (freeWords c a n).length = n := by
  induction n generalizing a with
  | zero => rfl
  | succ n ih => simp [freeWords, ih]

/-- Clobbering arrays changes only data memory and the count of free values. -/
theorem clobber_frame (s : State) (l : List ArrayOperand) :
    ∃ m k, s.clobber l = { s with dataMem := m, freeCount := k } := by
  induction l generalizing s with
  | nil => exact ⟨_, _, rfl⟩
  | cons a rest ih =>
    obtain ⟨m, k, h⟩ := ih { s.setWords a (freeWords s.freeCount a.base.toNat a.len) with freeCount := s.freeCount + 1 }
    exact ⟨m, k, by rw [State.clobber, h]; rfl⟩

/-- Clobbering arrays keeps the canonical form and, for arrays inside `M`, the address bound. -/
theorem clobber_stores (s : State) (l : List ArrayOperand) (hwf : s.dataMem.wf)
    (hin : s.dataMem.within s.cfg.memWords) (hl : ∀ a ∈ l, a.Fits s) :
    (s.clobber l).dataMem.wf ∧ (s.clobber l).dataMem.within s.cfg.memWords := by
  induction l generalizing s with
  | nil => exact ⟨hwf, hin⟩
  | cons a rest ih =>
    have ha : a.Fits s := hl a (by simp)
    refine ih _ (Memory.wf_writeList _ hwf _) (Memory.within_writeList _ hin ?_) fun b hb => hl b (by simp [hb])
    simpa [ArrayOperand.Fits] using ha

/-- Words outside the arrays keep their values. -/
theorem clobber_data (s : State) (l : List ArrayOperand) (b : Nat) (h : ∀ a ∈ l, ¬a.Holds b) :
    (s.clobber l).data b = s.data b := by
  induction l generalizing s with
  | nil => rfl
  | cons a rest ih =>
    rw [State.clobber, ih _ fun x hx => h x (by simp [hx])]
    have ha := h a (by simp)
    simp only [ArrayOperand.Holds] at ha
    exact State.setData_data_outside s _ (by rw [freeWords_length]; omega)

/-- A fault that clobbers nothing is exactly the entry of R210. -/
theorem raise_plain (s : State) (c : Cause) (i : Word) :
    s.raise { cause := c, info := i } = s.faulted c i := rfl

/-- Everything but the fault record and the clobbered arrays is unchanged by a fault (R210, R207). -/
theorem raise_frame (s : State) (t : Trap) :
    ∃ m k, s.raise t =
      { s with
        dataMem := m, freeCount := k, cause := t.cause.code, epc := s.pc, finfo := t.info
        status := { s.status with fault := true, run := false } } := by
  obtain ⟨m, k, h⟩ := clobber_frame s t.clobbers
  exact ⟨m, k, by rw [State.raise, h]⟩

@[simp] theorem raise_pc (s : State) (t : Trap) : (s.raise t).pc = s.pc := by
  obtain ⟨m, k, h⟩ := raise_frame s t; rw [h]

@[simp] theorem raise_regs (s : State) (t : Trap) : (s.raise t).regs = s.regs := by
  obtain ⟨m, k, h⟩ := raise_frame s t; rw [h]

@[simp] theorem raise_cmdMem (s : State) (t : Trap) : (s.raise t).cmdMem = s.cmdMem := by
  obtain ⟨m, k, h⟩ := raise_frame s t; rw [h]

@[simp] theorem raise_cfg (s : State) (t : Trap) : (s.raise t).cfg = s.cfg := by
  obtain ⟨m, k, h⟩ := raise_frame s t; rw [h]

@[simp] theorem raise_lastCommand (s : State) (t : Trap) : (s.raise t).lastCommand = s.lastCommand := by
  obtain ⟨m, k, h⟩ := raise_frame s t; rw [h]

@[simp] theorem raise_epoch (s : State) (t : Trap) : (s.raise t).epoch = s.epoch := by
  obtain ⟨m, k, h⟩ := raise_frame s t; rw [h]

/-! ### A command -/

/-- A command whose checks pass completes. -/
theorem command_completes {s : State} {trap : Option Trap} {effect : Unit → State} (h : trap = none) :
    command s trap effect = .next (effect ()).advance := by
  rw [h]; rfl

/-- A command whose first failed check raises `t` takes that fault. -/
theorem command_faults {s : State} {trap : Option Trap} {effect : Unit → State} {t : Trap} (h : trap = some t) :
    command s trap effect = .next (s.raise t) := by
  rw [h]; rfl

/-- Everything a command can do. -/
theorem command_cases {s : State} {trap : Option Trap} {effect : Unit → State} {u : State}
    (h : command s trap effect = .next u) :
    (∃ t, trap = some t ∧ u = s.raise t) ∨ (trap = none ∧ u = (effect ()).advance) := by
  cases trap with
  | none => exact .inr ⟨rfl, by simpa [command] using h.symm⟩
  | some t => exact .inl ⟨t, rfl, by simpa [command] using h.symm⟩

end Sys2Proof.Machine
end

