-- ==== Sys2Proof/Laws/PerInstr.lean ====
section
/-! SUPPORT. Statements made of every command, one lemma a constructor. Family `EncodedFields`: the decoder, given the
fields the encoder makes of a well-formed command, gives the command back, every operand in its place (30_encoding.md
R71, R73, R76, R78). -/

namespace Sys2Proof.Laws.EncodedFields

open Sys2Proof

/-- The fields of a well-formed command decode to it. -/
def Statement (i : Instr) : Prop := i.WellFormed → decodeFields (encodeFields i) = .ok i

/-- The three legal prime indices (R75). -/
theorem primeIndex_cases {pi : BitVec 2} (h : pi ≠ 3) : pi = 0 ∨ pi = 1 ∨ pi = 2 := by
  revert h
  revert pi
  decide

theorem halt : Statement (.halt) := by
  intro _
  rfl

theorem nop : Statement (.nop) := by
  intro _
  rfl

theorem li (rd : Reg) (imm : BitVec 32) : Statement (.li rd imm) := by
  intro _
  have h : decodeFields (encodeFields (.li rd imm)) = .ok (.li rd (Fields.withImm imm _).imm32) := rfl
  rw [h, Fields.imm32_withImm]

theorem lih (rd : Reg) (imm : BitVec 32) : Statement (.lih rd imm) := by
  intro _
  have h : decodeFields (encodeFields (.lih rd imm)) = .ok (.lih rd (Fields.withImm imm _).imm32) := rfl
  rw [h, Fields.imm32_withImm]

theorem mov (rd ra : Reg) : Statement (.mov rd ra) := by
  intro _
  rfl

theorem ldw (rd ra : Reg) (imm : BitVec 32) : Statement (.ldw rd ra imm) := by
  intro _
  have h : decodeFields (encodeFields (.ldw rd ra imm)) = .ok (.ldw rd ra (Fields.withImm imm _).imm32) := rfl
  rw [h, Fields.imm32_withImm]

theorem stw (rd ra : Reg) (imm : BitVec 32) : Statement (.stw rd ra imm) := by
  intro _
  have h : decodeFields (encodeFields (.stw rd ra imm)) = .ok (.stw rd ra (Fields.withImm imm _).imm32) := rfl
  rw [h, Fields.imm32_withImm]

theorem add (rd ra rb rc re rf : Reg) : Statement (.add rd ra rb rc re rf) := by
  intro _
  rfl

theorem sub (rd ra rb rc re rf : Reg) : Statement (.sub rd ra rb rc re rf) := by
  intro _
  rfl

theorem sadd (rd ra rb rc re : Reg) : Statement (.sadd rd ra rb rc re) := by
  intro _
  rfl

theorem mulw (rd ra rb rc : Reg) : Statement (.mulw rd ra rb rc) := by
  intro _
  rfl

theorem smul (rd ra rb rc re : Reg) : Statement (.smul rd ra rb rc re) := by
  intro _
  rfl

theorem bmul (ra rb rc re rf : Reg) : Statement (.bmul ra rb rc re rf) := by
  intro _
  rfl

theorem shl10 (ra rb rc re rf : Reg) : Statement (.shl10 ra rb rc re rf) := by
  intro _
  rfl

theorem divw (rd ra rb rc re : Reg) : Statement (.divw rd ra rb rc re) := by
  intro _
  rfl

theorem sdiv (rd ra rb rc re : Reg) : Statement (.sdiv rd ra rb rc re) := by
  intro _
  rfl

theorem bdivmod (rd ra rb rc re rf rg : Reg) : Statement (.bdivmod rd ra rb rc re rf rg) := by
  intro _
  rfl

theorem shr10 (rd ra rb rc re : Reg) : Statement (.shr10 rd ra rb rc re) := by
  intro _
  rfl

theorem addmod (rd ra rb rc : Reg) : Statement (.addmod rd ra rb rc) := by
  intro _
  rfl

theorem submod (rd ra rb rc : Reg) : Statement (.submod rd ra rb rc) := by
  intro _
  rfl

theorem mulmod (rd ra rb rc : Reg) : Statement (.mulmod rd ra rb rc) := by
  intro _
  rfl

theorem mulmodp (rd ra rb : Reg) (pi : BitVec 2) : Statement (.mulmodp rd ra rb pi) := by
  intro h
  have hpi : pi ≠ 3 := by simpa [Instr.WellFormed, Instr.primeIndex?] using h
  rcases primeIndex_cases hpi with rfl | rfl | rfl <;> rfl

theorem mulmod2 (rd ra rb rc re rf rg : Reg) : Statement (.mulmod2 rd ra rb rc re rf rg) := by
  intro _
  rfl

theorem mulmod2c (rd ra rb rc re rg : Reg) : Statement (.mulmod2c rd ra rb rc re rg) := by
  intro _
  rfl

theorem powmod (rd ra rb rc : Reg) : Statement (.powmod rd ra rb rc) := by
  intro _
  rfl

theorem redp (rd ra rb : Reg) (pi : BitVec 2) : Statement (.redp rd ra rb pi) := by
  intro h
  have hpi : pi ≠ 3 := by simpa [Instr.WellFormed, Instr.primeIndex?] using h
  rcases primeIndex_cases hpi with rfl | rfl | rfl <;> rfl

theorem nttstg (ra re rf : Reg) (pi : BitVec 2) (inv : Bool) : Statement (.nttstg ra re rf pi inv) := by
  intro h
  have hpi : pi ≠ 3 := by simpa [Instr.WellFormed, Instr.primeIndex?] using h
  rcases primeIndex_cases hpi with rfl | rfl | rfl <;> cases inv <;> rfl

theorem nttrev (ra re : Reg) : Statement (.nttrev ra re) := by
  intro _
  rfl

theorem nttfwd (ra re : Reg) (pi : BitVec 2) : Statement (.nttfwd ra re pi) := by
  intro h
  have hpi : pi ≠ 3 := by simpa [Instr.WellFormed, Instr.primeIndex?] using h
  rcases primeIndex_cases hpi with rfl | rfl | rfl <;> rfl

theorem nttinv (ra re : Reg) (pi : BitVec 2) : Statement (.nttinv ra re pi) := by
  intro h
  have hpi : pi ≠ 3 := by simpa [Instr.WellFormed, Instr.primeIndex?] using h
  rcases primeIndex_cases hpi with rfl | rfl | rfl <;> rfl

theorem nttconv (ra rb re : Reg) (pi : BitVec 2) : Statement (.nttconv ra rb re pi) := by
  intro h
  have hpi : pi ≠ 3 := by simpa [Instr.WellFormed, Instr.primeIndex?] using h
  rcases primeIndex_cases hpi with rfl | rfl | rfl <;> rfl

theorem nttaconv (ra re : Reg) (pi : BitVec 2) : Statement (.nttaconv ra re pi) := by
  intro h
  have hpi : pi ≠ 3 := by simpa [Instr.WellFormed, Instr.primeIndex?] using h
  rcases primeIndex_cases hpi with rfl | rfl | rfl <;> rfl

theorem nttlen (rd ra : Reg) : Statement (.nttlen rd ra) := by
  intro _
  rfl

theorem crt3 (rd ra rb rc re rf : Reg) : Statement (.crt3 rd ra rb rc re rf) := by
  intro _
  rfl

theorem kmul (ra rb rc re rf : Reg) : Statement (.kmul ra rb rc re rf) := by
  intro _
  rfl

theorem kmuln (ra rb rc re rf : Reg) : Statement (.kmuln ra rb rc re rf) := by
  intro _
  rfl

theorem nmul (ra rb rc re rf : Reg) : Statement (.nmul ra rb rc re rf) := by
  intro _
  rfl

end Sys2Proof.Laws.EncodedFields
end

