-- ==== Sys2Proof/Laws/Rules.lean ====
section
/-! SUPPORT. How a meaning's chain of checks is held against the lines of its rule (`State.Obeys`), one lemma a kind of
line, and what a completed command leaves. -/

namespace Sys2Proof.Machine

open Sys2Proof

variable {s : State} {i : Instr} {done : State → Prop} {l : List RuleCheck} {rest : Option Trap} {eff : Unit → State}

/-- A command's last check, as a check with none after it. -/
theorem command_last {t : Option Trap} (h : exec i s = command s t eff) : exec i s = command s (t <|> none) eff := by
  rw [h]; cases t <;> rfl

/-- The ILLEGAL check of a command with a legal prime index passes. -/
theorem checkPrimeIndex_eq_none {j : Instr} (h : j.WellFormed) : checkPrimeIndex j = none := by
  rw [checkPrimeIndex, require_eq_none]; exact decide_eq_true h

/-- A line "if not ok: raise" against the same check of a meaning. -/
theorem obeys_unless {ok : Prop} [Decidable ok] {b : Bool} {c : Cause} {inf : Word}
    (h : exec i s = command s (require b c inf <|> rest) eff) (hb : b = true ↔ ok)
    (hr : ok → exec i s = command s rest eff → s.Obeys i done l) :
    s.Obeys i done (.unless ok c inf :: l) := by
  refine ⟨fun hn => ?_, fun hy => ?_⟩
  · have : b = false := by simpa using fun hh => hn (hb.1 hh)
    rw [h, this]; rfl
  · have : b = true := hb.2 hy
    apply hr hy; rw [h, this]; rfl

/-- A line "check words of a" against `checkWords`. -/
theorem obeys_words {bound : Nat} {a : ArrayOperand}
    (h : exec i s = command s (s.checkWords bound a <|> rest) eff)
    (hr : s.WordsBelow bound a → exec i s = command s rest eff → s.Obeys i done l) :
    s.Obeys i done (.words bound a :: l) := by
  refine ⟨fun addr hf => ?_, fun hy => ?_⟩
  · obtain ⟨k, hk, rfl, hbef, hbad⟩ := hf
    have := firstNotBelow_first (s := s) (bound := bound) (a := a.base.toNat) hk hbef hbad
    rw [h, State.checkWords, this]; rfl
  · apply hr hy; rw [h, checkWords_eq_none.2 hy]; rfl

/-- The range checks of a rule against `checkAddrs`. -/
theorem obeys_range {ls : List ArrayOperand}
    (h : exec i s = command s (s.checkAddrs ls <|> rest) eff)
    (hr : (∀ a ∈ ls, a.Fits s) → exec i s = command s rest eff → s.Obeys i done l) :
    s.Obeys i done (s.rangeChecks ls ++ l) := by
  induction ls with
  | nil => exact hr (by simp) h
  | cons a ls ih =>
    have h' : exec i s = command s (require (decide (a.base.toNat + a.len ≤ s.cfg.memWords)) .addr a.base <|> (s.checkAddrs ls <|> rest)) eff := by
      rw [h]; simp only [State.checkAddrs, State.checkAddr]
      cases require (decide (a.base.toNat + a.len ≤ s.cfg.memWords)) .addr a.base <;> rfl
    refine obeys_unless h' (by simp) fun ha he => ih he fun hall he' => hr ?_ he'
    intro x hx
    rcases List.mem_cons.1 hx with rfl | hx
    · exact ha
    · exact hall x hx

/-- A strict overlap line against `checkStrict`. -/
theorem obeys_strict {a b : ArrayOperand}
    (h : exec i s = command s (checkStrict a b <|> rest) eff)
    (hr : a.Apart b → exec i s = command s rest eff → s.Obeys i done l) :
    s.Obeys i done (strictCheck a b :: l) :=
  obeys_unless h disjoint_iff hr

/-- A same-base overlap line against `checkSameBase`. -/
theorem obeys_same {a b : ArrayOperand}
    (h : exec i s = command s (checkSameBase a b <|> rest) eff)
    (hr : a.InPlaceOrApart b → exec i s = command s rest eff → s.Obeys i done l) :
    s.Obeys i done (sameBaseCheck a b :: l) :=
  obeys_unless h (by simp [disjoint_iff]) hr

/-- An ALLOC fault leaves what R207 says. -/
theorem allocFaulted_raise (dsts : List ArrayOperand) :
    s.AllocFaulted (s.raise { cause := .alloc, info := 0, clobbers := dsts }) dsts := by
  constructor <;> try rfl
  · simp
  · intro r; simp [State.reg]
  · intro b hb; exact clobber_data s dsts b hb
  · intro b
    have := raise_frame s { cause := .alloc, info := 0, clobbers := dsts }
    obtain ⟨m, k, h⟩ := this
    rw [h]; rfl
  · simp

/-- A scratch line against `checkScratch`. -/
theorem obeys_scratch {user : Config.ScratchUser} {lens : List Nat} {dsts : List ArrayOperand}
    (h : exec i s = command s (s.checkScratch user lens dsts <|> rest) eff)
    (hr : scratchShort s.cfg user lens = false → exec i s = command s rest eff → s.Obeys i done l) :
    s.Obeys i done (.scratch user lens dsts :: l) := by
  refine ⟨fun hs => ⟨_, ?_, allocFaulted_raise dsts⟩, fun hy => ?_⟩
  · rw [h, State.checkScratch, hs]; rfl
  · apply hr hy; rw [h, State.checkScratch, hy]; rfl

/-- All lines passed: the command completes. -/
theorem obeys_nil (h : exec i s = command s none eff) (hd : done (eff ()).advance) : s.Obeys i done [] :=
  ⟨_, h, hd⟩

/-! ### What a completed command leaves -/

/-- A command that writes one register. -/
theorem completes_setReg (r : Reg) (v : Word) : s.Completes (s.setReg r v).advance [r] [] := by
  constructor <;> try (intros; rfl)
  · intro q hq
    simp only [State.advance_reg]
    exact State.setReg_reg_ne _ _ (by simpa using hq)

/-- A command that writes one array. -/
theorem completes_words (a : ArrayOperand) (ws : List Word) (hl : ws.length = a.len) :
    s.Completes (s.setWords a ws).advance [] [a] := by
  constructor <;> try (intros; rfl)
  · intro b hb
    simp only [ArrayOperand.Holds, List.mem_singleton, forall_eq] at hb
    exact State.setData_data_outside s ws (by omega)

/-- A command that writes one array and one register. -/
theorem completes_words_reg (a : ArrayOperand) (ws : List Word) (hl : ws.length = a.len) (r : Reg) (v : Word) :
    s.Completes ((s.setWords a ws).setReg r v).advance [r] [a] := by
  constructor <;> try (intros; rfl)
  · intro q hq
    simp only [State.advance_reg]
    exact State.setReg_reg_ne _ _ (by simpa using hq)
  · intro b hb
    simp only [ArrayOperand.Holds, List.mem_singleton, forall_eq] at hb
    exact State.setData_data_outside s ws (by omega)

/-- The words written to an array are read back. -/
@[simp] theorem words_setWords_self (a : ArrayOperand) (ws : List Word) (hl : ws.length = a.len) :
    (s.setWords a ws).words a = ws := by
  rw [State.words, ← hl]; exact State.setData_dataList s _ ws

@[simp] theorem words_advance (a : ArrayOperand) : s.advance.words a = s.words a :=
  State.dataList_congr fun _ _ => rfl
@[simp] theorem words_setReg (r v) (a : ArrayOperand) : (s.setReg r v).words a = s.words a :=
  State.dataList_congr fun _ _ => rfl

end Sys2Proof.Machine
end

