-- ==== Sys2Proof/Tests/Slice0.lean ====
section
/-! SUPPORT. Tests. Every expected result is the spec's: a vector of 95_test_vectors.md or 96_test_vectors_2.md, a
constant it prints, or an encoding written out from R71 and R76. The theorems named `witness_` show states and operands
that meet the hypotheses of the statements in Certificates/Slice0/Obligations.lean, clause by clause. -/

namespace Sys2Proof.Tests

open Sys2Proof Sys2Proof.Machine

set_option Elab.async false

/-! ### Well-formedness (R75): the one check, an ill-formed command for each command it is made on -/

theorem test_wf_mulmodp : ¬(Instr.mulmodp 1 2 3 3).WellFormed ∧ (Instr.mulmodp 1 2 3 2).WellFormed := by decide
theorem test_wf_redp : ¬(Instr.redp 1 2 3 3).WellFormed ∧ (Instr.redp 1 2 3 2).WellFormed := by decide
theorem test_wf_nttstg : ¬(Instr.nttstg 1 2 3 3 true).WellFormed ∧ (Instr.nttstg 1 2 3 2 true).WellFormed := by decide
theorem test_wf_nttfwd : ¬(Instr.nttfwd 1 2 3).WellFormed ∧ (Instr.nttfwd 1 2 2).WellFormed := by decide
theorem test_wf_nttinv : ¬(Instr.nttinv 1 2 3).WellFormed ∧ (Instr.nttinv 1 2 2).WellFormed := by decide
theorem test_wf_nttconv : ¬(Instr.nttconv 1 3 2 3).WellFormed ∧ (Instr.nttconv 1 3 2 2).WellFormed := by decide
theorem test_wf_nttaconv : ¬(Instr.nttaconv 1 2 3).WellFormed ∧ (Instr.nttaconv 1 2 2).WellFormed := by decide

/-! ### Decoding -/

/-- The words the spec's vectors give the sequencer and move commands (95_test_vectors.md, 96_test_vectors_2.md). -/
theorem test_decode_sequencer :
    decode 0x0100000000000000 = .ok .halt
      ∧ decode 0x0200000000000000 = .ok .nop
      ∧ decode 0x0330000000000005 = .ok (.li 3 0x5)
      ∧ decode 0x043000008AC72304 = .ok (.lih 3 0x8AC72304)
      ∧ decode 0x0541000000000000 = .ok (.mov 4 1)
      ∧ decode 0x0612000000000002 = .ok (.ldw 1 2 0x2)
      ∧ decode 0x07120000FFFFFFFF = .ok (.stw 1 2 0xFFFFFFFF) := by
  refine ⟨?_, ?_, ?_, ?_, ?_, ?_, ?_⟩ <;> rfl

/-- The words the spec's vectors give unit 1 (95_test_vectors.md, 96_test_vectors_2.md). -/
theorem test_decode_unit_1 :
    decode 0x1012345600000000 = .ok (.add 1 2 3 4 5 6)
      ∧ decode 0x1112345600000000 = .ok (.sub 1 2 3 4 5 6)
      ∧ decode 0x1212345000000000 = .ok (.sadd 1 2 3 4 5) := by
  refine ⟨?_, ?_, ?_⟩ <;> rfl

/-- The words the spec's vectors give unit 2 (95_test_vectors.md, 96_test_vectors_2.md). -/
theorem test_decode_unit_2 :
    decode 0x1812340000000000 = .ok (.mulw 1 2 3 4)
      ∧ decode 0x1912345000000000 = .ok (.smul 1 2 3 4 5)
      ∧ decode 0x1A02345600000000 = .ok (.bmul 2 3 4 5 6)
      ∧ decode 0x1B02345600000000 = .ok (.shl10 2 3 4 5 6) := by
  refine ⟨?_, ?_, ?_, ?_⟩ <;> rfl

/-- The words the spec's vectors give unit 3 (95_test_vectors.md, 96_test_vectors_2.md). -/
theorem test_decode_unit_3 :
    decode 0x2012345000000000 = .ok (.divw 1 2 3 4 5)
      ∧ decode 0x2112345000000000 = .ok (.sdiv 1 2 3 4 5)
      ∧ decode 0x2212345670000000 = .ok (.bdivmod 1 2 3 4 5 6 7)
      ∧ decode 0x2312345000000000 = .ok (.shr10 1 2 3 4 5) := by
  refine ⟨?_, ?_, ?_, ?_⟩ <;> rfl

/-- The words the spec's vectors give units 4 to 6 (95_test_vectors.md, 96_test_vectors_2.md). -/
theorem test_decode_units_4_to_6 :
    decode 0x2812340000000000 = .ok (.addmod 1 2 3 4)
      ∧ decode 0x2912340000000000 = .ok (.submod 1 2 3 4)
      ∧ decode 0x3012340000000000 = .ok (.mulmod 1 2 3 4)
      ∧ decode 0x3112300000000000 = .ok (.mulmodp 1 2 3 0)
      ∧ decode 0x3212345670000000 = .ok (.mulmod2 1 2 3 4 5 6 7)
      ∧ decode 0x3312345070000000 = .ok (.mulmod2c 1 2 3 4 5 7)
      ∧ decode 0x3412340000000000 = .ok (.powmod 1 2 3 4)
      ∧ decode 0x3812300000000000 = .ok (.redp 1 2 3 0) := by
  refine ⟨?_, ?_, ?_, ?_, ?_, ?_, ?_, ?_⟩ <;> rfl

/-- The words the spec's vectors give units 7 to 9 (95_test_vectors.md, 96_test_vectors_2.md). -/
theorem test_decode_units_7_to_9 :
    decode 0x4001002300000000 = .ok (.nttstg 1 2 3 0 false)
      ∧ decode 0x4101002000000000 = .ok (.nttrev 1 2)
      ∧ decode 0x4801002000000000 = .ok (.nttfwd 1 2 0)
      ∧ decode 0x4901002000000000 = .ok (.nttinv 1 2 0)
      ∧ decode 0x4A01302000000000 = .ok (.nttconv 1 3 2 0)
      ∧ decode 0x4B01002000000000 = .ok (.nttaconv 1 2 0)
      ∧ decode 0x4C12000000000000 = .ok (.nttlen 1 2) := by
  refine ⟨?_, ?_, ?_, ?_, ?_, ?_, ?_⟩ <;> rfl

/-- The words the spec's vectors give units 10 and 11 (95_test_vectors.md, 96_test_vectors_2.md). -/
theorem test_decode_units_10_and_11 :
    decode 0x5012345600000000 = .ok (.crt3 1 2 3 4 5 6)
      ∧ decode 0x5802345600000000 = .ok (.kmul 2 3 4 5 6)
      ∧ decode 0x5902345600000000 = .ok (.kmuln 2 3 4 5 6)
      ∧ decode 0x5A02345600000000 = .ok (.nmul 2 3 4 5 6) := by
  refine ⟨?_, ?_, ?_, ?_⟩ <;> rfl

/-- Fields at their places, with every field of a row different: BDIVMOD, and NTTSTG with `inv` and `pi` set. -/
theorem test_decode_every_field :
    decode (0x22#8 ++ 0xF#4 ++ 0xE#4 ++ 0xD#4 ++ 0xC#4 ++ 0xB#4 ++ 0xA#4 ++ 0x9#4 ++ 0#25 ++ 0#1 ++ 0#2)
        = .ok (.bdivmod 15 14 13 12 11 10 9)
      ∧ decode (0x40#8 ++ 0#4 ++ 0xF#4 ++ 0#4 ++ 0#4 ++ 0xE#4 ++ 0xD#4 ++ 0#4 ++ 0#25 ++ 1#1 ++ 2#2)
        = .ok (.nttstg 15 14 13 2 true) := by
  refine ⟨?_, ?_⟩ <;> rfl

/-- The illegal words of vectors S12 to S18: an opcode of no row, a must-be-zero bit, `pi = 3`. -/
theorem test_decode_illegal_words :
    decode 0 = .error .unassignedOpcode
      ∧ decode 0x0100000000000001 = .error .mustBeZero
      ∧ decode 0x1012345670000000 = .error .mustBeZero
      ∧ decode 0x3112300000000003 = .error .primeIndexThree
      ∧ decode 0x6000000000000000 = .error .unassignedOpcode
      ∧ decode 0x4801002000000004 = .error .mustBeZero
      ∧ decode 0x0311000000000001 = .error .mustBeZero := by
  refine ⟨?_, ?_, ?_, ?_, ?_, ?_, ?_⟩ <;> rfl

/-- The host's two entry points: ADD's word from the opcode table's numbering, and the step that runs LI. -/
theorem test_table_word_and_fetch :
    decodeTableWord 64 0x1012345600000000 = some (.add 1 2 3 4 5 6)
      ∧ decodeTableWord 64 0x6000000000000000 = none
      ∧ step (State.reset.withFetchWord 64 0x0330000000000005)
        = .next ((State.reset.withFetchWord 64 0x0330000000000005).setReg 3 5).advance := by
  refine ⟨?_, ?_, ?_⟩ <;> rfl

/-! ### One step of each command -/

/-- A state with some registers and some words of `M` written. -/
def written (s : State) (regs : List (Nat × Nat)) (mem : List (Nat × List Nat)) : State :=
  let s := regs.foldl (fun s r => s.setReg (Fin.ofNat 16 r.1) (Word.ofNat r.2)) s
  mem.foldl (fun s m => s.setData m.1 (m.2.map Word.ofNat)) s

/-- The state after reset, so written, running at `pc` with a command word there. -/
def machine (regs : List (Nat × Nat)) (mem : List (Nat × List Nat)) (pc word : Nat) : State :=
  { written State.reset regs mem with
    pc := Word.ofNat pc, status := ⟨true, false, false⟩, cmdMem := [(pc, Word.ofNat word)] }

/-- Whether a step from `s` completes its command, leaving exactly the listed registers and words of `M` written, the
status given, and `pc` one more. -/
def completes (s : State) (regs : List (Nat × Nat)) (mem : List (Nat × List Nat))
    (status : Status := ⟨true, false, false⟩) : Bool :=
  match step s with
  | .next t => t == { written s regs mem with pc := s.pc + 1, status := status, lastCommand := some s.pc }
  | _ => false

/-- Whether a step from `s` takes a fault, leaving all else as it was. -/
def traps (s : State) (cause : Cause) (info : Nat) : Bool :=
  match step s with
  | .next t =>
    t == { s with cause := cause.code, epc := s.pc, finfo := Word.ofNat info, status := ⟨false, false, true⟩ }
  | _ => false

/-- Vector S1: HALT: rule R91. -/
theorem test_halt_stops :
    completes (machine [] [] 7 0x0100000000000000) [] [] ⟨false, true, false⟩ := by
  decide +kernel

/-- Vector S2: NOP: rule R92. -/
theorem test_nop_advances :
    completes (machine [] [] 3 0x0200000000000000) [] [] := by
  decide +kernel

/-- Vector S3: LI x3, 0x5: upper half cleared. -/
theorem test_li_clears_the_upper_half :
    completes (machine [(3, 18446744073709551615)] [] 0 0x0330000000000005) [(3, 5)] [] := by
  decide +kernel

/-- Vector S4: LIH x3, 0x8AC72304: result is `RADIX − 1`. -/
theorem test_lih_sets_the_upper_half :
    completes (machine [(3, 2313682943)] [] 0 0x043000008AC72304) [(3, 9999999999999999999)] [] := by
  decide +kernel

/-- Vector S5: MOV x4, x1. -/
theorem test_mov_copies :
    completes (machine [(1, 77)] [] 0 0x0541000000000000) [(4, 77)] [] := by
  decide +kernel

/-- Vector S9: LDW x2, 0(x2): `rd = ra`; loaded word not checked against `RADIX`. -/
theorem test_ldw_into_its_base_unchecked :
    completes (machine [(2, 256)] [(0x100, [18446744073709551615])] 0 0x0622000000000000) [(2, 18446744073709551615)] [] := by
  decide +kernel

/-- Vector S8: LDW x1, -1(x2): address wraps to `2^64 − 1`, then fails the range check. -/
theorem test_ldw_wraps_then_traps :
    traps (machine [(2, 0)] [] 0 0x06120000FFFFFFFF) .addr 0xFFFFFFFFFFFFFFFF := by
  decide +kernel

/-- Vector S7: STW x1, -1(x2): negative displacement. -/
theorem test_stw_negative_displacement :
    completes (machine [(1, 9), (2, 256)] [] 0 0x07120000FFFFFFFF) [] [(0xFF, [9])] := by
  decide +kernel

/-- Vector S10: STW x1, 1(x2): `ea = MEM_WORDS`. -/
theorem test_stw_at_the_end_of_memory_traps :
    traps (machine [(1, 5), (2, 1048575)] [] 0 0x0712000000000001) .addr 0x100000 := by
  decide +kernel

/-- Vector S11: no command: fetch beyond `C`: rule R202. -/
theorem test_fetch_beyond_the_store_traps :
    traps (machine [] [] 4096 0x0000000000000000) .fetch 0x1000 := by
  decide +kernel

/-- Vector S14: no command: ADD with `rg ≠ 0`. -/
theorem test_illegal_word_traps :
    traps (machine [] [] 0 0x1012345670000000) .illegal 0x1012345670000000 := by
  decide +kernel

/-- Vector A5: ADD x1, x2, x3, x4, x5, x6: `w = u = v`: doubling in place. -/
theorem test_add_doubles_in_place :
    completes (machine [(2, 256), (3, 256), (4, 256), (5, 2), (6, 2)] [(0x100, [6000000000000000000, 1])] 0 0x1012345600000000) [(1, 0)] [(0x100, [2000000000000000000, 3])] := by
  decide +kernel

/-- Vector A6: ADD x5, x2, x3, x4, x5, x6: `rd = re`: length register overwritten by the carry (0); sources read first. -/
theorem test_add_carry_over_its_length_register :
    completes (machine [(2, 768), (3, 256), (4, 512), (5, 1), (6, 1)] [(0x100, [3]), (0x200, [4])] 0 0x1052345600000000) [(5, 0)] [(0x300, [7])] := by
  decide +kernel

/-- Vector A8: SUB x1, x2, x3, x4, x5, x6: borrow taken from the second word, none out. -/
theorem test_sub_borrows_from_the_second_word :
    completes (machine [(2, 768), (3, 256), (4, 512), (5, 2), (6, 1)] [(0x200, [1]), (0x100, [0, 1])] 0 0x1112345600000000) [(1, 0)] [(0x300, [9999999999999999999, 0])] := by
  decide +kernel

/-- Vector A10: SUB x1, x2, x3, x4, x5, x6: `U < V`: words hold `RADIX^2 − 1`. -/
theorem test_sub_below_zero :
    completes (machine [(2, 768), (3, 256), (4, 512), (5, 2), (6, 2)] [(0x100, [1, 2]), (0x200, [2, 2])] 0 0x1112345600000000) [(1, 1)] [(0x300, [9999999999999999999, 9999999999999999999])] := by
  decide +kernel

/-- Vector A13: SADD x1, x2, x3, x4, x5: in place. -/
theorem test_sadd_in_place :
    completes (machine [(2, 256), (3, 256), (4, 9999999999999999999), (5, 2)] [(0x100, [1, 0])] 0 0x1212345000000000) [(1, 0)] [(0x100, [0, 1])] := by
  decide +kernel

/-- Vector A21: SADD x1, x2, x3, x4, x5: RANGE (register operand) is checked before BADWORD. -/
theorem test_sadd_range_before_badword :
    traps (machine [(2, 768), (3, 256), (4, 10000000000000000000), (5, 1)] [(0x100, [10000000000000000000])] 0 0x1212345000000000) .range 0x8AC7230489E80000 := by
  decide +kernel

/-- Vector M1: MULW x1, x2, x3, x4: `x1` high, `x2` low. -/
theorem test_mulw_high_and_low :
    completes (machine [(3, 18446744073709551615), (4, 18446744073709551615)] [] 0 0x1812340000000000) [(1, 18446744073709551614), (2, 1)] [] := by
  decide +kernel

/-- Vector M2: MULW x1, x1, x3, x4: `rd = ra`: the high word remains. -/
theorem test_mulw_one_register_keeps_the_high_word :
    completes (machine [(3, 9999999999999999999), (4, 9999999999999999999)] [] 0 0x1811340000000000) [(1, 5421010862427522168)] [] := by
  decide +kernel

/-- Vector M4: SMUL x1, x2, x3, x4, x5: largest carry `RADIX − 2`. -/
theorem test_smul_largest_carry :
    completes (machine [(2, 768), (3, 256), (4, 9999999999999999999), (5, 1)] [(0x100, [9999999999999999999])] 0 0x1912345000000000) [(1, 9999999999999999998)] [(0x300, [1])] := by
  decide +kernel

/-- Vector M6: SMUL x1, x2, x3, x4, x5: in place, by `2^32`. -/
theorem test_smul_in_place :
    completes (machine [(2, 256), (3, 256), (4, 4294967296), (5, 2)] [(0x100, [9999999999999999999, 1])] 0 0x1912345000000000) [(1, 0)] [(0x100, [9999999995705032704, 8589934591])] := by
  decide +kernel

/-- Vector M9: BMUL x2, x3, x4, x5, x6: `(RADIX^2−1)(RADIX−1)`. -/
theorem test_bmul_largest_words :
    completes (machine [(2, 768), (3, 256), (4, 512), (5, 2), (6, 1)] [(0x200, [9999999999999999999]), (0x100, [9999999999999999999, 9999999999999999999])] 0 0x1A02345600000000) [] [(0x300, [1, 9999999999999999999, 9999999999999999998])] := by
  decide +kernel

/-- Vector M13: BMUL x2, x3, x4, x5, x6: OVERLAP: `w[1]` is `v[0]`. -/
theorem test_bmul_touching_arrays_trap :
    traps (machine [(2, 511), (3, 256), (4, 512), (5, 1), (6, 1)] [(0x100, [3]), (0x200, [5])] 0 0x1A02345600000000) .overlap 0x1FF := by
  decide +kernel

/-- Vector M17: SHL10 x2, x3, x4, x5, x6: in place, `s = 19 + 3`. -/
theorem test_shl10_in_place :
    completes (machine [(2, 256), (3, 256), (4, 22), (5, 3), (6, 2)] [(0x100, [1234567890123456789, 7, 0])] 0 0x1B02345600000000) [] [(0x100, [0, 4567890123456789000, 7123])] := by
  decide +kernel

/-- Vector M20: SHL10 x2, x3, x4, x5, x6: RANGE for a huge `s`. -/
theorem test_shl10_huge_shift_traps :
    traps (machine [(2, 768), (3, 256), (4, 18446744073709551615), (5, 1), (6, 1)] [(0x100, [1])] 0 0x1B02345600000000) .range 0xFFFFFFFFFFFFFFFF := by
  decide +kernel

/-- Vector D1: DIVW x1, x2, x3, x4, x5: `2^64 = 1·RADIX + 8446744073709551616`; quotient `x1`, remainder `x2`. -/
theorem test_divw_quotient_and_remainder :
    completes (machine [(3, 1), (4, 0), (5, 10000000000000000000)] [] 0 0x2012345000000000) [(1, 1), (2, 8446744073709551616)] [] := by
  decide +kernel

/-- Vector D5: DIVW x1, x1, x3, x4, x5: `rd = ra`: the quotient remains. -/
theorem test_divw_one_register_keeps_the_quotient :
    completes (machine [(3, 0), (4, 100), (5, 7)] [] 0 0x2011345000000000) [(1, 14)] [] := by
  decide +kernel

/-- Vector D7: SDIV x1, x2, x3, x4, x5: in place. -/
theorem test_sdiv_in_place :
    completes (machine [(2, 256), (3, 256), (4, 7), (5, 2)] [(0x100, [9999999999999999999, 9999999999999999999])] 0 0x2112345000000000) [(1, 1)] [(0x100, [4285714285714285714, 1428571428571428571])] := by
  decide +kernel

/-- Vector D10: SDIV x1, x2, x3, x4, x5: DIVZERO is checked before BADWORD. -/
theorem test_sdiv_divzero_before_badword :
    traps (machine [(2, 768), (3, 256), (4, 0), (5, 1)] [(0x100, [10000000000000000000])] 0 0x2112345000000000) .divzero 0x0 := by
  decide +kernel

/-- Vector D18: BDIVMOD x1, x2, x3, x4, x5, x6, x7: general case, three quotient words. -/
theorem test_bdivmod_three_quotient_words :
    completes (machine [(2, 1024), (3, 1280), (4, 256), (5, 512), (6, 4), (7, 2)] [(0x100, [0, 0, 0, 6]), (0x200, [4, 2])] 0 0x2212345670000000) [(1, 1)] [(0x400, [11, 9999999999999999994, 2]), (0x500, [9999999999999999956, 1])] := by
  decide +kernel

/-- Vector D21: BDIVMOD x1, x2, x3, x4, x5, x6, x7: RANGE: top divisor word zero, `FINFO = 0`. -/
theorem test_bdivmod_top_divisor_word_zero_traps :
    traps (machine [(2, 1024), (3, 1280), (4, 256), (5, 512), (6, 2), (7, 2)] [(0x100, [5, 7]), (0x200, [3, 0])] 0 0x2212345670000000) .range 0x0 := by
  decide +kernel

/-- Vector D33: SHR10 x1, x2, x3, x4, x5: in place, `s = 19 + 1`. -/
theorem test_shr10_in_place :
    completes (machine [(2, 256), (3, 256), (4, 20), (5, 2)] [(0x100, [5000000000000000001, 73])] 0 0x2312345000000000) [(1, 3)] [(0x100, [7, 0])] := by
  decide +kernel

/-- Vector D27: SHR10 x1, x2, x3, x4, x5: more than half: 5 moved to 6. -/
theorem test_shr10_more_than_half :
    completes (machine [(2, 768), (3, 256), (4, 2), (5, 1)] [(0x100, [251])] 0 0x2312345000000000) [(1, 6)] [(0x300, [2])] := by
  decide +kernel

/-- Vector Q1: ADDMOD x1, x2, x3, x4: sum exceeds 64 bits. -/
theorem test_addmod_sum_over_64_bits :
    completes (machine [(2, 18446744069414584320), (3, 18446744069414584320), (4, 18446744069414584321)] [] 0 0x2812340000000000) [(1, 18446744069414584319)] [] := by
  decide +kernel

/-- Vector Q5: ADDMOD x1, x2, x3, x4: RANGE: modulus 0 (`a ≥ m`). -/
theorem test_addmod_modulus_zero_traps :
    traps (machine [(2, 0), (3, 0), (4, 0)] [] 0 0x2812340000000000) .range 0x0 := by
  decide +kernel

/-- Vector Q7: SUBMOD x1, x2, x3, x4. -/
theorem test_submod_below_zero :
    completes (machine [(2, 0), (3, 18446742974197923840), (4, 18446742974197923841)] [] 0 0x2912340000000000) [(1, 1)] [] := by
  decide +kernel

/-- Vector Q8: SUBMOD x1, x2, x3, x4: RANGE: `b ≥ m`, `FINFO = b`. -/
theorem test_submod_reports_the_second_residue :
    traps (machine [(2, 1), (3, 9), (4, 7)] [] 0 0x2912340000000000) .range 0x9 := by
  decide +kernel

/-- Vector Q10: MULMOD x1, x2, x3, x4: `(−1)^2 = 1`. -/
theorem test_mulmod_minus_one_squared :
    completes (machine [(2, 18446744073709551614), (3, 18446744073709551614), (4, 18446744073709551615)] [] 0 0x3012340000000000) [(1, 1)] [] := by
  decide +kernel

/-- Vector Q16: MULMODP x1, x2, x3, #1. -/
theorem test_mulmodp_second_prime :
    completes (machine [(2, 9999999999999999999), (3, 9999999999999999999)] [] 0 0x3112300000000001) [(1, 14308054786576746723)] [] := by
  decide +kernel

/-- Vector Q17: MULMODP x1, x2, x3, #2: RANGE: `a = P3`. -/
theorem test_mulmodp_third_prime_traps :
    traps (machine [(2, 18446742974197923841), (3, 1)] [] 0 0x3112300000000002) .range 0xFFFFFF0000000001 := by
  decide +kernel

/-- Vector Q21: MULMOD2 x5, x2, x3, x4, x5, x6, x7: `rd = re`: second product still uses the old `x5 = 3`. -/
theorem test_mulmod2_reads_before_it_writes :
    completes (machine [(3, 7), (4, 8), (5, 3), (6, 9), (7, 10)] [] 0 0x3252345670000000) [(2, 7), (5, 6)] [] := by
  decide +kernel

/-- Vector Q20: MULMOD2 x1, x1, x3, x4, x5, x6, x7: `rd = ra`: second product remains. -/
theorem test_mulmod2_one_register_keeps_the_second :
    completes (machine [(3, 7), (4, 8), (5, 3), (6, 9), (7, 10)] [] 0 0x3211345670000000) [(1, 7)] [] := by
  decide +kernel

/-- Vector Q23: MULMOD2C x1, x2, x3, x4, x5, x7. -/
theorem test_mulmod2c_shared_factor :
    completes (machine [(3, 7), (4, 3), (5, 9), (7, 10)] [] 0 0x3312345070000000) [(1, 3), (2, 7)] [] := by
  decide +kernel

/-- Vector Q31: POWMOD x1, x2, x3, x4: largest exponent. -/
theorem test_powmod_largest_exponent :
    completes (machine [(2, 3), (3, 18446744073709551615), (4, 18446744056529682433)] [] 0 0x3412340000000000) [(1, 1219973634186331659)] [] := by
  decide +kernel

/-- Vector Q30: POWMOD x1, x2, x3, x4: RANGE: `m < 2`, `FINFO = m`. -/
theorem test_powmod_modulus_one_traps :
    traps (machine [(2, 0), (3, 0), (4, 1)] [] 0 0x3412340000000000) .range 0x1 := by
  decide +kernel

/-- Vector Q36: REDP x1, x2, x3, #2: `lo ≥ p` allowed. -/
theorem test_redp_low_word_above_the_prime :
    completes (machine [(2, 0), (3, 18446744073709551615)] [] 0 0x3812300000000002) [(1, 1099511627774)] [] := by
  decide +kernel

/-- Vector Q37: REDP x1, x2, x3, #1: RANGE: `hi = p`. -/
theorem test_redp_high_word_at_the_prime_traps :
    traps (machine [(2, 18446744056529682433), (3, 0)] [] 0 0x3812300000000001) .range 0xFFFFFFFC00000001 := by
  decide +kernel

/-- Vector T3: NTTSTG x1, x2, x3, #0, #0: stage 1 of 2, applied to the result of T2. -/
theorem test_nttstg_second_stage :
    completes (machine [(1, 256), (2, 4), (3, 1)] [(0x100, [4, 6, 18446744069414584319, 18446181119461163009])] 0 0x4001002300000000) [] [(0x100, [10, 18446744069414584319, 18446181119461163007, 562949953421310])] := by
  decide +kernel

/-- Vector T5: NTTSTG x1, x2, x3, #0, #1: `inv = 1`: root `ω^(−1)`. -/
theorem test_nttstg_inverse_root :
    completes (machine [(1, 256), (2, 4), (3, 0)] [(0x100, [1, 2, 3, 4])] 0 0x4001002300000004) [] [(0x100, [4, 6, 18446744069414584319, 562949953421312])] := by
  decide +kernel

/-- Vector T8: NTTREV x1, x2: words moved, not checked. -/
theorem test_nttrev_eight_words :
    completes (machine [(1, 256), (2, 8)] [(0x100, [10, 11, 12, 13, 14, 15, 16, 18446744073709551615])] 0 0x4101002000000000) [] [(0x101, [14]), (0x106, [13]), (0x103, [16, 11])] := by
  decide +kernel

/-- Vector T14: NTTFWD x1, x2, #0: `n = 3`. -/
theorem test_nttfwd_three_words :
    completes (machine [(1, 256), (2, 3)] [(0x100, [1, 2, 3])] 0 0x4801002000000000) [] [(0x100, [6, 4294967294, 18446744065119617024])] := by
  decide +kernel

/-- Vector T16: NTTFWD x1, x2, #0: `n = 6`, shifted impulse: the powers `ω(6,0)^k`. -/
theorem test_nttfwd_six_words :
    completes (machine [(1, 256), (2, 6)] [(0x100, [0, 1, 0, 0, 0, 0])] 0 0x4801002000000000) [] [(0x100, [1, 18446744065119617026, 18446744065119617025, 18446744069414584320, 4294967295, 4294967296])] := by
  decide +kernel

/-- Vector T12: NTTINV x1, x2, #0: applied to the result of T9: `n · a`. -/
theorem test_nttinv_four_words :
    completes (machine [(1, 256), (2, 4)] [(0x100, [10, 18446181119461163007, 18446744069414584319, 562949953421310])] 0 0x4901002000000000) [] [(0x100, [4, 8, 12, 16])] := by
  decide +kernel

/-- Vector T21: NTTCONV x1, x3, x2, #0: `(1+2x)(3+4x)`; `c2` becomes its transform. -/
theorem test_nttconv_product_and_second_transform :
    completes (machine [(1, 256), (2, 4), (3, 512)] [(0x100, [1, 2, 0, 0]), (0x200, [3, 4, 0, 0])] 0 0x4A01302000000000) [] [(0x100, [3, 10, 8]), (0x200, [7, 1125899906842627, 18446744069414584320, 18445618169507741700])] := by
  decide +kernel

/-- Vector T24: NTTCONV x1, x3, x2, #0: OVERLAP: same array; use NTTACONV. -/
theorem test_nttconv_same_array_traps :
    traps (machine [(1, 256), (2, 4), (3, 256)] [(0x100, [1, 2, 0, 0])] 0 0x4A01302000000000) .overlap 0x100 := by
  decide +kernel

/-- Vector T26: NTTACONV x1, x2, #2: `(1+x+x^2)^2`. -/
theorem test_nttaconv_six_words :
    completes (machine [(1, 256), (2, 6)] [(0x100, [1, 1, 1, 0, 0, 0])] 0 0x4B01002000000002) [] [(0x101, [2, 3, 2, 1])] := by
  decide +kernel

/-- Vector T30: NTTLEN x1, x2: `3·2^9`. -/
theorem test_nttlen_above_the_crossover :
    completes (machine [(2, 1025)] [] 0 0x4C12000000000000) [(1, 1536)] [] := by
  decide +kernel

/-- Vector T34: NTTLEN x1, x2: LEN: too long. -/
theorem test_nttlen_too_long_traps :
    traps (machine [(2, 12884901889)] [] 0 0x4C12000000000000) .len 0x0 := by
  decide +kernel

/-- Vector Z1: CRT3 x1, x2, x3, x4, x5, x6: `z = [3·RADIX+7, 5·RADIX^2+1]`; leftover carry `5·RADIX`. -/
theorem test_crt3_leftover_carry :
    completes (machine [(2, 1024), (3, 256), (4, 512), (5, 768), (6, 2)] [(0x100, [11553255930585415686, 17605839366472968790]), (0x200, [11553255943470317574, 5519577424116591714]), (0x300, [11553257025802076166, 15718257032842536884])] 0 0x5012345600000000) [(1, 1)] [(0x400, [7, 4])] := by
  decide +kernel

/-- Vector Z9: CRT3 x1, x2, x3, x4, x5, x6: BADWORD: `P2` is a residue of `P1` but not of `P2`. -/
theorem test_crt3_residue_of_the_wrong_prime_traps :
    traps (machine [(2, 1024), (3, 256), (4, 512), (5, 768), (6, 1)] [(0x100, [18446744056529682433]), (0x200, [18446744056529682433]), (0x300, [0])] 0 0x5012345600000000) .badword 0x200 := by
  decide +kernel

/-- Vector K4: KMUL x2, x3, x4, x5, x6: `la < lb`; same for all three. -/
theorem test_kmul_uneven_lengths :
    completes (machine [(2, 768), (3, 256), (4, 512), (5, 2), (6, 3)] [(0x100, [9999999999999999999, 123]), (0x200, [7, 0, 9999999999999999999])] 0 0x5802345600000000) [] [(0x300, [9999999999999999993, 867, 1, 9999999999999999875, 123])] := by
  decide +kernel

/-- Vector K5: KMULN x2, x3, x4, x5, x6: `la < lb`; same for all three. -/
theorem test_kmuln_uneven_lengths :
    completes (machine [(2, 768), (3, 256), (4, 512), (5, 2), (6, 3)] [(0x100, [9999999999999999999, 123]), (0x200, [7, 0, 9999999999999999999])] 0 0x5902345600000000) [] [(0x300, [9999999999999999993, 867, 1, 9999999999999999875, 123])] := by
  decide +kernel

/-- Vector K6: NMUL x2, x3, x4, x5, x6: `la < lb`; same for all three. -/
theorem test_nmul_uneven_lengths :
    completes (machine [(2, 768), (3, 256), (4, 512), (5, 2), (6, 3)] [(0x100, [9999999999999999999, 123]), (0x200, [7, 0, 9999999999999999999])] 0 0x5A02345600000000) [] [(0x300, [9999999999999999993, 867, 1, 9999999999999999875, 123])] := by
  decide +kernel

/-- Vector K9: NMUL x2, x3, x4, x5, x6: LEN: `la + lb > 3·2^32`, before ADDR. -/
theorem test_nmul_too_long_before_addr :
    traps (machine [(2, 768), (3, 256), (4, 512), (5, 12884901888), (6, 1)] [] 0 0x5A02345600000000) .len 0x0 := by
  decide +kernel

/-! ### Constants the spec prints -/

/-- `INV12` and `INV123` of R182, `INVN` excepted: the two inverses the Chinese remainder uses. -/
theorem test_crt_inverses :
    invMod Config.default.p1 Config.default.p2 = 18446744055098026669
      ∧ invMod (Config.default.p1 * Config.default.p2) Config.default.p3 = 287064143708160 := by
  decide +kernel

/-! ### The host port -/

/-- R28, R27: right after START no command is in execution, and PC reads as the address about to be fetched, whichever of
the two addresses the free choice takes. -/
theorem test_pc_right_after_start : (hostRead (hostWrite State.reset 0 1 1) 0 3).1 = 0 := by
  show (if Config.pcReadShowsExecuting 0 then (0 : Word) else 0) = 0
  exact ite_self _

/-! ### Witnesses of the rules

`firstFailing` is the place, in a rule's list of checks, of the first that fails in a state: every check before it passes.
For each rule, states at which each place is the first to fail, in order, and (`none`) a state in which all pass, so that
the command completes. A check is made to fail, or to pass, at the edge of its range. -/

/-- Whether a line of checks passes. -/
def passes (s : State) : RuleCheck → Bool
  | @RuleCheck.unless ok dec _ _ => @decide ok dec
  | .words bound a => decide (s.WordsBelow bound a)
  | .scratch user lengths _ => !scratchShort s.cfg user lengths

/-- The place of the first check that fails. -/
def firstFailing (s : State) (r : Rule) : Option Nat := r.checks.findIdx? (fun c => !passes s c)

/-- Where an array has a word that is not below the bound, some address is the first such: a `words` line that does not
pass has a BADWORD address. -/
theorem firstBad_of_not_wordsBelow {s : State} {bound : Nat} {a : ArrayOperand} (h : ¬s.WordsBelow bound a) :
    ∃ addr, s.FirstBad bound a addr := by
  have hex : ∃ k, k < a.len ∧ ¬(s.data (a.base.toNat + k)).toNat < bound := by
    by_contra hc
    exact h fun k hk => by_contra fun hb => hc ⟨k, hk, hb⟩
  classical
  refine ⟨_, Nat.find hex, (Nat.find_spec hex).1, rfl, fun i hi => ?_, (Nat.find_spec hex).2⟩
  by_contra hb
  exact Nat.find_min hex hi ⟨lt_trans hi (Nat.find_spec hex).1, hb⟩

/-- The first word that is no radix word. -/
abbrev R : Nat := 10000000000000000000

/-- The largest radix word. -/
abbrev top : Nat := 9999999999999999999

/-- The end of memory. -/
abbrev memEnd : Nat := 1048576

/-- Registers `x2` up, and `M`. -/
def operands (regs : List Nat) (mem : List (Nat × List Nat)) : State :=
  written State.reset ((List.range regs.length).map (fun i => (i + 2, regs.getD i 0))) mem

/-- The parameters of a machine that has no scratch and whose every listed command needs one word. -/
def noScratch : Config :=
  { Config.default with
    karatsubaBasecase := 1
    scratchWords := some 0
    scratchTable := [(.bdivmod, [2, 2], 1), (.nttfwd, [2], 1), (.nttinv, [2], 1), (.nttconv, [2], 1),
      (.nttaconv, [2], 1), (.kmul, [2, 1], 1), (.kmuln, [2, 1], 1), (.nmul, [2, 1], 1)] }

/-- The parameters are within R6 and R7. -/
theorem noScratch_legal : noScratch.Legal :=
  let h := Config.default_legal
  ⟨h.memWords_pos, h.memWords_le, h.cmdWords_pos, h.cmdWords_le, h.crossover_pow2, le_refl 1,
    fun _ ht => absurd ht (by simp [noScratch, Config.default]), h.sixstep_pow2, h.prime1, h.prime2, h.prime3,
    h.distinct12, h.distinct13, h.distinct23⟩

/-- A state on that machine. -/
def starved (s : State) : State := { s with cfg := noScratch }

/-- Every state built here has the default parameters, which are within R6 and R7, or those of `noScratch`. -/
theorem witness_legal_parameters :
    (operands [0x300, 0x100] [(0x100, [1])]).cfg.Legal ∧ (starved (operands [] [])).cfg.Legal :=
  ⟨Config.default_legal, noScratch_legal⟩

/-- The primes are words, and the lengths NTTLEN selects, on the default machine. -/
theorem witness_prime_and_length_bounds :
    (∀ pi : BitVec 2, State.reset.cfg.prime pi < 2 ^ 64) ∧ State.reset.cfg.nttPow2Crossover ≤ 2 ^ 63
      ∧ 3 * 2 ^ State.reset.cfg.maxNttLog2 < 2 ^ 64 := by
  decide +kernel

theorem witness_ldw_stw :
    [operands [memEnd - 2] [], operands [memEnd - 1] []].map (fun s =>
        (firstFailing s (Rules.ldw s 1 2 1), firstFailing s (Rules.stw s 1 2 1)))
      = [(none, none), (some 0, some 0)] := by
  decide +kernel

/-- ADD and SUB: completing with `w` at the end of memory, and each check. -/
theorem witness_add_sub :
    [operands [memEnd - 2, 0x100, 0x200, 2, 1] [(0x100, [top, top]), (0x200, [top])],
      operands [0x300, 0x100, 0x200, 1, 2] [],
      operands [memEnd - 1, 0x100, 0x200, 2, 1] [],
      operands [0x300, memEnd - 1, 0x200, 2, 1] [],
      operands [0x300, 0x100, memEnd, 2, 1] [],
      operands [0x101, 0x100, 0x200, 2, 1] [],
      operands [0x1FF, 0x100, 0x200, 2, 1] [],
      operands [0x300, 0x100, 0x200, 2, 1] [(0x100, [top, R])],
      operands [0x300, 0x100, 0x200, 2, 1] [(0x100, [top, top]), (0x200, [R])]].map (fun s =>
        (firstFailing s (Rules.add s 1 2 3 4 5 6), firstFailing s (Rules.sub s 1 2 3 4 5 6)))
      = [(none, none), (some 0, some 0), (some 1, some 1), (some 2, some 2), (some 3, some 3), (some 4, some 4),
        (some 5, some 5), (some 6, some 6), (some 7, some 7)] := by
  decide +kernel

/-- SADD and SMUL. -/
theorem witness_sadd_smul :
    [operands [0x100, 0x100, top, 2] [(0x100, [top, top])],
      operands [0x300, 0x100, 1, 0] [],
      operands [memEnd - 1, 0x100, 1, 2] [],
      operands [0x300, memEnd - 1, 1, 2] [],
      operands [0x0FF, 0x100, 1, 2] [],
      operands [0x300, 0x100, R, 2] [],
      operands [0x300, 0x100, top, 2] [(0x100, [top, R])]].map (fun s =>
        (firstFailing s (Rules.sadd s 1 2 3 4 5), firstFailing s (Rules.smul s 1 2 3 4 5)))
      = [(none, none), (some 0, some 0), (some 1, some 1), (some 2, some 2), (some 3, some 3), (some 4, some 4),
        (some 5, some 5)] := by
  decide +kernel

/-- The operands the array products meet: completing, then each check after the length. -/
def productStates : List State := [
  operands [memEnd - 3, 0x100, 0x102, 2, 1] [(0x100, [top, top, top])],
  operands [0x300, 0x100, 0x200, 0, 1] [],
  operands [memEnd - 2, 0x100, 0x200, 2, 1] [],
  operands [0x300, memEnd - 1, 0x200, 2, 1] [],
  operands [0x300, 0x100, memEnd, 2, 1] [],
  operands [0x100, 0x100, 0x200, 2, 1] [],
  operands [0x1FE, 0x100, 0x200, 2, 1] [],
  operands [0x300, 0x100, 0x200, 2, 1] [(0x100, [top, R])],
  operands [0x300, 0x100, 0x200, 2, 1] [(0x100, [top, top]), (0x200, [R])]]

/-- BMUL; the operands of the first state are radix words, as its last clause asks. -/
theorem witness_bmul :
    productStates.map (fun s => firstFailing s (Rules.bmul s 2 3 4 5 6))
      = [none, some 0, some 1, some 2, some 3, some 4, some 5, some 6, some 7] := by
  decide +kernel

/-- KMUL and KMULN, on a machine with the scratch they need and on one without. -/
theorem witness_kmul_kmuln :
    productStates.map (fun s => (firstFailing s (Rules.kmul s .kmul 2 3 4 5 6), firstFailing s (Rules.kmul s .kmuln 2 3 4 5 6)))
        = [(none, none), (some 0, some 0), (some 1, some 1), (some 2, some 2), (some 3, some 3), (some 4, some 4),
          (some 5, some 5), (some 6, some 6), (some 7, some 7)]
      ∧ (let s := starved (operands [0x300, 0x100, 0x200, 2, 1] [(0x100, [top, top]), (0x200, [top])])
        firstFailing s (Rules.kmul s .kmul 2 3 4 5 6) = some 8 ∧ firstFailing s (Rules.kmul s .kmuln 2 3 4 5 6) = some 8)
      ∧ 16 ≤ State.reset.cfg.karatsubaBasecase := by
  decide +kernel

/-- NMUL: as KMUL, and the second length check, at its edge `3 · 2^MAX_NTT_LOG2`. -/
theorem witness_nmul :
    productStates.map (fun s => firstFailing s (Rules.nmul s 2 3 4 5 6))
        = [none, some 0, some 2, some 3, some 4, some 5, some 6, some 7, some 8]
      ∧ (let s := operands [0x300, 0x100, 0x200, 12884901888, 1] []; firstFailing s (Rules.nmul s 2 3 4 5 6) = some 1)
      ∧ (let s := operands [0x300, 0x100, 0x200, 12884901887, 1] []; firstFailing s (Rules.nmul s 2 3 4 5 6) = some 2)
      ∧ (let s := starved (operands [0x300, 0x100, 0x200, 2, 1] [(0x100, [top, top]), (0x200, [top])])
        firstFailing s (Rules.nmul s 2 3 4 5 6) = some 9) := by
  decide +kernel

/-- SHL10: the last check at its edge, `U · 10^s = RADIX^n` and one less than the next power. -/
theorem witness_shl10 :
    [operands [0x300, 0x100, 18, 1, 1] [(0x100, [9])],
      operands [0x300, 0x100, 0, 1, 2] [],
      operands [memEnd - 1, 0x100, 0, 2, 1] [],
      operands [0x300, memEnd, 0, 2, 1] [],
      operands [0x0FF, 0x100, 0, 2, 1] [],
      operands [0x300, 0x100, 0, 2, 1] [(0x100, [R])],
      operands [0x300, 0x100, 18, 1, 1] [(0x100, [10])]].map (fun s => firstFailing s (Rules.shl10 s 2 3 4 5 6))
      = [none, some 0, some 1, some 2, some 3, some 4, some 5] := by
  decide +kernel

theorem witness_divw :
    [operands [0, 4, 7, 5] [], operands [0, 4, 7, 0] [], operands [0, 5, 7, 5] []].map (fun s =>
        firstFailing s (Rules.divw s 1 2 3 4 5))
      = [none, some 0, some 1] := by
  decide +kernel

theorem witness_sdiv :
    [operands [0x300, 0x100, top, 2] [(0x100, [top, top])],
      operands [0x300, 0x100, 1, 0] [],
      operands [memEnd - 1, 0x100, 1, 2] [],
      operands [0x300, memEnd - 1, 1, 2] [],
      operands [0x101, 0x100, 1, 2] [],
      operands [0x300, 0x100, 0, 2] [],
      operands [0x300, 0x100, R, 2] [],
      operands [0x300, 0x100, 1, 2] [(0x100, [top, R])]].map (fun s => firstFailing s (Rules.sdiv s 1 2 3 4 5))
      = [none, some 0, some 1, some 2, some 3, some 4, some 5, some 6] := by
  decide +kernel

/-- BDIVMOD: each of its fifteen checks; the arrays of the first state also meet the premises of its law. -/
theorem witness_bdivmod :
    [operands [0x400, 0x500, 0x100, 0x200, 3, 2] [(0x100, [top, top, top]), (0x200, [0, 1])],
      operands [0x400, 0x500, 0x100, 0x200, 1, 2] [],
      operands [memEnd - 1, 0x500, 0x100, 0x200, 3, 2] [],
      operands [0x400, memEnd - 1, 0x100, 0x200, 3, 2] [],
      operands [0x400, 0x500, memEnd - 2, 0x200, 3, 2] [],
      operands [0x400, 0x500, 0x100, memEnd - 1, 3, 2] [],
      operands [0x400, 0x401, 0x100, 0x200, 3, 2] [],
      operands [0x0FF, 0x500, 0x100, 0x200, 3, 2] [],
      operands [0x201, 0x500, 0x100, 0x200, 3, 2] [],
      operands [0x400, 0x100, 0x100, 0x200, 3, 2] [],
      operands [0x400, 0x200, 0x100, 0x200, 3, 2] [],
      operands [0x400, 0x500, 0x100, 0x200, 3, 2] [(0x100, [top, top, R])],
      operands [0x400, 0x500, 0x100, 0x200, 3, 2] [(0x100, [top, top, top]), (0x200, [R, 1])],
      operands [0x400, 0x500, 0x100, 0x200, 3, 2] [(0x100, [top, top, top]), (0x200, [0, 0])],
      operands [0x400, 0x500, 0x100, 0x200, 3, 2] [(0x100, [top, top, top]), (0x200, [1, 0])],
      starved (operands [0x400, 0x500, 0x100, 0x200, 2, 2] [(0x100, [top, top]), (0x200, [0, 1])])].map (fun s =>
        firstFailing s (Rules.bdivmod s 1 2 3 4 5 6 7))
      = [none, some 0, some 1, some 2, some 3, some 4, some 5, some 6, some 7, some 8, some 9, some 10, some 11, some 12,
        some 13, some 14] := by
  decide +kernel

theorem witness_shr10 :
    [operands [0x300, 0x100, 39, 2] [(0x100, [top, top])],
      operands [0x300, 0x100, 1, 0] [],
      operands [memEnd - 1, 0x100, 1, 2] [],
      operands [0x300, memEnd - 1, 1, 2] [],
      operands [0x101, 0x100, 1, 2] [],
      operands [0x300, 0x100, 1, 2] [(0x100, [top, R])]].map (fun s => firstFailing s (Rules.shr10 s 1 2 3 4 5))
      = [none, some 0, some 1, some 2, some 3, some 4] := by
  decide +kernel

/-- The rounding classes: nothing discarded, below half, half, above half, and a shift beyond the digits. -/
theorem witness_rounding :
    [(200, 2), (201, 2), (249, 2), (250, 2), (251, 2), (299, 2), (299, 20)].all (fun x => decide (x.1 < RADIX ^ 1 ∧ 1 ≤ x.2))
      ∧ 200 % 10 ^ 2 = 0 ∧ (0 < 201 % 10 ^ 2 ∧ 249 % 10 ^ 2 < 5 * 10 ^ (2 - 1)) ∧ 250 % 10 ^ 2 = 5 * 10 ^ (2 - 1)
      ∧ 5 * 10 ^ (2 - 1) < 251 % 10 ^ 2 := by
  decide +kernel

/-- The residue checks of units 4, 5 and 6, each operand at the modulus and one below it. -/
theorem witness_residue_checks :
    [([6, 6], 7), ([7, 0], 7), ([6, 7], 7), ([0, 0], 0)].map (fun x : List Nat × Nat =>
        firstFailing State.reset (Rules.residue State.reset 1 x.2 (x.1.map Word.ofNat) 0))
        = [none, some 0, some 1, some 0]
      ∧ [([9, 9, 9, 9], 10), ([10, 0, 0, 0], 10), ([9, 10, 0, 0], 10), ([9, 9, 10, 0], 10), ([9, 9, 9, 10], 10)].map
          (fun x : List Nat × Nat =>
            firstFailing State.reset ⟨Rules.residueChecks x.2 (x.1.map Word.ofNat), fun _ => True⟩)
        = [none, some 0, some 1, some 2, some 3] := by
  decide +kernel

/-- MULMODP and REDP with a prime index that is not 3, and their checks at the prime. -/
theorem witness_mulmodp_redp :
    (2 : BitVec 2) ≠ 3
      ∧ [18446742974197923840, 18446742974197923841].map (fun a : Nat =>
          firstFailing State.reset (Rules.residue State.reset 1 (State.reset.cfg.prime 2) [Word.ofNat a] 0))
        = [none, some 0] := by
  decide +kernel

/-- POWMOD's two checks, each at its edge. -/
theorem witness_powmod :
    [operands [1, 0, 2] [], operands [0, 0, 1] [], operands [2, 0, 2] []].map (fun s =>
        firstFailing s ⟨[.unless (2 ≤ (s.reg 4).toNat) .range (s.reg 4),
          .unless ((s.reg 2).toNat < (s.reg 4).toNat) .range (s.reg 2)], fun _ => True⟩)
      = [none, some 0, some 1] := by
  decide +kernel

/-- Radix words, the largest among them. -/
theorem witness_radix_words : [Word.ofNat top, 0].all (fun d => decide (d.toNat < RADIX)) := by decide +kernel

/-- One modulus in a register and in the machine, residues below it; and registers that do not collide. -/
theorem witness_modular_paths_and_submod :
    let s := operands [18446742974197923840, 18446742974197923840, 18446742974197923841] []
    (s.reg 4).toNat = s.cfg.prime 2 ∧ s.cfg.prime 2 < 2 ^ 64 ∧ (s.reg 2).toNat < s.cfg.prime 2
      ∧ (s.reg 3).toNat < s.cfg.prime 2 ∧ (5 : Reg) ≠ 6 ∧ (1 : Reg) ≠ 3 ∧ (1 : Reg) ≠ 4
      ∧ (s.reg 2).toNat < (s.reg 4).toNat ∧ (s.reg 3).toNat < (s.reg 4).toNat := by
  decide +kernel

/-- The operands of ADD, followed by SUB in place, at the largest words. -/
theorem witness_add_then_sub :
    let s := operands [0x300, 0x100, 0x200, 2, 1] [(0x100, [top, top]), (0x200, [top])]
    let w : ArrayOperand := ⟨s.reg 2, 2⟩
    let u : ArrayOperand := ⟨s.reg 3, 2⟩
    let v : ArrayOperand := ⟨s.reg 4, 1⟩
    (s.reg 5).toNat = 2 ∧ (s.reg 6).toNat = 1 ∧ w.Fits s ∧ u.Fits s ∧ v.Fits s ∧ w.InPlaceOrApart u ∧ w.Apart v
      ∧ s.WordsBelow RADIX u ∧ s.WordsBelow RADIX v ∧ (1 : Reg) ∉ [(2 : Reg), 4, 5, 6] := by
  decide +kernel

/-- NTTSTG: completing at its last stage, and each check at its edge; a pair of elements a butterfly takes. -/
theorem witness_nttstg :
    [operands [0x100, 4, 1] [(0x100, [1, 2, 3, 18446744069414584320])],
      operands [0x100, 1, 0] [],
      operands [memEnd - 3, 4, 1] [],
      operands [0x100, 4, 2] [],
      operands [0x100, 4, 1] [(0x100, [1, 2, 3, 18446744069414584321])]].map (fun s =>
        firstFailing s (Rules.nttstg s 2 3 4 0 false))
        = [none, some 0, some 1, some 2, some 3]
      ∧ 1 * (4 / 2 ^ 1) < 4 ∧ 0 < 4 / 2 ^ 1 / 2 := by
  decide +kernel

/-- NTTREV: completing, each check, and two places that are each other's bit reversal. -/
theorem witness_nttrev :
    [operands [memEnd - 8, 8] [], operands [0x100, 3] [], operands [memEnd - 7, 8] []].map (fun s =>
        firstFailing s (Rules.nttrev s 2 3))
        = [none, some 0, some 1]
      ∧ (∀ b < 3, Nat.testBit 6 b = Nat.testBit 3 (3 - 1 - b)) := by
  decide +kernel

/-- NTTFWD, NTTINV and NTTACONV. -/
theorem witness_transforms :
    let forward := fun s : State => firstFailing s (Rules.transform s 2 3 1 .nttfwd (s.cfg.omega 1))
    let inverse := fun s : State => firstFailing s (Rules.transform s 2 3 1 .nttinv (s.cfg.omegaInv 1))
    let square := fun s : State => firstFailing s (Rules.nttaconv s 2 3 1)
    [operands [0x100, 3] [(0x100, [1, 2, 18446744056529682432])],
      operands [0x100, 5] [],
      operands [memEnd - 2, 3] [],
      operands [0x100, 3] [(0x100, [1, 2, 18446744056529682433])],
      starved (operands [0x100, 2] [(0x100, [1, 2])])].map (fun s => [forward s, inverse s, square s])
      = [[none, none, none], [some 0, some 0, some 0], [some 1, some 1, some 1], [some 2, some 2, some 2],
        [some 3, some 3, some 3]] := by
  decide +kernel

theorem witness_nttconv :
    [operands [0x100, 0x102, 2] [(0x100, [1, 2, 3, 4])],
      operands [0x100, 0x200, 0] [],
      operands [memEnd - 1, 0x200, 2] [],
      operands [0x100, memEnd - 1, 2] [],
      operands [0x100, 0x101, 2] [],
      operands [0x100, 0x200, 2] [(0x100, [1, 18446744069414584321])],
      operands [0x100, 0x200, 2] [(0x100, [1, 2]), (0x200, [18446744069414584321, 4])],
      starved (operands [0x100, 0x200, 2] [(0x100, [1, 2]), (0x200, [3, 4])])].map (fun s =>
        firstFailing s (Rules.nttconv s 2 3 4 0))
      = [none, some 0, some 1, some 2, some 3, some 4, some 5, some 6] := by
  decide +kernel

/-- NTTLEN: completing at the edges of its two cases, and its two checks. -/
theorem witness_nttlen :
    [operands [1] [], operands [1024] [], operands [1025] [], operands [12884901888] [], operands [0] [],
      operands [12884901889] []].map (fun s => firstFailing s (Rules.nttlen s 1 2))
      = [none, none, none, none, some 0, some 1] := by
  decide +kernel

/-- The transforms' laws: a length with a factor 3, arrays that fit and are apart, residues, and scratch. -/
theorem witness_transform_laws :
    let s := operands [0x100, 0x200, 3] [(0x100, [1, 2, 18446744069414584320]), (0x200, [4, 5, 6])]
    let a : ArrayOperand := ⟨s.reg 2, 3⟩
    let b : ArrayOperand := ⟨s.reg 3, 3⟩
    (s.reg 4).toNat = 3 ∧ s.cfg.ValidLength 3 ∧ a.Fits s ∧ b.Fits s ∧ a.Apart b ∧ s.WordsBelow (s.cfg.prime 0) a
      ∧ s.WordsBelow (s.cfg.prime 0) b
      ∧ [Config.ScratchUser.nttfwd, .nttinv, .nttconv, .nttaconv].all (fun u => scratchShort s.cfg u [3] == false) := by
  decide +kernel

/-- The fast transform on four elements. -/
theorem witness_fast_transform :
    let s := operands [0x100, 4, 0] [(0x100, [1, 2, 3, 4])]
    let a : ArrayOperand := ⟨s.reg 2, 4⟩
    (4 : Reg) ≠ 2 ∧ (4 : Reg) ≠ 3 ∧ (s.reg 3).toNat = 2 ^ 2 ∧ 2 ≤ s.cfg.maxNttLog2 ∧ a.Fits s
      ∧ s.WordsBelow (s.cfg.prime 0) a ∧ scratchShort s.cfg .nttfwd [4] = false
      ∧ scratchShort s.cfg .nttinv [4] = false := by
  decide +kernel

theorem witness_crt3 :
    [operands [0x100, 0x100, 0x200, 0x300, 1]
        [(0x100, [18446744069414584320]), (0x200, [18446744056529682432]), (0x300, [18446742974197923840])],
      operands [0x400, 0x100, 0x200, 0x300, 0] [],
      operands [memEnd, 0x100, 0x200, 0x300, 1] [],
      operands [0x400, memEnd, 0x200, 0x300, 1] [],
      operands [0x400, 0x100, memEnd, 0x300, 1] [],
      operands [0x400, 0x100, 0x200, memEnd, 1] [],
      operands [0x101, 0x100, 0x200, 0x300, 2] [],
      operands [0x200, 0x100, 0x200, 0x300, 1] [],
      operands [0x300, 0x100, 0x200, 0x300, 1] [],
      operands [0x400, 0x100, 0x200, 0x300, 1] [(0x100, [18446744069414584321])],
      operands [0x400, 0x100, 0x200, 0x300, 1] [(0x100, [0]), (0x200, [18446744056529682433])],
      operands [0x400, 0x100, 0x200, 0x300, 1] [(0x100, [0]), (0x200, [0]), (0x300, [18446742974197923841])]].map
        (fun s => firstFailing s (Rules.crt3 s 1 2 3 4 5 6))
      = [none, some 0, some 1, some 2, some 3, some 4, some 5, some 6, some 7, some 8, some 9, some 10] := by
  decide +kernel

/-- The primes of R6 are three different 64-bit primes. -/
theorem witness_crt_primes : Config.default.CrtPrimes := Config.default_legal.crtPrimes

/-- The largest residues and the largest coefficient, with the parameters of R6. -/
theorem witness_crt_values :
    let c := Config.default
    c.p1 - 1 < c.p1 ∧ c.p2 - 1 < c.p2 ∧ c.p3 - 1 < c.p3
      ∧ (∀ x ∈ [c.p1 * c.p2 * c.p3 - 1, 0], x < c.p1 * c.p2 * c.p3) := by
  decide +kernel

/-! ### Witnesses of the statements about the machine -/

/-- The state a command leaves. -/
def after (i : Instr) (s : State) : State :=
  match exec i s with
  | .next t => t
  | _ => s

/-- Operands BMUL completes on, and the other three products under other tuning parameters. -/
theorem witness_multiplication_strategies :
    let s := operands [0x300, 0x100, 0x200, 2, 1] [(0x100, [top, top]), (0x200, [top])]
    let tuned := { s.cfg with
      karatsubaBasecase := 1, nttPow2Crossover := 1, karatsubaNttThreshold := some 2, sixstepThreshold := some 4 }
    s.status.fault = false ∧ exec (.bmul 2 3 4 5 6) s = .next (after (.bmul 2 3 4 5 6) s)
      ∧ (after (.bmul 2 3 4 5 6) s).status.fault = false
      ∧ [Config.ScratchUser.kmul, .kmuln, .nmul].all (fun u => scratchShort tuned u [2, 1] == false)
      ∧ (s.reg 5).toNat + (s.reg 6).toNat ≤ 3 * 2 ^ s.cfg.maxNttLog2 :=
  ⟨rfl, rfl, by decide +kernel, by decide +kernel, by decide +kernel⟩

/-- A word and its command; a word a row accepts; a running state at a word no row accepts. -/
theorem witness_legal_words :
    decode 0x0541000000000000 = .ok (.mov 4 1)
      ∧ (∃ r ∈ opcodeTable, r.accepts 0x3112300000000002 = true)
      ∧ (let s := machine [] [] 0 0x3112300000000003
        s.status.run = true ∧ s.pc.toNat < s.cfg.cmdWords ∧ ∀ r ∈ opcodeTable, r.accepts (s.command s.pc.toNat) = false) := by
  refine ⟨rfl, by decide +kernel, by decide +kernel⟩

/-- A running state at the end of `C`, one beyond it, one at a command, one at a word that is none; a stopped one. -/
theorem witness_steps :
    let last := machine [] [] 4095 0x0200000000000000
    let beyond := machine [] [] 4096 0
    let illegal := machine [] [] 0 0
    last.status.run = true ∧ last.pc.toNat < last.cfg.cmdWords ∧ decode (last.command last.pc.toNat) = .ok .nop
      ∧ beyond.status.run = true ∧ beyond.cfg.cmdWords ≤ beyond.pc.toNat
      ∧ illegal.status.run = true ∧ illegal.pc.toNat < illegal.cfg.cmdWords
      ∧ decode (illegal.command illegal.pc.toNat) = .error .unassignedOpcode
      ∧ State.reset.status.run = false := by
  refine ⟨rfl, by decide +kernel, rfl, rfl, by decide +kernel, rfl, by decide +kernel, rfl, rfl⟩

theorem witness_well_formed : (Instr.nttstg 15 14 13 2 true).WellFormed ∧ 1 ≤ State.reset.cfg.cmdWords := by
  decide +kernel

/-- For each cause a command raises, a command and a state without a fault in which it does; a register that is no
destination of ADD; and a command that answers a next state. -/
theorem witness_causes :
    [(Instr.add 1 2 3 4 5 6, operands [0x300, 0x100, 0x200, 1, 2] []),
      (.add 1 2 3 4 5 6, operands [memEnd - 1, 0x100, 0x200, 2, 1] []),
      (.add 1 2 3 4 5 6, operands [0x101, 0x100, 0x200, 2, 1] []),
      (.divw 1 2 3 4 5, operands [0, 4, 7, 0] []),
      (.divw 1 2 3 4 5, operands [0, 5, 7, 5] []),
      (.add 1 2 3 4 5 6, operands [0x300, 0x100, 0x200, 1, 1] [(0x100, [R])]),
      (.kmul 2 3 4 5 6, starved (operands [0x300, 0x100, 0x200, 2, 1] [(0x100, [top, top]), (0x200, [top])]))].map
        (fun x => (decide x.1.WellFormed, x.2.status.fault, (after x.1 x.2).status.fault, (after x.1 x.2).cause))
      = [(true, false, true, 3), (true, false, true, 4), (true, false, true, 5), (true, false, true, 6),
        (true, false, true, 7), (true, false, true, 8), (true, false, true, 9)]
      ∧ (2 : Reg) ∉ destinationRegisters (.add 1 2 3 4 5 6)
      ∧ exec (.add 1 2 3 4 5 6) State.reset = .next (after (.add 1 2 3 4 5 6) State.reset) :=
  ⟨by decide +kernel, by decide, rfl⟩

/-- An ill-formed command, and a word that decodes. -/
theorem witness_prime_index_three :
    ¬(Instr.nttfwd 1 2 3).WellFormed ∧ decode 0x4801002000000002 = .ok (.nttfwd 1 2 2) :=
  ⟨by decide, rfl⟩

/-- One command on two memories: LEN, ADDR and OVERLAP in the first. -/
theorem witness_len_addr_overlap :
    [[0x300, 0x100, 0x200, 1, 2], [memEnd - 1, 0x100, 0x200, 2, 1], [0x101, 0x100, 0x200, 2, 1]].map (fun regs =>
        let s := operands regs [(0x100, [1, 2])]
        let s' := operands regs [(0x100, [R, R])]
        (s.regs == s'.regs && s.cfg == s'.cfg && !s.status.fault && !s'.status.fault,
          (after (.add 1 2 3 4 5 6) s).status.fault, (after (.add 1 2 3 4 5 6) s).cause))
      = [(true, true, 3), (true, true, 4), (true, true, 5)] := by
  decide +kernel

/-- A state stopped by a fault. -/
def stopped : State := after (.divw 1 2 3 4 5) (operands [0, 4, 7, 0] [])

/-- The fault has stopped a state whose next command is one, and a write of CTRL.START is an event of the kind the
statement is about. -/
theorem witness_faulted :
    let s := { stopped with cmdMem := [(0, 0x0200000000000000)] }
    s.status.fault = true ∧ s.status.run = false ∧ Event.host ⟨true, 0, 1, 1⟩ ≠ .rst
      ∧ s.onEvent (.host ⟨true, 0, 1, 1⟩) = .next s
      ∧ (∀ data, Event.host ⟨true, 0, 1, 1⟩ = .host ⟨true, 0, 1, data⟩ → data.getLsbD 1 = false ∧ data.getLsbD 2 = false)
      ∧ s.pc.toNat < s.cfg.cmdWords ∧ decode (s.command s.pc.toNat) = .ok .nop := by
  refine ⟨by decide +kernel, by decide +kernel, by decide, rfl, ?_, by decide +kernel, rfl⟩
  intro data h
  cases h
  decide

/-- The invariant where its clause on the last command says something: running, one command executed. -/
theorem witness_last_command :
    let s := after .nop (machine [] [] 0 0x0200000000000000)
    s.status.run = true ∧ s.lastCommand = some 0 ∧ s.pc = 0 + 1 ∧ (0 : Word).toNat < s.cfg.cmdWords := by
  decide +kernel

/-- Running, and stopped by a fault, with the invariant. -/
theorem witness_invariant :
    (machine [] [] 0 0x0100000000000000).Inv ∧ (machine [] [] 0 0x0100000000000000).status.run = true
      ∧ (machine [] [] 0 0x0100000000000000).cfg.cmdWords ≤ 2 ^ 32
      ∧ step (machine [] [] 0 0x0100000000000000) = .next (after .halt (machine [] [] 0 0x0100000000000000))
      ∧ stopped.Inv := by
  refine ⟨⟨?_, ?_, ?_, ?_⟩, rfl, by decide +kernel, rfl, ⟨?_, ?_, ?_, ?_⟩⟩
  case refine_4 | refine_8 => intro _ a h; cases h
  all_goals
    simp only [Status.AtMostOne, State.FaultRecordOk, State.StoresOk]
    decide +kernel

/-- The CTRL writes: CLRF and START each at work, and each without effect (while running, and with a fault). -/
theorem witness_ctrl :
    ((3 : Word).getLsbD 2 = false ∧ (3 : Word).getLsbD 1 = true ∧ (3 : Word).getLsbD 0 = true ∧ (4 : Word).getLsbD 2 = true)
      ∧ stopped.status.run = false ∧ (hostWrite stopped 0 1 3).status.fault = false
      ∧ (hostWrite stopped 0 1 1).status.fault = true ∧ (machine [] [] 0 0).status.run = true := by
  decide +kernel

/-- The edges of the port's ranges, in a stopped state: the registers, the reserved addresses, the two stores. -/
theorem witness_host_ranges :
    State.reset.status.run = false
      ∧ [(7 : Word), 15, 32].all (fun a => decide ((7 ≤ a.toNat ∧ a.toNat ≤ 15) ∨ 32 ≤ a.toNat))
      ∧ [(0 : Word), 2, 4, 15, 32].all (fun a => decide (a ≠ 1 ∧ a ≠ 3 ∧ (a.toNat < 16 ∨ 32 ≤ a.toNat)))
      ∧ (4095 : Word).toNat < State.reset.cfg.cmdWords ∧ State.reset.cfg.cmdWords ≤ (4096 : Word).toNat
      ∧ (1048575 : Word).toNat < State.reset.cfg.memWords ∧ State.reset.cfg.memWords ≤ (1048576 : Word).toNat
      ∧ (1 : Reg) ≠ 2 := by
  decide +kernel

/-- A running state in which a command has been executed, a write and a read the statement about a run is about, and a
state that can be started. -/
theorem witness_host_while_running :
    (after .nop (machine [] [] 0 0)).status.run = true ∧ (after .nop (machine [] [] 0 0)).lastCommand = some 0
      ∧ State.reset.status.run = false ∧ State.reset.status.fault = false
      ∧ ¬((0 : BitVec 2) = 0 ∧ (1 : Word) = 1 ∧ (1 : Word).getLsbD 2 = true)
      ∧ ((0 : BitVec 2) = 0 → 7 ≤ (16 : Word).toNat) := by
  decide +kernel

end Sys2Proof.Tests
end

section
/-! Radix notation (00_scope.md R10, R11): `value` is the weighted sum of an array's words, and `value` and `digits` are
inverse to each other on radix words. -/

namespace Sys2Proof.Machine

open Sys2Proof

theorem RADIX_pos : 0 < RADIX := by decide

theorem RADIX_lt_two_pow_64 : RADIX < 2 ^ 64 := by decide

/-- One digit of `digits`, read back as a number: the word does not truncate it. -/
theorem toNat_ofNat_mod_RADIX (v : Nat) : (Word.ofNat (v % RADIX)).toNat = v % RADIX := by
  rw [BitVec.toNat_ofNat, Nat.mod_eq_of_lt ((Nat.mod_lt v RADIX_pos).trans RADIX_lt_two_pow_64)]

theorem value_dataList (s : State) (a n : Nat) :
    value (s.dataList a n) = ∑ i ∈ Finset.range n, (s.data (a + i)).toNat * RADIX ^ i := by
  induction n generalizing a with
  | zero => rfl
  | succ n ih =>
    have shift (i : Nat) : (s.data (a + (i + 1))).toNat * RADIX ^ (i + 1)
        = RADIX * ((s.data (a + 1 + i)).toNat * RADIX ^ i) := by
      rw [pow_succ, Nat.add_right_comm a 1 i, Nat.add_assoc]; ring
    rw [State.dataList, value, ih, Finset.sum_range_succ', Finset.mul_sum, Nat.add_comm]
    simp [shift]

/-- The value of an array, by its elements. -/
theorem State.value_eq_sum (s : State) (a : ArrayOperand) :
    s.value a = ∑ i ∈ Finset.range a.len, s.element a i * RADIX ^ i :=
  value_dataList s a.base.toNat a.len

@[simp] theorem value_digits (v n : Nat) : value (digits v n) = v % RADIX ^ n := by
  induction n generalizing v with
  | zero => simp [digits, value, Nat.mod_one]
  | succ n ih =>
    calc value (digits v (n + 1))
        = v % RADIX + RADIX * (v / RADIX % RADIX ^ n) := by
          rw [digits, value, toNat_ofNat_mod_RADIX, ih]
      _ = v % RADIX ^ (n + 1) := by rw [pow_succ', Nat.mod_mul]

theorem toNat_lt_RADIX_of_mem_digits {v n : Nat} {d : Word} (h : d ∈ digits v n) : d.toNat < RADIX := by
  induction n generalizing v with
  | zero => simp [digits] at h
  | succ n ih =>
    rcases List.mem_cons.1 h with rfl | h
    · rw [toNat_ofNat_mod_RADIX]; exact Nat.mod_lt v RADIX_pos
    · exact ih h

theorem digits_value {l : List Word} (h : ∀ d ∈ l, d.toNat < RADIX) : digits (value l) l.length = l := by
  induction l with
  | nil => rfl
  | cons w rest ih =>
    obtain ⟨hw, hrest⟩ := List.forall_mem_cons.1 h
    have low : (w.toNat + RADIX * value rest) % RADIX = w.toNat := by
      rw [Nat.add_mul_mod_self_left, Nat.mod_eq_of_lt hw]
    have high : (w.toNat + RADIX * value rest) / RADIX = value rest := by
      rw [Nat.add_mul_div_left _ _ RADIX_pos, Nat.div_eq_of_lt hw, Nat.zero_add]
    simp only [value, List.length_cons, digits, low, high, ih hrest, BitVec.ofNat_toNat, BitVec.setWidth_eq]

/-- Settles O13: each part by induction along the list of words or the number of digits. -/
theorem radixWordsStandForTheirValue : Obligations.Radix_words_stand_for_their_value :=
  ⟨State.value_eq_sum, fun v n => ⟨value_digits v n, fun _ => toNat_lt_RADIX_of_mem_digits⟩, fun _ => digits_value⟩

end Sys2Proof.Machine
end

section
/-! What one command can do, said once for all 37 (10_state.md R24, 20_memory.md R59, 60_exceptions.md R207, R210): a
fault of its checks, or writes to its destinations. Every statement about all commands is derived from `exec_after`. -/

namespace Sys2Proof.Machine

open Sys2Proof

/-! ### The traps of a command's checks -/

/-- A trap of the checks of `i`: a fault that leaves all memory as it is, or ALLOC with the destination arrays of `i`
inside `M` (R207). -/
def State.MayRaise (s : State) (i : Instr) (t : Trap) : Prop :=
  (t.cause ≠ .alloc ∧ t.clobbers = [])
    ∨ (t = { cause := .alloc, info := 0, clobbers := s.destinationArrays i } ∧ ∀ a ∈ s.destinationArrays i, a.Fits s)

/-- Every trap that a chain of checks can answer is one of `i`. -/
def State.Raises (s : State) (i : Instr) (checks : Option Trap) : Prop := ∀ t, checks = some t → s.MayRaise i t

section Raises

variable {i : Instr} {s : State}

@[simp] theorem raises_none : s.Raises i none := by simp [State.Raises]

/-- The second check of two is reached only when the first passes. -/
@[simp] theorem raises_or {c d : Option Trap} :
    s.Raises i (c.or d) ↔ s.Raises i c ∧ (c = none → s.Raises i d) := by
  cases c <;> simp [State.Raises]

@[simp] theorem raises_require {ok : Bool} {c : Cause} {inf : Word} (h : c ≠ .alloc) :
    s.Raises i (require ok c inf) := by
  intro t ht
  obtain ⟨-, rfl⟩ := require_eq_some.1 ht
  exact .inl ⟨h, rfl⟩

@[simp] theorem raises_checkPrimeIndex {j : Instr} : s.Raises i (checkPrimeIndex j) := raises_require (by decide)
@[simp] theorem raises_checkLen {ok : Bool} : s.Raises i (checkLen ok) := raises_require (by decide)
@[simp] theorem raises_checkAddr {a : ArrayOperand} : s.Raises i (s.checkAddr a) := raises_require (by decide)
@[simp] theorem raises_checkSameBase {a b : ArrayOperand} : s.Raises i (checkSameBase a b) := raises_require (by decide)
@[simp] theorem raises_checkStrict {a b : ArrayOperand} : s.Raises i (checkStrict a b) := raises_require (by decide)
@[simp] theorem raises_checkBelow {v : Word} {n : Nat} : s.Raises i (checkBelow v n) := raises_require (by decide)

@[simp] theorem raises_checkAddrs {l : List ArrayOperand} : s.Raises i (s.checkAddrs l) := by
  induction l with
  | nil => exact raises_none
  | cons a rest ih => simp [State.checkAddrs, ih]

@[simp] theorem raises_checkResidues {m : Nat} {l : List Word} : s.Raises i (checkResidues m l) := by
  induction l with
  | nil => exact raises_none
  | cons v rest ih => simp [checkResidues, ih]

@[simp] theorem raises_checkWords {bound : Nat} {a : ArrayOperand} : s.Raises i (s.checkWords bound a) := by
  intro t ht
  obtain ⟨_, -, rfl⟩ := Option.map_eq_some_iff.1 ht
  exact .inl ⟨Cause.noConfusion, rfl⟩

/-- The scratch check is made after the range checks, on the destination arrays of the command. -/
@[simp] theorem raises_checkScratch {user : Config.ScratchUser} {lengths : List Nat} {dsts : List ArrayOperand} :
    s.Raises i (s.checkScratch user lengths dsts)
      ↔ (scratchShort s.cfg user lengths = true → dsts = s.destinationArrays i ∧ ∀ a ∈ dsts, a.Fits s) := by
  cases h : scratchShort s.cfg user lengths <;> simp +contextual [State.Raises, State.checkScratch, State.MayRaise, h]

end Raises

/-! ### The writes of a command -/

/-- `u` is `s` after writes to destinations of `i` and to nothing else (R59). -/
inductive State.Writes (s : State) (i : Instr) : State → Prop
  | none : s.Writes i s
  | reg {u : State} {r : Reg} {v : Word} (hu : s.Writes i u) (hr : r ∈ destinationRegisters i) :
      s.Writes i (u.setReg r v)
  | words {u : State} {a : ArrayOperand} {l : List Word} (hu : s.Writes i u) (ha : a ∈ s.destinationArrays i)
      (hl : l.length = a.len) : s.Writes i (u.setWords a l)

/-- Everything command `i` can do in state `s`: HALT stops the run, another command writes its destinations, which lie
inside `M`, and `pc` advances, or a check fails and the fault is taken. -/
inductive State.After (s : State) (i : Instr) : State → Prop
  | halts (hi : i = .halt) : s.After i { s with status := { s.status with run := false, halted := true } }.advance
  | completes {u : State} (hfit : ∀ a ∈ s.destinationArrays i, a.Fits s) (hu : s.Writes i u) : s.After i u.advance
  | faults {t : Trap} (ht : s.MayRaise i t) : s.After i (s.raise t)

/-- A command whose checks raise only its traps and, passing, leave its destination arrays inside `M`. -/
theorem command_after {s : State} {i : Instr} {checks : Option Trap} {u : State}
    (h : exec i s = command s checks fun _ => u)
    (hc : s.Raises i checks ∧ (checks = none → ∀ a ∈ s.destinationArrays i, a.Fits s)) (hu : s.Writes i u) :
    ∃ t, exec i s = .next t ∧ s.After i t := by
  obtain ⟨hraises, hfit⟩ := hc
  rw [h]
  cases checks with
  | none => exact ⟨_, rfl, .completes (hfit rfl) hu⟩
  | some t => exact ⟨_, rfl, .faults (hraises t rfl)⟩

@[simp] theorem words_length (s : State) (a : ArrayOperand) : (s.words a).length = a.len := State.dataList_length s _ _
@[simp] theorem residues_length (s : State) (a : ArrayOperand) : (s.residues a).length = a.len := by
  simp [State.residues]

@[simp] theorem crtCoefficients_length (c : Config) (l1 l2 l3 : List Nat) :
    (crtCoefficients c l1 l2 l3).length = min l1.length (min l2.length l3.length) := by
  induction l1 generalizing l2 l3 with
  | nil => simp [crtCoefficients]
  | cons a l1 ih => cases l2 <;> cases l3 <;> simp [crtCoefficients, ih, Nat.succ_min_succ]

/-- Every command answers a next state, and one of `State.After`. -/
theorem exec_after (i : Instr) (s : State) : ∃ t, exec i s = .next t ∧ s.After i t := by
  cases i
  case halt => exact ⟨_, rfl, .halts rfl⟩
  case nop => exact command_after (checks := none) rfl (by simp [State.destinationArrays]) .none
  case li | lih | mov =>
    exact command_after (checks := none) rfl (by simp [State.destinationArrays]) (.reg .none List.mem_cons_self)
  case ldw | addmod | submod | mulmod | mulmodp | powmod | redp | nttlen =>
    exact command_after rfl (by simp [State.destinationArrays]) (.reg .none List.mem_cons_self)
  case mulw =>
    exact command_after (checks := none) rfl (by simp [State.destinationArrays])
      (.reg (.reg .none (.tail _ (.head _))) List.mem_cons_self)
  case divw =>
    exact command_after rfl (by simp [State.destinationArrays])
      (.reg (.reg .none (.tail _ (.head _))) List.mem_cons_self)
  case mulmod2 | mulmod2c =>
    exact command_after rfl (by simp [State.destinationArrays])
      (.reg (.reg .none List.mem_cons_self) (.tail _ (.head _)))
  case add | sub | sadd | smul | sdiv | shr10 | crt3 =>
    exact command_after rfl
      (by simp +contextual [State.checkAddSub, State.destinationArrays, State.array, State.scalar])
      (.reg (.words .none List.mem_cons_self (by simp [State.array])) List.mem_cons_self)
  case stw rd ra imm =>
    exact command_after (u := s.setWords ⟨s.effectiveAddress ra imm, 1⟩ [s.reg rd]) rfl
      (by simp +contextual [State.destinationArrays, State.effectiveAddress])
      (.words .none List.mem_cons_self rfl)
  case bmul | shl10 | nttstg | nttrev | nttfwd | nttinv | nttaconv | kmul | kmuln | nmul =>
    exact command_after rfl
      (by simp +contextual [State.checkProduct, State.destinationArrays, State.array, State.scalar])
      (.words .none List.mem_cons_self (by simp [State.array]))
  case nttconv =>
    exact command_after rfl (by simp +contextual [State.destinationArrays, State.array, State.scalar])
      (.words (.words .none List.mem_cons_self (by simp [State.array])) (.tail _ (.head _)) (by simp [State.array]))
  case bdivmod =>
    exact command_after rfl (by simp +contextual [State.destinationArrays, State.array, State.scalar])
      (.reg (.words (.words .none List.mem_cons_self (by simp [State.array])) (.tail _ (.head _))
        (by simp [State.array])) List.mem_cons_self)

end Sys2Proof.Machine
end

section
/-! The state across one command, one step, one event and a run (10_state.md R24, R26, R29, R34, R35; 60_exceptions.md
R210), derived from `exec_after`. -/

namespace Sys2Proof.Machine

open Sys2Proof

/-! ### What the writes of a command leave -/

/-- Writes change registers and data memory, and no other field. -/
theorem State.Writes.frame {s u : State} {i : Instr} (h : s.Writes i u) :
    ∃ regs m, u = { s with regs := regs, dataMem := m } := by
  induction h with
  | none => exact ⟨_, _, rfl⟩
  | reg _ _ ih => obtain ⟨_, _, rfl⟩ := ih; exact ⟨_, _, rfl⟩
  | words _ _ _ ih => obtain ⟨_, _, rfl⟩ := ih; exact ⟨_, _, rfl⟩

theorem State.Writes.reg_eq {s u : State} {i : Instr} (h : s.Writes i u) {q : Reg} (hq : q ∉ destinationRegisters i) :
    u.reg q = s.reg q := by
  induction h with
  | none => rfl
  | reg _ hr ih => rw [State.setReg_reg_ne _ _ (ne_of_mem_of_not_mem hr hq).symm, ih]
  | words _ _ _ ih => rw [State.setWords_reg, ih]

theorem State.Writes.data_eq {s u : State} {i : Instr} (h : s.Writes i u) {b : Nat}
    (hb : ∀ a ∈ s.destinationArrays i, ¬a.Holds b) : u.data b = s.data b := by
  induction h with
  | none => rfl
  | reg _ _ ih => rw [State.setReg_data, ih]
  | @words u a l _ ha hl ih =>
    have hout := hb a ha
    rw [State.setWords, State.setData_data_outside _ _ (by simp only [ArrayOperand.Holds] at hout; omega), ih]

theorem State.Writes.storesOk {s u : State} {i : Instr} (h : s.Writes i u) (hs : s.StoresOk)
    (hfit : ∀ a ∈ s.destinationArrays i, a.Fits s) : u.StoresOk := by
  induction h with
  | none => exact hs
  | reg _ _ ih => exact ih
  | @words u a l hu ha hl ih =>
    obtain ⟨hd, hin, hcmd⟩ := ih
    obtain ⟨_, _, hframe⟩ := hu.frame
    have hcfg : u.cfg = s.cfg := by rw [hframe]
    exact ⟨Memory.wf_writeList l hd _, Memory.within_writeList l hin (by rw [hl, hcfg]; exact hfit a ha), hcmd⟩

/-! ### Faults -/

theorem State.MayRaise.mem_clobbers {s : State} {i : Instr} {t : Trap} (h : s.MayRaise i t) {a : ArrayOperand}
    (ha : a ∈ t.clobbers) : a ∈ s.destinationArrays i ∧ a.Fits s := by
  rcases h with ⟨-, hnil⟩ | ⟨rfl, hfit⟩
  · simp [hnil] at ha
  · exact ⟨ha, hfit a ha⟩

@[simp] theorem raise_reg (s : State) (t : Trap) (r : Reg) : (s.raise t).reg r = s.reg r := by simp [State.reg]

@[simp] theorem raise_command (s : State) (t : Trap) (b : Nat) : (s.raise t).command b = s.command b := by
  simp [State.command]

theorem raise_data {s : State} {t : Trap} {b : Nat} (h : ∀ a ∈ t.clobbers, ¬a.Holds b) :
    (s.raise t).data b = s.data b :=
  clobber_data s t.clobbers b h

theorem code_between_one_and_nine (c : Cause) : 1 ≤ c.code.toNat ∧ c.code.toNat ≤ 9 := by cases c <;> decide

/-! ### One command -/

/-- Settles O44, by the three cases of `State.After`. -/
theorem everyCommandCompletesOrFaults : Obligations.Every_command_completes_or_faults := by
  intro i s hfault
  obtain ⟨t, ht, hafter⟩ := exec_after i s
  refine ⟨t, ht, ?_⟩
  cases hafter with
  | halts hi => exact .inl ⟨hfault, rfl, rfl, rfl, rfl, rfl, (absurd hi ·)⟩
  | completes _ hu =>
    obtain ⟨_, _, rfl⟩ := hu.frame
    exact .inl ⟨hfault, rfl, rfl, rfl, rfl, rfl, fun _ => rfl⟩
  | @faults f hf =>
    obtain ⟨hc, hnil⟩ | ⟨rfl, -⟩ := hf
    · obtain ⟨c, info, clobbers⟩ := f
      obtain rfl : clobbers = [] := hnil
      exact .inr (.inl ⟨c, info, hc, raise_plain s c info⟩)
    · exact .inr (.inr (allocFaulted_raise _))

/-- Settles O45, by the three cases of `State.After`: HALT, writes to destinations, and a fault with its clobbers. -/
theorem aCommandWritesOnlyItsDestinations : Obligations.A_command_writes_only_its_destinations := by
  intro i s t ht
  obtain ⟨t', ht', hafter⟩ := exec_after i s
  obtain rfl : t' = t := by simpa [ht'] using ht
  cases hafter with
  | halts => exact ⟨fun _ _ => rfl, fun _ _ => rfl, fun _ => rfl, rfl⟩
  | @completes u _ hu =>
    refine ⟨fun _ hr => hu.reg_eq hr, fun _ hb => hu.data_eq hb, ?_⟩
    obtain ⟨_, _, rfl⟩ := hu.frame
    exact ⟨fun _ => rfl, rfl⟩
  | faults hf =>
    exact ⟨fun r _ => raise_reg s _ r, fun b hb => raise_data fun a ha => hb a (hf.mem_clobbers ha).1,
      raise_command s _, raise_cfg s _⟩

/-! ### The invariant across a step -/

/-- Fault entry from a running state keeps the invariant. -/
theorem State.Inv.raise {s : State} (hs : s.Inv) (hrun : s.status.run = true) {t : Trap}
    (hfit : ∀ a ∈ t.clobbers, a.Fits s) : (s.raise t).Inv := by
  obtain ⟨⟨hrunHalted, -, -⟩, -, ⟨hwf, hin, hcwf, hcin⟩, -⟩ := hs
  obtain ⟨hwf', hin'⟩ := clobber_stores s t.clobbers hwf hin hfit
  refine ⟨?_, ⟨fun _ => code_between_one_and_nine t.cause, ?_⟩, ?_, ?_⟩
  · simpa [Status.AtMostOne, hrun] using hrunHalted
  · simp
  · exact ⟨hwf', by rwa [raise_cfg], by rwa [raise_cmdMem], by rwa [raise_cmdMem, raise_cfg]⟩
  · simp [State.LastCommandOk]

/-- A command at an address of `C` keeps the invariant. -/
theorem State.Inv.after {s t : State} {i : Instr} (hs : s.Inv) (hrun : s.status.run = true)
    (hpc : s.pc.toNat < s.cfg.cmdWords) (h : s.After i t) : t.Inv := by
  cases h with
  | faults hf => exact hs.raise hrun fun a ha => (hf.mem_clobbers ha).2
  | halts =>
    obtain ⟨⟨-, hrunFault, -⟩, hrecord, hstores, -⟩ := hs
    refine ⟨?_, hrecord, hstores, ?_⟩
    · simpa [Status.AtMostOne, hrun] using hrunFault
    · simp [State.LastCommandOk]
  | completes hfit hu =>
    obtain ⟨hstatus, hrecord, hstores, -⟩ := hs
    have hstores' := hu.storesOk hstores hfit
    obtain ⟨_, _, rfl⟩ := hu.frame
    refine ⟨hstatus, hrecord, hstores', ?_⟩
    rintro - a ha
    obtain rfl : s.pc = a := Option.some.inj ha
    exact ⟨rfl, hpc⟩

/-- Everything a step of a running state can do: a fetch or decode fault (R90, R202, R203), or the command at `pc`. -/
theorem step_running {s : State} (hrun : s.status.run = true) :
    ∃ t, step s = .next t
      ∧ ((∃ f : Trap, f.clobbers = [] ∧ t = s.raise f) ∨ ∃ i, s.pc.toNat < s.cfg.cmdWords ∧ s.After i t) := by
  rw [step, sequencerStep, if_pos hrun, runCommand]
  split_ifs with hpc
  · exact ⟨_, rfl, .inl ⟨{ cause := .fetch, info := s.pc }, rfl, rfl⟩⟩
  · dsimp only
    cases decode (s.command s.pc.toNat) with
    | error => exact ⟨_, rfl, .inl ⟨{ cause := .illegal, info := s.command s.pc.toNat }, rfl, rfl⟩⟩
    | ok i =>
      obtain ⟨t, ht, hafter⟩ := exec_after i s
      exact ⟨t, ht, .inr ⟨i, by omega, hafter⟩⟩

theorem step_stopped {s : State} (hrun : s.status.run = false) : step s = .next s := by
  simp [step, sequencerStep, hrun]

/-- A step from a state with the invariant answers a next state with the invariant. -/
theorem step_inv {s : State} (hs : s.Inv) : ∃ t, step s = .next t ∧ t.Inv := by
  cases hrun : s.status.run with
  | false => exact ⟨s, step_stopped hrun, hs⟩
  | true =>
    obtain ⟨t, ht, ⟨f, hf, rfl⟩ | ⟨i, hpc, hafter⟩⟩ := step_running hrun
    · exact ⟨_, ht, hs.raise hrun (by simp [hf])⟩
    · exact ⟨t, ht, hs.after hrun hpc hafter⟩

/-- Settles O51: fault entry and every outcome of a command keep the invariant. -/
theorem everyStepKeepsTheInvariant : Obligations.Every_step_keeps_the_invariant := by
  intro s t hs ht
  obtain ⟨t', ht', hinv⟩ := step_inv hs
  obtain rfl : t' = t := by simpa [ht'] using ht
  exact hinv

/-! ### The invariant across the other events -/

theorem resetOf_inv (cfg : Config) (epoch freeCount : Nat) : (State.resetOf cfg epoch freeCount).Inv := by
  simp [State.resetOf, State.Inv, Status.AtMostOne, State.FaultRecordOk, State.StoresOk, State.LastCommandOk]

/-- Settles O52: the registers are 0 and the stores empty. -/
theorem resetMeetsTheInvariant : Obligations.Reset_meets_the_invariant := resetOf_inv Config.default 0 0

/-! ### A write to CTRL (R27) -/

/-- A run starts at `pc` (R27): RUN set, HALTED cleared, no command executed in it yet. -/
def State.startRun (s : State) : State :=
  { s with status := { s.status with run := true, halted := false }, lastCommand := none }

/-- Everything a write to CTRL without SRST can do: CLRF comes first and clears the fault record or has no effect, then
START starts a run or has none. -/
theorem writeCtrl_cases {s : State} {data : Word} (h : data.getLsbD 2 = false) :
    ∃ c : State,
      (c = s.clearFault ∧ (data.getLsbD 1 = true ∧ s.status.run = false)
        ∨ c = s ∧ ¬(data.getLsbD 1 = true ∧ s.status.run = false))
      ∧ c.status.run = s.status.run
      ∧ (s.writeCtrl data = c.startRun ∧ (data.getLsbD 0 = true ∧ s.status.run = false ∧ c.status.fault = false)
        ∨ s.writeCtrl data = c ∧ ¬(data.getLsbD 0 = true ∧ s.status.run = false ∧ c.status.fault = false)) := by
  have hrun : (if data.getLsbD 1 then s.ctrlClrf else s).status.run = s.status.run := by
    cases data.getLsbD 1 <;> cases hr : s.status.run <;> simp [State.ctrlClrf, hr]
  refine ⟨_, ?_, hrun, ?_⟩
  · cases data.getLsbD 1 <;> cases hr : s.status.run <;> simp [State.ctrlClrf, hr]
  · simp only [State.writeCtrl, h, ← hrun]
    generalize (if data.getLsbD 1 = true then s.ctrlClrf else s) = c
    cases data.getLsbD 0 <;> cases hr : c.status.run <;> cases hf : c.status.fault <;>
      simp [State.ctrlStart, State.startRun, hr, hf]

theorem State.Inv.clearFault {s : State} (hs : s.Inv) : s.clearFault.Inv := by
  obtain ⟨⟨hrunHalted, -, -⟩, -, hstores, hlast⟩ := hs
  refine ⟨?_, ?_, hstores, hlast⟩
  · simpa [Status.AtMostOne] using hrunHalted
  · simp [State.FaultRecordOk]

theorem State.Inv.startRun {s : State} (hs : s.Inv) (hfault : s.status.fault = false) : s.startRun.Inv := by
  obtain ⟨-, hrecord, hstores, -⟩ := hs
  refine ⟨?_, hrecord, hstores, ?_⟩
  · simp [Status.AtMostOne, State.startRun, hfault]
  · simp [State.LastCommandOk, State.startRun]

theorem State.Inv.writeCtrl {s : State} (hs : s.Inv) (data : Word) : (s.writeCtrl data).Inv := by
  cases hsrst : data.getLsbD 2 with
  | true => rw [State.writeCtrl, if_pos hsrst]; exact resetOf_inv _ _ _
  | false =>
    obtain ⟨c, hc, -, hstart⟩ := writeCtrl_cases (s := s) hsrst
    have hcinv : c.Inv := by
      obtain ⟨rfl, -⟩ | ⟨rfl, -⟩ := hc
      exacts [hs.clearFault, hs]
    obtain ⟨h, -, -, hfault⟩ | ⟨h, -⟩ := hstart
    · rw [h]; exact hcinv.startRun hfault
    · rwa [h]

/-! ### The other operations of the port -/

/-- `pc` is no part of the invariant of a stopped block. -/
theorem State.Inv.setPc {s : State} (hs : s.Inv) (hrun : s.status.run = false) (pc : Word) :
    State.Inv { s with pc := pc } := by
  obtain ⟨hstatus, hrecord, hstores, -⟩ := hs
  exact ⟨hstatus, hrecord, hstores, by simp [State.LastCommandOk, hrun]⟩

theorem State.Inv.hostWrite {s : State} (hs : s.Inv) (space : BitVec 2) (addr data : Word) :
    (hostWrite s space addr data).Inv := by
  rw [Machine.hostWrite]
  split_ifs with h0 h1 hc h2 hm
  · rw [State.writeControl]
    split_ifs with hctrl hrun hpc
    · exact hs.writeCtrl data
    · exact hs
    · exact hs.setPc (by simpa using hrun) data
    · split
      · exact hs
      · exact hs
  · exact hs
  · obtain ⟨hstatus, hrecord, ⟨hwf, hin, hcwf, hcin⟩, hlast⟩ := hs
    obtain ⟨-, hlt⟩ : s.status.run = false ∧ addr.toNat < s.cfg.cmdWords := by simpa using hc
    exact ⟨hstatus, hrecord, ⟨hwf, hin, Memory.wf_set hcwf _ _, Memory.within_set hcin hlt _⟩, hlast⟩
  · exact hs
  · obtain ⟨hstatus, hrecord, ⟨hwf, hin, hcmd⟩, hlast⟩ := hs
    obtain ⟨-, hlt⟩ : s.status.run = false ∧ addr.toNat < s.cfg.memWords := by simpa using hm
    exact ⟨hstatus, hrecord, ⟨Memory.wf_set hwf _ _, Memory.within_set hin hlt _, hcmd⟩, hlast⟩
  · exact hs

/-- A read changes nothing but the model's count of free values. -/
theorem hostRead_state (s : State) (space : BitVec 2) (addr : Word) :
    ∃ k, (hostRead s space addr).2 = { s with freeCount := k } := by
  rw [hostRead, State.readControl]
  repeat' split
  all_goals exact ⟨_, rfl⟩

theorem State.Inv.hostTransaction {s : State} (hs : s.Inv) (q : HostRequest) : (hostTransaction s q).2.Inv := by
  rw [Machine.hostTransaction]
  split_ifs
  · exact hs.hostWrite q.space q.addr q.wdata
  · obtain ⟨k, hk⟩ := hostRead_state s q.space q.addr
    simp only [hk]
    exact hs

/-- Settles O53, one case an event. -/
theorem everyEventKeepsTheInvariant : Obligations.Every_event_keeps_the_invariant := by
  intro s e hs
  cases e with
  | step => exact step_inv hs
  | host q => exact ⟨_, rfl, hs.hostTransaction q⟩
  | rst => exact ⟨_, rfl, resetOf_inv _ _ _⟩

/-! ### The end of a run -/

/-- A step of a running state ends the run, by HALT or by a fault, or executes a command of `C` and goes on with the
next (R24, R234). -/
theorem step_ends_or_advances {s : State} (hs : s.Inv) (hrun : s.status.run = true) :
    ∃ t, step s = .next t
      ∧ ((t.status.run = false ∧ (t.status.halted = true ↔ t.status.fault = false))
        ∨ (t.status.run = true ∧ t.pc = s.pc + 1 ∧ s.pc.toNat < s.cfg.cmdWords ∧ t.cfg = s.cfg)) := by
  obtain ⟨⟨hrunHalted, hrunFault, -⟩, -⟩ := hs
  have hhalted : s.status.halted = false := by simpa [hrun] using hrunHalted
  have hfault : s.status.fault = false := by simpa [hrun] using hrunFault
  obtain ⟨t, ht, ⟨f, -, rfl⟩ | ⟨i, hpc, hafter⟩⟩ := step_running hrun
  · exact ⟨_, ht, .inl (by simp [hhalted])⟩
  · refine ⟨t, ht, ?_⟩
    cases hafter with
    | halts => exact .inl (by simp [hfault])
    | faults => exact .inl (by simp [hhalted])
    | completes _ hu =>
      obtain ⟨_, _, rfl⟩ := hu.frame
      exact .inr ⟨hrun, rfl, hpc, rfl⟩

theorem run_succ_of_step {M : Host.Core} {s t : M.State} (h : M.step s = .next t) (k : Nat) :
    M.run (k + 1) s = M.run k t := by
  rw [Host.Core.run, h]

/-- A run from `pc` ends within `n + 1` steps when `n` bounds the commands of `C` that are left. -/
theorem run_ends_within (n : Nat) {s : State} (hs : s.Inv) (hrun : s.status.run = true)
    (hsize : s.cfg.cmdWords ≤ 2 ^ 32) (hn : s.cfg.cmdWords - s.pc.toNat ≤ n) :
    ∃ k ≤ n + 1, ∃ t, core.run k s = .next t
      ∧ t.status.run = false ∧ (t.status.halted = true ↔ t.status.fault = false) := by
  induction n generalizing s with
  | zero =>
    obtain ⟨t, ht, hend | ⟨-, -, hpc, -⟩⟩ := step_ends_or_advances hs hrun
    · exact ⟨1, by omega, t, run_succ_of_step (M := core) ht 0, hend⟩
    · omega
  | succ n ih =>
    obtain ⟨t, ht, hend | ⟨htrun, hnext, hpc, hcfg⟩⟩ := step_ends_or_advances hs hrun
    · exact ⟨1, by omega, t, run_succ_of_step (M := core) ht 0, hend⟩
    · have htpc : t.pc.toNat = s.pc.toNat + 1 := by rw [hnext]; bv_omega
      have htinv : t.Inv := everyStepKeepsTheInvariant s t hs ht
      obtain ⟨k, hk, u, hu, hend⟩ := ih htinv htrun (by rwa [hcfg]) (by rw [hcfg, htpc]; omega)
      exact ⟨k + 1, by omega, u, (run_succ_of_step (M := core) ht k).trans hu, hend⟩

/-- Settles O54, by induction on the number of commands left in `C`. -/
theorem everyRunEnds : Obligations.Every_run_ends := fun _ hs hrun hsize => run_ends_within _ hs hrun hsize le_rfl

end Sys2Proof.Machine
end

section
/-! The host port and reset (10_state.md R26 to R36, R40, R46; 70_reset_and_hazards.md R230, R237): what each address
names, and the statements about reads, writes and resets. -/

namespace Sys2Proof.Machine

open Sys2Proof

/-! ### The addresses of space 0 (R33) -/

@[simp] theorem hostRegister?_ofNat (r : Reg) : hostRegister? (Word.ofNat (16 + r.val)) = some r := by
  revert r; decide

theorem hostRegister?_eq_none {a : Word} (h : a.toNat < 16 ∨ 32 ≤ a.toNat) : hostRegister? a = none := by
  rw [hostRegister?, if_neg]
  intro h1
  have := congrArg BitVec.toNat h1
  simp [BitVec.extractLsb'_toNat, Nat.shiftRight_eq_div_pow] at this
  omega

theorem toNat_ofNat_register (r : Reg) : (Word.ofNat (16 + r.val)).toNat = 16 + r.val := by
  rw [BitVec.toNat_ofNat, Nat.mod_eq_of_lt (by omega)]

@[simp] theorem Status.word_toNat (t : Status) :
    t.word.toNat = (if t.run then 1 else 0) + (if t.halted then 2 else 0) + (if t.fault then 4 else 0) := by
  obtain ⟨_ | _, _ | _, _ | _⟩ := t <;> rfl

/-- A read of an address of space 0 above the control registers. -/
theorem readControl_of_seven_le {s : State} {a : Word} (h : 7 ≤ a.toNat) :
    s.readControl a = (((hostRegister? a).map fun r => if s.status.run then 0 else s.reg r).getD 0, s) := by
  have hne : a ≠ 0 ∧ a ≠ 2 ∧ a ≠ 3 ∧ a ≠ 4 ∧ a ≠ 5 ∧ a ≠ 6 := by
    refine ⟨?_, ?_, ?_, ?_, ?_, ?_⟩ <;> bv_omega
  obtain ⟨h0, h2, h3, h4, h5, h6⟩ := hne
  simp only [State.readControl, h0, h2, h3, h4, h5, h6, if_false]
  cases hostRegister? a <;> rfl

/-- A write to an address of space 0 other than CTRL and PC, to a stopped block. -/
theorem writeControl_of_stopped {s : State} {a data : Word} (hrun : s.status.run = false) (h1 : a ≠ 1) (h3 : a ≠ 3) :
    s.writeControl a data = ((hostRegister? a).map fun r => s.setReg r data).getD s := by
  simp only [State.writeControl, h1, h3, hrun, if_false, Bool.false_eq_true]
  cases hostRegister? a <;> rfl

/-! ### Reset -/

/-- Settles O55: both ways of reset answer `State.resetOf`, whose registers are 0. -/
theorem resetClearsEveryRegister : Obligations.Reset_clears_every_register := by
  have hreg (cfg : Config) (epoch freeCount : Nat) (r : Reg) : (State.resetOf cfg epoch freeCount).reg r = 0 := by
    simp [State.reg, State.resetOf]
  refine ⟨⟨hreg _ _ _, rfl, rfl, rfl, rfl, rfl⟩, fun s => ⟨rfl, ⟨hreg _ _ _, rfl, rfl, rfl, rfl, rfl⟩, rfl⟩, ?_⟩
  intro s data h
  exact if_pos h

/-! ### CTRL -/

/-- What a read of PC answers (R28). -/
theorem hostRead_pc (s : State) :
    (hostRead s 0 3).1 =
      if s.status.run ∧ Config.pcReadShowsExecuting s.freeCount then s.lastCommand.getD s.pc else s.pc := by
  cases hrun : s.status.run <;> simp [hostRead, State.readControl, State.readPcRunning, hrun]

/-- Settles O56, by the cases of CLRF and of START in `writeCtrl_cases`. -/
theorem ctrlClearsThenStarts : Obligations.Ctrl_clears_then_starts := by
  intro s data t clears starts
  have hwrite : s.writeCtrl data = t := rfl
  refine ⟨rfl, fun h => if_pos h, fun h => ?_⟩
  obtain ⟨c, hclrf, hrun, hstart⟩ := writeCtrl_cases (s := s) h
  rw [hwrite] at hstart
  have hrecord : t.status.fault = c.status.fault ∧ t.cause = c.cause ∧ t.epc = c.epc ∧ t.finfo = c.finfo := by
    obtain ⟨ht, -⟩ | ⟨ht, -⟩ := hstart <;> rw [ht] <;> exact ⟨rfl, rfl, rfl, rfl⟩
  obtain ⟨hfault, hcause, hepc, hfinfo⟩ := hrecord
  rw [← hfault] at hstart
  rw [hfault, hcause, hepc, hfinfo]
  refine ⟨fun hc => ?_, fun hc => ?_, fun hs => ?_, fun hs => ?_, ?_⟩
  · obtain ⟨rfl, -⟩ | ⟨-, hno⟩ := hclrf
    · exact ⟨rfl, rfl, rfl, rfl⟩
    · exact absurd hc hno
  · obtain ⟨-, hyes⟩ | ⟨rfl, -⟩ := hclrf
    · exact absurd hyes hc
    · exact ⟨rfl, rfl, rfl, rfl⟩
  · obtain ⟨ht, -⟩ | ⟨-, hno⟩ := hstart
    · rw [ht]; exact ⟨rfl, rfl⟩
    · exact absurd hs hno
  · obtain ⟨-, hyes⟩ | ⟨ht, -⟩ := hstart
    · exact absurd hyes hs
    · simp only [ht, hostRead_pc]
      obtain ⟨rfl, -⟩ | ⟨rfl, -⟩ := hclrf <;> exact ⟨rfl, rfl, rfl⟩
  · obtain ⟨rfl, -⟩ | ⟨rfl, -⟩ := hclrf <;> obtain ⟨ht, -⟩ | ⟨ht, -⟩ := hstart <;> rw [ht] <;>
      exact ⟨rfl, rfl, rfl, rfl, rfl, rfl, rfl, fun _ => rfl, fun _ => rfl⟩

/-! ### Reads and writes while RUN = 0 -/

theorem hostRead_state_of_stopped {s : State} (hrun : s.status.run = false) (space : BitVec 2) (a : Word) :
    (hostRead s space a).2 = s := by
  simp only [hostRead, State.readControl, hrun, Bool.false_eq_true, if_false]
  repeat' split
  all_goals rfl

/-- Settles O57: space 0 by the register an address names, the stores by their size. -/
theorem hostReadsAnswerTheRegistersAndStores : Obligations.Host_reads_answer_the_registers_and_stores := by
  intro s hrun read
  refine ⟨rfl, rfl, ?_, ?_, rfl, rfl, rfl, ?_, ?_, ?_, ?_, fun _ => rfl, hostRead_state_of_stopped hrun⟩
  · show s.status.word.toNat = _
    simp [hrun]
  · show (hostRead s 0 3).1 = _
    rw [hostRead_pc, hrun]
    rfl
  · intro r
    have hr := toNat_ofNat_register r
    show (s.readControl _).1 = _
    simp [readControl_of_seven_le (s := s) (a := Word.ofNat (16 + r.val)) (by omega), hrun]
  · intro a ha
    show (s.readControl a).1 = _
    simp [readControl_of_seven_le (s := s) (a := a) (by omega), hostRegister?_eq_none (a := a) (by omega)]
  · intro a
    by_cases ha : a.toNat < s.cfg.cmdWords <;> simp [read, hostRead, hrun, ha, Nat.not_le.2]
  · intro a
    by_cases ha : a.toNat < s.cfg.memWords <;> simp [read, hostRead, hrun, ha, Nat.not_le.2]

/-- Settles O58: space 0 by the register an address names, the stores by one `Memory.set`. -/
theorem hostWritesReachWhatTheyName : Obligations.Host_writes_reach_what_they_name := by
  intro s data hrun
  have hreg (r : Reg) : hostWrite s 0 (Word.ofNat (16 + r.val)) data = s.setReg r data := by
    have hr := toNat_ofNat_register r
    have h1 : Word.ofNat (16 + r.val) ≠ 1 := by bv_omega
    have h3 : Word.ofNat (16 + r.val) ≠ 3 := by bv_omega
    show s.writeControl _ data = _
    simp [writeControl_of_stopped hrun h1 h3]
  refine ⟨?_, ?_, ?_, ?_, ?_, ?_, ?_, ?_, fun _ => rfl⟩
  · simp [hostWrite, State.writeControl, hrun]
  · exact fun r => by rw [hreg]; exact ⟨State.setReg_reg_self s r data, fun q hq => State.setReg_reg_ne s data hq⟩
  · exact fun r => by rw [hreg]; rfl
  · intro a h1 h3 ha
    show s.writeControl a data = s
    rw [writeControl_of_stopped hrun h1 h3, hostRegister?_eq_none ha]
    rfl
  · intro a ha
    have h : hostWrite s 1 a data = { s with cmdMem := s.cmdMem.set a.toNat data } := by
      simp [hostWrite, hrun, Nat.not_le.2 ha]
    refine ⟨fun b => ?_, by rw [h]⟩
    rw [h, State.command, Memory.get?_set]
    split_ifs <;> rfl
  · intro a ha
    simp [hostWrite, ha]
  · intro a ha
    have h : hostWrite s 2 a data = s.setData a.toNat [data] := by
      simp [hostWrite, hrun, Nat.not_le.2 ha]
    refine ⟨fun b => ?_, by rw [h]; rfl⟩
    rw [h, State.data, State.setData_dataMem, Memory.writeList_cons, Memory.writeList_nil, Memory.get?_set]
    split_ifs <;> rfl
  · intro a ha
    simp [hostWrite, ha]

/-! ### The port while RUN = 1 -/

theorem writeCtrl_running {s : State} (hrun : s.status.run = true) {data : Word} (h : data.getLsbD 2 = false) :
    s.writeCtrl data = s := by
  obtain ⟨c, ⟨-, -, hstop⟩ | ⟨rfl, -⟩, -, ⟨-, -, hstop, -⟩ | ⟨ht, -⟩⟩ := writeCtrl_cases (s := s) h
  case inr.inr => exact ht
  all_goals simp [hrun] at hstop

theorem hostWrite_running {s : State} (hrun : s.status.run = true) {space : BitVec 2} {a data : Word}
    (h : ¬(space = 0 ∧ a = 1 ∧ data.getLsbD 2 = true)) : hostWrite s space a data = s := by
  by_cases hctrl : space = 0 ∧ a = 1
  · obtain ⟨rfl, rfl⟩ := hctrl
    exact writeCtrl_running hrun (by simpa using h)
  · by_cases h0 : space = 0
    · rw [hostWrite, if_pos h0, State.writeControl, if_neg fun h1 => hctrl ⟨h0, h1⟩, if_pos hrun]
    · rw [hostWrite, if_neg h0]
      simp [hrun]

/-- Reads of the registers, of `C`, of `M` and of reserved places. -/
theorem hostRead_running {s : State} (hrun : s.status.run = true) {space : BitVec 2} {a : Word}
    (h : space = 0 → 7 ≤ a.toNat) : (hostRead s space a).1 = 0 := by
  by_cases h0 : space = 0
  · subst h0
    show (s.readControl a).1 = 0
    rw [readControl_of_seven_le (h rfl), hrun]
    cases hostRegister? a <;> rfl
  · rw [hostRead, if_neg h0]
    simp [hrun]

theorem hostWrite_start {s : State} (hrun : s.status.run = false) (hfault : s.status.fault = false) :
    hostWrite s 0 1 1 = s.startRun := by
  show s.writeCtrl 1 = s.startRun
  simp [State.writeCtrl, State.ctrlStart, State.startRun, hrun, hfault]

/-- Settles O59: writes by `hostWrite_running`, reads by `hostRead_running`, and PC by `hostRead_pc`. -/
theorem hostCannotDisturbARun : Obligations.Host_cannot_disturb_a_run := by
  refine ⟨fun s hrun => ⟨fun _ _ _ => hostWrite_running hrun, fun _ _ => hostRead_running hrun, rfl, rfl, rfl, rfl,
    ?_, ?_, hostRead_state s⟩, fun s hrun hfault => ?_⟩
  · show s.status.word.toNat = _
    simp [hrun]
  · rw [hostRead_pc]
    split_ifs
    · cases s.lastCommand with
      | none => exact .inl rfl
      | some a => exact .inr rfl
    · exact .inl rfl
  · rw [hostWrite_start hrun hfault]
    refine ⟨rfl, ?_⟩
    rw [hostRead_pc]
    exact ite_self _

end Sys2Proof.Machine
end

section
/-! The command word (30_encoding.md R71 to R78). One row of the opcode map fixes which fields of a word are free
(`Row.cleared`); the decoder, the encoder and the row's mask and match in spec/opcode_table.json are each compared with
that, and the statements about all words follow. -/

namespace Sys2Proof

/-! ### Fields and words -/

theorem Fields.toWord_inj {f g : Fields} : f.toWord = g.toWord ↔ f = g :=
  (Function.LeftInverse.injective Fields.ofWord_toWord).eq_iff

/-- Bitwise "and", field by field. -/
def Fields.and (f g : Fields) : Fields where
  op := f.op &&& g.op
  rd := f.rd &&& g.rd
  ra := f.ra &&& g.ra
  rb := f.rb &&& g.rb
  rc := f.rc &&& g.rc
  re := f.re &&& g.re
  rf := f.rf &&& g.rf
  rg := f.rg &&& g.rg
  zero25 := f.zero25 &&& g.zero25
  inv := f.inv &&& g.inv
  pi := f.pi &&& g.pi

theorem Fields.toWord_and (f g : Fields) : f.toWord &&& g.toWord = (f.and g).toWord := by
  simp only [Fields.toWord, Fields.and, ← BitVec.and_append]

/-- The immediate read is the immediate set (R74). -/
@[simp] theorem Fields.withImm_imm32 (f g : Fields) :
    Fields.withImm f.imm32 g = { g with rg := f.rg, zero25 := f.zero25, inv := f.inv, pi := f.pi } := by
  obtain ⟨hrg, hzero25, hinv, hpi⟩ : f.imm32.extractLsb' 28 4 = f.rg ∧ f.imm32.extractLsb' 3 25 = f.zero25
      ∧ f.imm32.extractLsb' 2 1 = f.inv ∧ f.imm32.extractLsb' 0 2 = f.pi := by
    refine ⟨?_, ?_, ?_, ?_⟩ <;>
      (apply BitVec.eq_of_getLsbD_eq
       intro i hi
       simp only [Fields.imm32, BitVec.getLsbD_extractLsb', BitVec.getLsbD_append]
       interval_cases i <;> simp)
  rw [Fields.withImm, hrg, hzero25, hinv, hpi]

theorem ofBool_beq_one (b : BitVec 1) : BitVec.ofBool (b == 1#1) = b := by
  revert b; decide

/-! ### What a row of the opcode map leaves free (R72, R73) -/

/-- Whether the format and the field list of a row let a field of the word be other than zero. -/
def Row.isFree (r : Row) (k : FieldName) : Bool :=
  match r.format with
  | .Z => false
  | .I => [FieldName.rd, .rg, .inv, .pi].contains k
  | .M => [FieldName.rd, .ra, .rg, .inv, .pi].contains k
  | .R => r.used.contains k

/-- Whether the low 32 bits of the row's words are an immediate. -/
def Row.hasImmediate (r : Row) : Bool := r.format == .I || r.format == .M

/-- The fields made a word of the row: its opcode, the free fields as they are, every other bit zero. -/
def Row.cleared (r : Row) (f : Fields) : Fields where
  op := r.op
  rd := if r.isFree .rd then f.rd else 0
  ra := if r.isFree .ra then f.ra else 0
  rb := if r.isFree .rb then f.rb else 0
  rc := if r.isFree .rc then f.rc else 0
  re := if r.isFree .re then f.re else 0
  rf := if r.isFree .rf then f.rf else 0
  rg := if r.isFree .rg then f.rg else 0
  zero25 := if r.hasImmediate then f.zero25 else 0
  inv := if r.isFree .inv then f.inv else 0
  pi := if r.isFree .pi then f.pi else 0

/-- Whether the fields are those of a word of the row: its opcode, every bit outside the free fields zero (R73), and no
prime index 3 (R75). -/
def Row.Admits (r : Row) (f : Fields) : Prop :=
  f = r.cleared f ∧ (r.used.contains .pi = true → f.pi ≠ 3)

theorem Row.eq_cleared_iff {r : Row} {f : Fields} :
    f = r.cleared f ↔ f.op = r.op ∧ r.zeroBitsOk f = true := by
  obtain ⟨mnemonic, op, format, used, build⟩ := r
  obtain ⟨fop, rd, ra, rb, rc, re, rf, rg, zero25, inv, pi⟩ := f
  cases format <;>
    simp [Row.cleared, Row.zeroBitsOk, Row.isFree, Row.hasImmediate, Fields.isZero, or_iff_not_imp_left, and_assoc,
      and_comm, and_left_comm]

/-! ### The rows of the opcode map (R76) -/

/-- An opcode names at most one row. -/
theorem opcodeMap_op_injOn {r r' : Row} (hr : r ∈ opcodeMap) (hr' : r' ∈ opcodeMap) (h : r.op = r'.op) : r = r' :=
  List.inj_on_of_nodup_map (f := Row.op) (by decide) hr hr' h

theorem find?_opcodeMap {r : Row} (hr : r ∈ opcodeMap) {op : BitVec 8} (h : op = r.op) :
    opcodeMap.find? (fun r => r.op == op) = some r := by
  subst h
  cases hfind : opcodeMap.find? (fun r' => r'.op == r.op) with
  | none => exact absurd (List.find?_eq_none.1 hfind r hr) (by simp)
  | some r' => rw [opcodeMap_op_injOn (List.mem_of_find?_eq_some hfind) hr (by simpa using List.find?_some hfind)]

/-- The encoder on the command of a row (R71): the row's free fields at their places. -/
theorem encodeFields_build : ∀ r ∈ opcodeMap, ∀ f, encodeFields (r.build f) = r.cleared f := by
  intro r hr f
  fin_cases hr <;> simp [encodeFields, Row.cleared, Row.isFree, Row.hasImmediate, Fields.ofOp, ofBool_beq_one]

theorem mnemonic_build : ∀ r ∈ opcodeMap, ∀ f, (r.build f).mnemonic = r.mnemonic := by
  intro r hr f
  fin_cases hr <;> rfl

/-- The command of a row has a prime index exactly when the row uses `pi`. -/
theorem primeIndex?_build :
    ∀ r ∈ opcodeMap, ∀ f, (r.build f).primeIndex? = if r.used.contains .pi then some f.pi else none := by
  intro r hr f
  fin_cases hr <;> rfl

/-! ### The decoder (R78) -/

theorem decodeFields_of_mem {r : Row} (hr : r ∈ opcodeMap) {f : Fields} (h : f.op = r.op) :
    decodeFields f =
      if !r.zeroBitsOk f then .error .mustBeZero
      else if r.used.contains .pi && f.pi == 3 then .error .primeIndexThree
      else .ok (r.build f) := by
  rw [decodeFields, find?_opcodeMap hr h]

/-- The fields that decode to a command are those a row admits, and the row builds the command. -/
theorem decodeFields_eq_ok_iff {f : Fields} {i : Instr} :
    decodeFields f = .ok i ↔ ∃ r ∈ opcodeMap, r.Admits f ∧ r.build f = i := by
  constructor
  · intro h
    cases hfind : opcodeMap.find? (fun r => r.op == f.op) with
    | none => simp [decodeFields, hfind] at h
    | some r =>
      have hr : r ∈ opcodeMap := List.mem_of_find?_eq_some hfind
      have hop : f.op = r.op := Eq.symm (by simpa using List.find?_some hfind)
      rw [decodeFields_of_mem hr hop] at h
      split_ifs at h with hzero hpi
      exact ⟨r, hr, ⟨Row.eq_cleared_iff.2 ⟨hop, by simpa using hzero⟩, by simpa using hpi⟩, Except.ok.inj h⟩
  · rintro ⟨r, hr, ⟨hcleared, hpi⟩, rfl⟩
    obtain ⟨hop, hzero⟩ := Row.eq_cleared_iff.1 hcleared
    rw [decodeFields_of_mem hr hop, if_neg (by simp [hzero]), if_neg (by simpa using hpi)]

theorem decode_eq_ok_iff {c : Word} {i : Instr} :
    decode c = .ok i ↔ ∃ r ∈ opcodeMap, r.Admits (Fields.ofWord c) ∧ r.build (Fields.ofWord c) = i :=
  decodeFields_eq_ok_iff

/-- A legal command has one encoding (R73). -/
theorem encode_of_decode {c : Word} {i : Instr} (h : decode c = .ok i) : encode i = c := by
  obtain ⟨r, hr, ⟨hcleared, -⟩, rfl⟩ := decode_eq_ok_iff.1 h
  rw [encode, encodeFields_build r hr, ← hcleared, Fields.toWord_ofWord]

/-- No word decodes to a command with prime index 3 (R75). -/
theorem wellFormed_of_decode {c : Word} {i : Instr} (h : decode c = .ok i) : i.WellFormed := by
  obtain ⟨r, hr, ⟨-, hpi⟩, rfl⟩ := decode_eq_ok_iff.1 h
  rw [Instr.WellFormed, primeIndex?_build r hr]
  split_ifs with hused
  · simpa using hpi hused
  · simp

/-! ### The mask and match of spec/opcode_table.json (R73) -/

/-- Ones in the bits of a field that are compared. -/
def fieldMask (w : Nat) (free : Bool) : BitVec w := if free then 0 else BitVec.allOnes w

theorem and_fieldMask {w : Nat} {x : BitVec w} {free : Bool} :
    x &&& fieldMask w free = 0 ↔ x = if free then x else 0 := by
  cases free <;> simp [fieldMask]

/-- The bits that a row requires, one for each bit outside its free fields. -/
def Row.mask (r : Row) : Fields where
  op := BitVec.allOnes 8
  rd := fieldMask 4 (r.isFree .rd)
  ra := fieldMask 4 (r.isFree .ra)
  rb := fieldMask 4 (r.isFree .rb)
  rc := fieldMask 4 (r.isFree .rc)
  re := fieldMask 4 (r.isFree .re)
  rf := fieldMask 4 (r.isFree .rf)
  rg := fieldMask 4 (r.isFree .rg)
  zero25 := fieldMask 25 r.hasImmediate
  inv := fieldMask 1 (r.isFree .inv)
  pi := fieldMask 2 (r.isFree .pi)

theorem Row.and_mask_iff {r : Row} {f : Fields} : f.and r.mask = Fields.ofOp r.op ↔ f = r.cleared f := by
  obtain ⟨op, rd, ra, rb, rc, re, rf, rg, zero25, inv, pi⟩ := f
  simp only [Fields.and, Row.mask, Fields.ofOp, Row.cleared, Fields.mk.injEq, BitVec.and_allOnes, and_fieldMask]

/-- The row of spec/opcode_table.json that a row of the opcode map makes. -/
def Row.toTableRow (r : Row) : TableRow :=
  ⟨r.mnemonic, r.mask.toWord, (Fields.ofOp r.op).toWord, r.used.contains .pi⟩

/-- The opcode map and spec/opcode_table.json agree, row by row. -/
theorem opcodeTable_eq : opcodeTable = opcodeMap.map Row.toTableRow := by rfl

theorem Row.accepts_toTableRow_iff {r : Row} {c : Word} :
    r.toTableRow.accepts c = true ↔ r.Admits (Fields.ofWord c) := by
  have hmask : c &&& r.mask.toWord = (Fields.ofOp r.op).toWord ↔ Fields.ofWord c = r.cleared (Fields.ofWord c) := by
    rw [← Row.and_mask_iff, ← Fields.toWord_inj, ← Fields.toWord_and, Fields.toWord_ofWord]
  have hpi : c.extractLsb' 0 2 = (Fields.ofWord c).pi := rfl
  simp [TableRow.accepts, Row.toTableRow, Row.Admits, hmask, hpi, imp_iff_not_or]

theorem accepted_iff {c : Word} :
    (∃ t ∈ opcodeTable, t.accepts c = true) ↔ ∃ r ∈ opcodeMap, r.Admits (Fields.ofWord c) := by
  simp [opcodeTable_eq, Row.accepts_toTableRow_iff]

section

open Laws.EncodedFields

/-- The fields of a well-formed command decode to it, by the lemma of its constructor. -/
theorem decodeFields_encodeFields (i : Instr) : Statement i :=
  match i with
  | .halt => halt
  | .nop => nop
  | .li rd imm => li rd imm
  | .lih rd imm => lih rd imm
  | .mov rd ra => mov rd ra
  | .ldw rd ra imm => ldw rd ra imm
  | .stw rd ra imm => stw rd ra imm
  | .add rd ra rb rc re rf => add rd ra rb rc re rf
  | .sub rd ra rb rc re rf => sub rd ra rb rc re rf
  | .sadd rd ra rb rc re => sadd rd ra rb rc re
  | .mulw rd ra rb rc => mulw rd ra rb rc
  | .smul rd ra rb rc re => smul rd ra rb rc re
  | .bmul ra rb rc re rf => bmul ra rb rc re rf
  | .shl10 ra rb rc re rf => shl10 ra rb rc re rf
  | .divw rd ra rb rc re => divw rd ra rb rc re
  | .sdiv rd ra rb rc re => sdiv rd ra rb rc re
  | .bdivmod rd ra rb rc re rf rg => bdivmod rd ra rb rc re rf rg
  | .shr10 rd ra rb rc re => shr10 rd ra rb rc re
  | .addmod rd ra rb rc => addmod rd ra rb rc
  | .submod rd ra rb rc => submod rd ra rb rc
  | .mulmod rd ra rb rc => mulmod rd ra rb rc
  | .mulmodp rd ra rb pi => mulmodp rd ra rb pi
  | .mulmod2 rd ra rb rc re rf rg => mulmod2 rd ra rb rc re rf rg
  | .mulmod2c rd ra rb rc re rg => mulmod2c rd ra rb rc re rg
  | .powmod rd ra rb rc => powmod rd ra rb rc
  | .redp rd ra rb pi => redp rd ra rb pi
  | .nttstg ra re rf pi inv => nttstg ra re rf pi inv
  | .nttrev ra re => nttrev ra re
  | .nttfwd ra re pi => nttfwd ra re pi
  | .nttinv ra re pi => nttinv ra re pi
  | .nttconv ra rb re pi => nttconv ra rb re pi
  | .nttaconv ra re pi => nttaconv ra re pi
  | .nttlen rd ra => nttlen rd ra
  | .crt3 rd ra rb rc re rf => crt3 rd ra rb rc re rf
  | .kmul ra rb rc re rf => kmul ra rb rc re rf
  | .kmuln ra rb rc re rf => kmuln ra rb rc re rf
  | .nmul ra rb rc re rf => nmul ra rb rc re rf

end

end Sys2Proof

namespace Sys2Proof.Machine

open Sys2Proof

/-! ### The fetch (40_sequencer_moves.md R90) -/

theorem step_of_decode_ok {s : State} {i : Instr} (hrun : s.status.run = true) (hpc : s.pc.toNat < s.cfg.cmdWords)
    (h : decode (s.command s.pc.toNat) = .ok i) : step s = exec i s := by
  simp [step, sequencerStep, hrun, runCommand, Nat.not_le.2 hpc, h]

theorem step_of_decode_error {s : State} {e : DecodeError} (hrun : s.status.run = true)
    (hpc : s.pc.toNat < s.cfg.cmdWords) (h : decode (s.command s.pc.toNat) = .error e) :
    step s = .next (s.faulted .illegal (s.command s.pc.toNat)) := by
  simp [step, sequencerStep, hrun, runCommand, Nat.not_le.2 hpc, h, raise_plain]

theorem withFetchWord_toNat (s : State) (c : Word) : s.withFetchWord 64 c.toNat = placeCommand s c := by
  simp [State.withFetchWord, Nat.mod_eq_of_lt c.isLt]

theorem placeCommand_command (s : State) (c : Word) :
    (placeCommand s c).command (placeCommand s c).pc.toNat = c := by
  simp [placeCommand, State.command]

theorem placeCommand_pc_lt {s : State} (h : 1 ≤ s.cfg.cmdWords) (c : Word) :
    (placeCommand s c).pc.toNat < (placeCommand s c).cfg.cmdWords := by
  simp only [placeCommand]
  split_ifs with hpc
  · exact hpc
  · exact h

/-! ### The prime index (R75) -/

theorem checkPrimeIndex_eq_some {i : Instr} (h : ¬i.WellFormed) :
    checkPrimeIndex i = some { cause := .illegal, info := encode i } :=
  require_eq_some.2 ⟨decide_eq_false h, rfl⟩

/-- A command whose checks answer ILLEGAL with its word takes that fault and changes nothing else. -/
theorem exec_illegal {i : Instr} {s u : State} {checks : Option Trap} (h : exec i s = command s checks fun _ => u)
    (hchecks : checks = some { cause := .illegal, info := encode i }) :
    exec i s = .next (s.faulted .illegal (encode i)) :=
  h.trans (command_faults hchecks)

/-! ### The obligations -/

/-- Settles O2: the fields of the encoded word are the fields encoded, and those decode to the command. -/
theorem decodeOfEncode : Obligations.Decode_of_encode := by
  intro i hi
  rw [decode, encode, Fields.ofWord_toWord]
  exact decodeFields_encodeFields i hi

/-- Settles O3: the decoder and the table both accept the words that a row of the opcode map admits. -/
theorem legalWordsAreTheTableWords : Obligations.Legal_words_are_the_table_words := by
  refine ⟨fun c i => encode_of_decode, ?_, ?_, ?_⟩
  · intro c i h
    obtain ⟨r, hr, hadmits, rfl⟩ := decode_eq_ok_iff.1 h
    refine ⟨r.toTableRow, ?_, Row.accepts_toTableRow_iff.2 hadmits, (mnemonic_build r hr _).symm⟩
    rw [opcodeTable_eq]
    exact List.mem_map_of_mem hr
  · intro c h
    obtain ⟨r, hr, hadmits⟩ := accepted_iff.1 h
    exact ⟨_, decode_eq_ok_iff.2 ⟨r, hr, hadmits, rfl⟩⟩
  · intro s hrun hpc hnone
    cases hdecode : decode (s.command s.pc.toNat) with
    | error e => exact step_of_decode_error hrun hpc hdecode
    | ok i =>
      obtain ⟨r, hr, hadmits, -⟩ := decode_eq_ok_iff.1 hdecode
      obtain ⟨t, ht, haccepts⟩ := accepted_iff.2 ⟨r, hr, hadmits⟩
      simp [hnone t ht] at haccepts

/-- Settles O6: the placed word lies at the placed `pc`, inside `C`, and decodes to the command. -/
theorem placedCommandIsTheNextStep : Obligations.Placed_command_is_the_next_step := by
  intro s i hi hsize
  rw [withFetchWord_toNat]
  refine step_of_decode_ok rfl (placeCommand_pc_lt hsize _) ?_
  rw [placeCommand_command]
  exact decodeOfEncode i hi

/-- Settles O47: the seven commands with a prime index check it first, and no other command is ill-formed. -/
theorem primeIndexThreeIsIllegal : Obligations.Prime_index_three_is_illegal := by
  refine ⟨fun i s hi => ?_, fun c i => wellFormed_of_decode⟩
  cases i
  case mulmodp | redp | nttstg | nttfwd | nttinv | nttconv | nttaconv =>
    exact exec_illegal rfl (by rw [checkPrimeIndex_eq_some hi]; rfl)
  all_goals exact absurd nofun hi

/-- Settles O1: each word is cut into fields and decoded by evaluation. -/
theorem sampleWordsDecode : Obligations.Sample_words_decode :=
  ⟨rfl, rfl, rfl, rfl, rfl, rfl, rfl, rfl, rfl, rfl, rfl, rfl, rfl, rfl, rfl, rfl⟩

end Sys2Proof.Machine
end

section
/-! The sequencer and move commands (40_sequencer_moves.md R90 to R98): the fetch beyond `C`, the words that LI and LIH
build, and the one word that LDW and STW address. -/

namespace Sys2Proof.Machine

open Sys2Proof

/-! ### The fetch (R90) -/

theorem step_of_pc_beyond {s : State} (hrun : s.status.run = true) (hpc : s.cfg.cmdWords ≤ s.pc.toNat) :
    step s = .next (s.faulted .fetch s.pc) := by
  simp [step, sequencerStep, hrun, runCommand, hpc, raise_plain]

/-- Settles O4: the three outcomes of a step, by where `pc` is and what the word there decodes to. -/
theorem stepRunsTheDecodedCommand : Obligations.Step_runs_the_decoded_command := fun _ hrun =>
  ⟨step_of_pc_beyond hrun, fun hpc =>
    ⟨fun _ => step_of_decode_ok hrun hpc, fun _ => step_of_decode_error hrun hpc⟩⟩

/-! ### Commands without checks (R91 to R94, R97) -/

/-- Settles O7: HALT has no check, and its record of the last command is its own address. -/
theorem haltStopsTheRun : Obligations.Halt_stops_the_run := fun s => ⟨some s.pc, rfl⟩

/-- A command that writes nothing. -/
theorem completes_advance (s : State) : s.Completes s.advance [] [] := by
  constructor <;> intros <;> rfl

/-- A command without checks whose only write is `v` to `r` completes, and `r` then holds `v`. -/
theorem completes_of_setReg {s : State} {i : Instr} {r : Reg} {v : Word}
    (h : exec i s = command s none fun _ => s.setReg r v) :
    ∃ t, exec i s = .next t ∧ s.Completes t [r] [] ∧ t.reg r = v :=
  ⟨_, h, completes_setReg r v, State.setReg_reg_self s r v⟩

/-- The word LI writes (R93). -/
theorem toNat_zeroExtend_imm (imm : BitVec 32) : (imm.zeroExtend 64).toNat = imm.toNat :=
  BitVec.toNat_setWidth_of_le (by decide)

/-- The word LIH writes (R94): the immediate above the low half of the register. -/
theorem toNat_imm_append_low (imm : BitVec 32) (v : Word) :
    (imm ++ v.extractLsb' 0 32).toNat = imm.toNat * 2 ^ 32 + v.toNat % 2 ^ 32 := by
  have hlow : (v.extractLsb' 0 32).toNat = v.toNat % 2 ^ 32 := by simp
  rw [BitVec.toNat_append, ← Nat.shiftLeft_add_eq_or_of_lt (BitVec.isLt _), Nat.shiftLeft_eq, hlow]

/-- Settles O8: NOP writes nothing, and LI, LIH and MOV each write the one word of their rule. -/
theorem nopLiLihMovWriteTheirRegister : Obligations.Nop_li_lih_mov_write_their_register := by
  intro s rd ra imm
  refine ⟨⟨_, rfl, completes_advance s⟩, ?_, ?_, completes_of_setReg rfl⟩
  · obtain ⟨t, ht, hc, hv⟩ := completes_of_setReg (i := .li rd imm) (s := s) rfl
    exact ⟨t, ht, hc, by rw [hv, toNat_zeroExtend_imm]⟩
  · obtain ⟨t, ht, hc, hv⟩ := completes_of_setReg (i := .lih rd imm) (s := s) rfl
    exact ⟨t, ht, hc, by rw [hv, toNat_imm_append_low]⟩

/-! ### LDW and STW (R96, R98) -/

/-- The range check of the one word at `ea` is the bound on its address that R96 and R98 state. -/
theorem obeys_oneWord {s u : State} {i : Instr} {ea : Word} {done : State → Prop}
    (h : exec i s = command s (s.checkAddr ⟨ea, 1⟩) fun _ => u) (hdone : done u.advance) :
    s.Obeys i done [.unless (ea.toNat < s.cfg.memWords) .addr ea] :=
  obeys_unless (command_last h) decide_eq_true_iff fun _ h' => obeys_nil h' hdone

/-- A word stored is the word read back. -/
theorem setData_data_self (s : State) (a : Nat) (v : Word) : (s.setData a [v]).data a = v :=
  s.setData_data_inside [v] a (i := 0) (by simp)

/-- The effective address is the base plus the displacement as a signed number, modulo `2^64` (R96, R98). -/
theorem toNat_add_signExtend (base : Word) (imm : BitVec 32) :
    ((base + imm.signExtend 64).toNat : Int) = (base.toNat + imm.toInt) % 2 ^ 64 := by
  have hsext : ((imm.signExtend 64).toNat : Int) = imm.toInt % 2 ^ 64 := by
    rw [BitVec.signExtend, BitVec.toNat_ofInt, Int.toNat_of_nonneg (Int.emod_nonneg _ (by decide))]
    rfl
  rw [BitVec.toNat_add, Int.natCast_emod, Int.natCast_add, hsext]
  exact Int.add_emod_emod _ _ _

/-- Settles O9: one address check each, then LDW writes one register and STW an array of one word. -/
theorem ldwStwObeyTheirRules : Obligations.Ldw_stw_obey_their_rules := by
  intro s rd ra imm
  let ea := s.effectiveAddress ra imm
  refine ⟨?_, ?_, toNat_add_signExtend _ imm⟩
  · exact obeys_oneWord (u := s.setReg rd (s.data ea.toNat)) rfl ⟨completes_setReg rd _, State.setReg_reg_self s rd _⟩
  · exact obeys_oneWord (u := s.setWords ⟨ea, 1⟩ [s.reg rd]) rfl
      ⟨completes_words ⟨ea, 1⟩ _ rfl, setData_data_self s _ _⟩

end Sys2Proof.Machine
end

section
/-! Unit 1, word adder and subtractor (41_word_adder_subtractor.md R100 to R104). ADD and SUB share their checks, and
each command of the unit writes one array of digits and one register, so each rule comes down to the word its register
takes; R104 is then derived from the rules of ADD and SUB alone. -/

namespace Sys2Proof.Machine

open Sys2Proof

/-! ### Words below a bound (R58) -/

/-- The operand value check, said of the list of an array's words. -/
theorem wordsBelow_iff {s : State} {bound : Nat} {a : ArrayOperand} :
    s.WordsBelow bound a ↔ ∀ d ∈ s.words a, d.toNat < bound := by
  simp only [List.forall_mem_iff_getElem, State.words, State.dataList_getElem, State.dataList_length]

theorem State.WordsBelow.of_words_eq {s t : State} {bound : Nat} {a : ArrayOperand} (h : s.WordsBelow bound a)
    (hw : t.words a = s.words a) : t.WordsBelow bound a := by
  rw [wordsBelow_iff, hw]
  exact wordsBelow_iff.1 h

theorem State.WordsBelow.digits_value {s : State} {a : ArrayOperand} (h : s.WordsBelow RADIX a) :
    digits (s.value a) a.len = s.words a := by
  have hdigits := Machine.digits_value (wordsBelow_iff.1 h)
  rwa [words_length] at hdigits

/-- Radix words stand for a number below `RADIX^len` (R10). -/
theorem State.WordsBelow.value_lt {s : State} {a : ArrayOperand} (h : s.WordsBelow RADIX a) :
    s.value a < RADIX ^ a.len := by
  have hmod : s.value a = s.value a % RADIX ^ a.len := by
    rw [← value_digits, h.digits_value, State.value]
  rw [hmod]
  exact Nat.mod_lt _ (pow_pos RADIX_pos _)

/-- An operand no longer than `m` words is below `RADIX^m`. -/
theorem State.WordsBelow.value_lt_of_len_le {s : State} {a : ArrayOperand} {m : Nat} (h : s.WordsBelow RADIX a)
    (hlen : a.len ≤ m) : s.value a < RADIX ^ m :=
  h.value_lt.trans_le (Nat.pow_le_pow_right RADIX_pos hlen)

/-! ### The word in `rd` (R25) -/

/-- Any carry out of `m` words that is itself a radix word fits the register. -/
theorem toNat_carryOut {v m : Nat} (h : v < RADIX ^ (m + 1)) : (carryOut v m).toNat = v / RADIX ^ m := by
  have hcarry : v / RADIX ^ m < RADIX := Nat.div_lt_of_lt_mul h
  rw [carryOut, BitVec.toNat_ofNat, Nat.mod_eq_of_lt (hcarry.trans RADIX_lt_two_pow_64)]

/-- The sum of two numbers of `m` radix words has `m + 1`. -/
theorem add_lt_RADIX_pow_succ {u v m : Nat} (hu : u < RADIX ^ m) (hv : v < RADIX ^ m) : u + v < RADIX ^ (m + 1) := by
  have htwo : 2 * RADIX ^ m ≤ RADIX ^ (m + 1) := by
    rw [pow_succ']
    exact Nat.mul_le_mul_right _ (by decide)
  omega

theorem toNat_borrowOut (u v : Nat) : (borrowOut u v).toNat = if (u : Int) - v < 0 then 1 else 0 := by
  have hneg : (u : Int) - v < 0 ↔ u < v := by omega
  simp only [borrowOut, hneg]
  split <;> rfl

/-! ### The rules of ADD, SUB and SADD (R101 to R103) -/

theorem exec_add (rd ra rb rc re rf : Reg) (s : State) :
    let m := s.scalar re
    let w := s.array ra m
    let u := s.array rb m
    let v := s.array rc (s.scalar rf)
    let sum := s.value u + s.value v
    exec (.add rd ra rb rc re rf) s = command s (s.checkAddSub w u v) fun _ =>
      (s.setWords w (digits (sum % RADIX ^ m) m)).setReg rd (carryOut sum m) := rfl

theorem exec_sub (rd ra rb rc re rf : Reg) (s : State) :
    let m := s.scalar re
    let w := s.array ra m
    let u := s.array rb m
    let v := s.array rc (s.scalar rf)
    let difference : Int := s.value u - s.value v
    exec (.sub rd ra rb rc re rf) s = command s (s.checkAddSub w u v) fun _ =>
      (s.setWords w (digits (difference % (RADIX : Int) ^ m).toNat m)).setReg rd
        (borrowOut (s.value u) (s.value v)) := by
  intro m w u v difference
  rw [← Nat.cast_pow]
  rfl

theorem exec_sadd (rd ra rb rc re : Reg) (s : State) :
    let m := s.scalar re
    let w := s.array ra m
    let u := s.array rb m
    let v := s.reg rc
    let sum := s.value u + v.toNat
    exec (.sadd rd ra rb rc re) s =
      command s (checkLen (decide (1 ≤ m)) <|> s.checkAddrs [w, u] <|> checkSameBase w u <|> checkBelow v RADIX
        <|> s.checkWords RADIX u) fun _ =>
      (s.setWords w (digits (sum % RADIX ^ m) m)).setReg rd (carryOut sum m) := rfl

/-- What a command leaves that writes `m` digits of `x` to the array at `b` and then a word of value `k` to `r`. -/
theorem completes_digits_reg (s : State) (b : Word) (x m : Nat) (r : Reg) {c : Word} {k : Nat} (hc : c.toNat = k) :
    let t := ((s.setWords ⟨b, m⟩ (digits x m)).setReg r c).advance
    s.Completes t [r] [⟨b, m⟩] ∧ t.words ⟨b, m⟩ = digits x m ∧ (t.reg r).toNat = k :=
  ⟨completes_words_reg ⟨b, m⟩ _ (digits_length ..) r c, by simp, by simp [hc]⟩

/-- The lines of checks R101 and R102 share. -/
def State.addSubChecks (s : State) (w u v : ArrayOperand) : List RuleCheck :=
  .unless (v.len ≤ u.len ∧ 1 ≤ v.len) .len 0 :: s.rangeChecks [w, u, v] ++
    [sameBaseCheck w u, sameBaseCheck w v, .words RADIX u, .words RADIX v]

/-- `checkAddSub` against the lines it stands for. -/
theorem obeys_addSubChecks {s t : State} {i : Instr} {done : State → Prop} {w u v : ArrayOperand}
    (h : exec i s = command s (s.checkAddSub w u v) fun _ => t)
    (hdone : v.len ≤ u.len → s.WordsBelow RADIX u → s.WordsBelow RADIX v → done t.advance) :
    s.Obeys i done (s.addSubChecks w u v) :=
  obeys_unless h decide_eq_true_iff fun ⟨hlen, _⟩ h =>
  obeys_range h fun _ h =>
  obeys_same h fun _ h =>
  obeys_same h fun _ h =>
  obeys_words h fun hu h =>
  obeys_words (command_last h) fun hv h =>
  obeys_nil h (hdone hlen hu hv)

/-- Settles O10: the checks are those SUB shares, and the carry of radix words fits `rd`. -/
theorem addObeysItsRule : Obligations.Add_obeys_its_rule := fun s rd ra rb rc re rf =>
  obeys_addSubChecks (exec_add rd ra rb rc re rf s) fun hlen hu hv =>
    completes_digits_reg s _ _ _ rd
      (toNat_carryOut (add_lt_RADIX_pow_succ hu.value_lt (hv.value_lt_of_len_le hlen)))

/-- Settles O11: the checks are those ADD shares, and the borrow tells a negative difference. -/
theorem subObeysItsRule : Obligations.Sub_obeys_its_rule := fun s rd ra rb rc re rf =>
  obeys_addSubChecks (exec_sub rd ra rb rc re rf s) fun _ _ _ =>
    completes_digits_reg s _ _ _ rd (toNat_borrowOut _ _)

/-- Settles O12: the scalar is a radix word, hence below `RADIX^m`, and the carry fits `rd` as ADD's does. -/
theorem saddObeysItsRule : Obligations.Sadd_obeys_its_rule := fun s rd ra rb rc re =>
  obeys_unless (exec_sadd rd ra rb rc re s) decide_eq_true_iff fun hm h =>
  obeys_range h fun _ h =>
  obeys_same h fun _ h =>
  obeys_unless h decide_eq_true_iff fun hv h =>
  obeys_words (command_last h) fun hu h =>
  obeys_nil h <| completes_digits_reg s _ _ _ rd <|
    toNat_carryOut (add_lt_RADIX_pow_succ hu.value_lt (hv.trans_le (Nat.le_self_pow (Nat.ne_of_gt hm) RADIX)))

/-! ### A rule whose checks pass -/

/-- A line of checks that does not stop the command. -/
def RuleCheck.Passes (s : State) : RuleCheck → Prop
  | @RuleCheck.unless ok _ _ _ => ok
  | .words bound a => s.WordsBelow bound a
  | .scratch user lengths _ => scratchShort s.cfg user lengths = false

/-- A command that obeys its rule completes where every line of checks passes. -/
theorem State.Obeys.completes {s : State} {i : Instr} {done : State → Prop} {l : List RuleCheck}
    (h : s.Obeys i done l) (hl : ∀ c ∈ l, c.Passes s) : ∃ t, exec i s = .next t ∧ done t := by
  induction l with
  | nil => exact h
  | cons c rest ih =>
    obtain ⟨hc, hrest⟩ := List.forall_mem_cons.1 hl
    cases c <;> exact ih (h.2 hc) hrest

theorem addSubChecks_pass {s : State} {w u v : ArrayOperand} (hlen : v.len ≤ u.len) (hpos : 1 ≤ v.len)
    (hw : w.Fits s) (hu : u.Fits s) (hv : v.Fits s) (hwu : w.InPlaceOrApart u) (hwv : w.InPlaceOrApart v)
    (hbu : s.WordsBelow RADIX u) (hbv : s.WordsBelow RADIX v) :
    ∀ c ∈ s.addSubChecks w u v, c.Passes s := by
  simp only [State.addSubChecks, State.rangeChecks, List.map_cons, List.map_nil, List.cons_append, List.nil_append,
    List.forall_mem_cons]
  exact ⟨⟨hlen, hpos⟩, hw, hu, hv, hwu, hwv, hbu, hbv, List.forall_mem_nil _⟩

/-- A completed command leaves every array apart from its destinations as it was. -/
theorem State.Completes.words_eq {s t : State} {dstRegs : List Reg} {dstArrays : List ArrayOperand}
    (h : s.Completes t dstRegs dstArrays) {a : ArrayOperand} (ha : ∀ d ∈ dstArrays, d.Apart a) :
    t.words a = s.words a := by
  refine State.dataList_congr fun i hi => h.data _ fun d hd hin => ?_
  have := ha d hd
  omega

/-! ### SUB undoes ADD (R104) -/

section Wrap

variable {u v M : Nat}

/-- Taking back what was added gives the first operand again, modulo `M`. -/
theorem sub_after_add (hu : u < M) : ((((u + v) % M : Nat) : Int) - v) % (M : Int) = u := by
  rw [Int.natCast_emod, Int.emod_sub_emod]
  push_cast
  rw [add_sub_cancel_right]
  exact Int.emod_eq_of_lt (by omega) (by omega)

/-- Taking back what was added borrows exactly when the addition carried. -/
theorem borrow_eq_carry (hu : u < M) (hv : v < M) :
    (if (((u + v) % M : Nat) : Int) - v < 0 then 1 else 0) = (u + v) / M := by
  rcases Nat.lt_or_ge (u + v) M with hlt | hge
  · rw [Nat.mod_eq_of_lt hlt, Nat.div_eq_of_lt hlt, if_neg (by omega)]
  · have hmod : (u + v) % M = u + v - M := by
      rw [Nat.mod_eq_sub_mod hge, Nat.mod_eq_of_lt (by omega)]
    have hdiv : (u + v) / M = 1 := Nat.div_eq_of_lt_le (by omega) (by omega)
    rw [hmod, hdiv, if_pos (by omega)]

end Wrap

/-- Settles O14: ADD and then SUB complete by their rules (O10, O11), `v` lying apart from `w`; the rest is the
arithmetic of one sum modulo `RADIX^m`. -/
theorem addThenSubGivesBackTheOperand : Obligations.Add_then_sub_gives_back_the_operand := by
  intro s rd ra rb rc re rf m n w u v hn hnm hw hu hv hwu hwv hbu hbv hrd
  obtain ⟨hra, hrc, hre, hrf⟩ : ra ≠ rd ∧ rc ≠ rd ∧ re ≠ rd ∧ rf ≠ rd := by simpa [eq_comm] using hrd
  obtain ⟨t, hadd, ht, htw, htr⟩ := (addObeysItsRule s rd ra rb rc re rf).completes
    (addSubChecks_pass hnm hn hw hu hv hwu (.inr hwv) hbu hbv)
  have htv : t.words v = s.words v := ht.words_eq (by simpa using hwv)
  have hbw : t.WordsBelow RADIX w := wordsBelow_iff.2 fun d hd => toNat_lt_RADIX_of_mem_digits (htw ▸ hd)
  have hvw : t.value w = (s.value u + s.value v) % RADIX ^ m := by rw [State.value, htw, value_digits, Nat.mod_mod]
  have hvv : t.value v = s.value v := by rw [State.value, htv, State.value]
  have hregs (q : Reg) (hq : q ≠ rd) : t.reg q = s.reg q := ht.regs q (by simpa using hq)
  have hsub := subObeysItsRule t rd ra ra rc re rf
  simp only [State.ObeysRule, Rules.sub, hregs _ hra, hregs _ hrc, hregs _ hre, hregs _ hrf] at hsub
  have hfits {a : ArrayOperand} (ha : a.Fits s) : a.Fits t := by rwa [ArrayOperand.Fits, ht.cfg]
  obtain ⟨x, hx, -, hxw, hxr⟩ := hsub.completes
    (addSubChecks_pass hnm hn (hfits hw) (hfits hw) (hfits hv) (.inl rfl) (.inr hwv) hbw (hbv.of_words_eq htv))
  have hu' : s.value u < RADIX ^ m := hbu.value_lt
  refine ⟨t, x, hadd, ?_, hbw, hx, ?_, BitVec.eq_of_toNat_eq ?_⟩
  · rw [hvw, htr]
    exact (Nat.mod_add_div' ..).symm
  · rw [hxw, hvw, hvv, ← Nat.cast_pow, sub_after_add hu', Int.toNat_natCast]
    exact hbu.digits_value
  · rw [hxr, htr, hvw, hvv]
    exact borrow_eq_carry hu' (hbv.value_lt_of_len_le hnm)

end Sys2Proof.Machine
end

section
/-! Unit 2, word multiplier (42_word_multiplier.md R110 to R114). The checks of an array product are laid against the
lines of its rule once, for BMUL here and the products of unit 11; what is left of each rule is the size of a product:
the carry of SMUL, the words of BMUL, and the shifts of SHL10 that overflow without a power being formed. -/

namespace Sys2Proof.Machine

open Sys2Proof

/-! ### MULW (R111) -/

/-- A command that writes a register and then a second one, perhaps the same. -/
theorem completes_setReg_setReg (s : State) (first second : Reg) (v v' : Word) :
    s.Completes ((s.setReg first v).setReg second v').advance [second, first] [] := by
  refine ⟨rfl, fun q hq => ?_, fun _ _ => rfl, fun _ => rfl, rfl, rfl, rfl, rfl, rfl⟩
  obtain ⟨hsecond, hfirst⟩ : q ≠ second ∧ q ≠ first := by simpa using hq
  rw [State.advance_reg, State.setReg_reg_ne _ _ hsecond, State.setReg_reg_ne _ _ hfirst]

/-- Settles O15: the product of two words has a high word, so neither half is truncated. -/
theorem mulwWritesTheDoubleWord : Obligations.Mulw_writes_the_double_word := by
  intro s rd ra rb rc
  have hproduct : (s.reg rb).toNat * (s.reg rc).toNat < 2 ^ 64 * 2 ^ 64 :=
    Nat.mul_lt_mul'' (s.reg rb).isLt (s.reg rc).isLt
  refine ⟨_, rfl, completes_setReg_setReg s ra rd _ _, ?_, fun hne => ?_⟩
  · rw [State.advance_reg, State.setReg_reg_self, BitVec.toNat_ofNat]
    exact Nat.mod_eq_of_lt (Nat.div_lt_of_lt_mul hproduct)
  · rw [State.advance_reg, State.setReg_reg_ne _ _ hne, State.setReg_reg_self, BitVec.toNat_ofNat]
    exact Nat.mod_mod _ _

/-! ### SMUL (R112) -/

theorem exec_smul (rd ra rb rc re : Reg) (s : State) :
    let n := s.scalar re
    let w := s.array ra n
    let u := s.array rb n
    let v := s.reg rc
    let product := s.value u * v.toNat
    exec (.smul rd ra rb rc re) s =
      command s (checkLen (decide (1 ≤ n)) <|> s.checkAddrs [w, u] <|> checkSameBase w u <|> checkBelow v RADIX
        <|> s.checkWords RADIX u) fun _ =>
      (s.setWords w (digits (product % RADIX ^ n) n)).setReg rd (carryOut product n) := rfl

/-- `n` radix words times a radix word: `(RADIX^n − 1)(RADIX − 1) < (RADIX − 1) · RADIX^n` (R112). -/
theorem mul_lt_of_radix_word {u v n : Nat} (hu : u < RADIX ^ n) (hv : v < RADIX) :
    u * v < RADIX ^ n * (RADIX - 1) :=
  Nat.mul_lt_mul_of_lt_of_le hu (Nat.le_pred_of_lt hv) (by decide)

/-- Settles O16: the carry is below `RADIX − 1`, so it fits `rd` and is at most `RADIX − 2`. -/
theorem smulObeysItsRule : Obligations.Smul_obeys_its_rule := fun s rd ra rb rc re =>
  obeys_unless (exec_smul rd ra rb rc re s) decide_eq_true_iff fun _ h =>
  obeys_range h fun _ h =>
  obeys_same h fun _ h =>
  obeys_unless h decide_eq_true_iff fun hv h =>
  obeys_words (command_last h) fun hu h => by
    have hproduct := mul_lt_of_radix_word hu.value_lt hv
    have hcarry := toNat_carryOut (hproduct.trans_le (Nat.mul_le_mul_left _ (Nat.sub_le RADIX 1)))
    obtain ⟨hc, hw, hr⟩ := completes_digits_reg s _ _ _ rd hcarry
    exact obeys_nil h ⟨hc, hw, hr, hr.trans_le (Nat.le_pred_of_lt (Nat.div_lt_of_lt_mul hproduct))⟩

/-! ### BMUL (R113) -/

/-- `checkProduct` and what follows it, as one chain of checks. -/
theorem checkProduct_orElse (s : State) (w u v : ArrayOperand) (rest : Option Trap) :
    (s.checkProduct w u v <|> rest) =
      (s.checkAddrs [w, u, v] <|> checkStrict w u <|> checkStrict w v <|> s.checkWords RADIX u <|> s.checkWords RADIX v
        <|> rest) := by
  simp [State.checkProduct, Option.or_assoc]

/-- `checkProduct` against the lines it stands for. -/
theorem obeys_productChecks {s : State} {i : Instr} {done : State → Prop} {w u v : ArrayOperand} {rest : Option Trap}
    {eff : Unit → State} {l : List RuleCheck} (h : exec i s = command s (s.checkProduct w u v <|> rest) eff)
    (hr : exec i s = command s rest eff → s.Obeys i done l) :
    s.Obeys i done (Rules.productChecks s w u v ++ l) := by
  rw [checkProduct_orElse] at h
  rw [Rules.productChecks, List.append_assoc]
  exact
    obeys_range h fun _ h =>
    obeys_strict h fun _ h =>
    obeys_strict h fun _ h =>
    obeys_words h fun _ h =>
    obeys_words h fun _ h => hr h

/-- What a command leaves that writes the digits of `x` to an array. -/
theorem completes_digits (s : State) (a : ArrayOperand) (x : Nat) :
    let t := (s.setWords a (digits x a.len)).advance
    s.Completes t [] [a] ∧ t.words a = digits x a.len :=
  ⟨completes_words a _ (digits_length ..), by simp⟩

theorem exec_bmul (ra rb rc re rf : Reg) (s : State) :
    let m := s.scalar re
    let n := s.scalar rf
    let w := s.array ra (m + n)
    let u := s.array rb m
    let v := s.array rc n
    exec (.bmul ra rb rc re rf) s =
      command s (checkLen (decide (1 ≤ m ∧ 1 ≤ n)) <|> s.checkProduct w u v) fun _ => s.writeProduct w u v := rfl

/-- The product of `m` and `n` radix words has `m + n`, so writing that many loses nothing. -/
theorem value_digits_mul {u v m n : Nat} (hu : u < RADIX ^ m) (hv : v < RADIX ^ n) :
    value (digits (u * v) (m + n)) = u * v := by
  have hproduct : u * v < RADIX ^ (m + n) := by
    rw [pow_add]
    exact Nat.mul_lt_mul'' hu hv
  rw [value_digits, Nat.mod_eq_of_lt hproduct]

/-- Settles O17: the checks are those of every array product, and the product of radix words fits. -/
theorem bmulObeysItsRule : Obligations.Bmul_obeys_its_rule := fun s ra rb rc re rf =>
  ⟨obeys_unless (exec_bmul ra rb rc re rf s) decide_eq_true_iff fun _ h =>
    obeys_productChecks (l := []) (command_last h) fun h => obeys_nil h (completes_digits s _ _),
   fun _ _ hu hv => value_digits_mul hu.value_lt hv.value_lt⟩

/-! ### SHL10 (R114) -/

/-- The power that `shiftLeft10` does not form is multiplied by 0. -/
theorem shiftLeft10_eq (u s : Nat) : shiftLeft10 u s = u * 10 ^ s := by
  rw [shiftLeft10]
  split_ifs with hu
  · rw [hu, Nat.zero_mul]
  · rfl

theorem exec_shl10 (ra rb rc re rf : Reg) (s : State) :
    let n := s.scalar re
    let m := s.scalar rf
    let w := s.array ra n
    let u := s.array rb m
    let shift := s.reg rc
    exec (.shl10 ra rb rc re rf) s =
      command s (checkLen (decide (m ≤ n ∧ 1 ≤ m)) <|> s.checkAddrs [w, u] <|> checkSameBase w u
        <|> s.checkWords RADIX u <|> require (!shiftLeft10Overflows (s.value u) shift.toNat n) .range shift) fun _ =>
      s.setWords w (digits (s.value u * 10 ^ shift.toNat) n) := by
  intro n m w u shift
  rw [← shiftLeft10_eq]
  rfl

/-- A shift by all the digits of `n` words takes any value but 0 beyond them (R114). -/
theorem RADIX_pow_le_shift {u s n : Nat} (hu : u ≠ 0) (hs : RDIGITS * n ≤ s) : RADIX ^ n ≤ u * 10 ^ s :=
  calc RADIX ^ n = 10 ^ (RDIGITS * n) := by rw [pow_mul]; rfl
    _ ≤ 10 ^ s := Nat.pow_le_pow_right (by decide) hs
    _ ≤ u * 10 ^ s := Nat.le_mul_of_pos_left _ (Nat.pos_of_ne_zero hu)

/-- The early RANGE of `shiftLeft10Overflows` is no other condition than that of R114. -/
theorem shiftLeft10Overflows_iff {u s n : Nat} :
    shiftLeft10Overflows u s n = true ↔ u ≠ 0 ∧ RADIX ^ n ≤ u * 10 ^ s := by
  simp only [shiftLeft10Overflows, Bool.and_eq_true, Bool.or_eq_true, bne_iff_ne, decide_eq_true_eq]
  exact and_congr_right fun hu => or_iff_right_of_imp (RADIX_pow_le_shift hu)

/-- Settles O18: the model's early RANGE is that of the plain power, and so is the shifted value. -/
theorem shl10ObeysItsRule : Obligations.Shl10_obeys_its_rule := fun s ra rb rc re rf =>
  obeys_unless (exec_shl10 ra rb rc re rf s) decide_eq_true_iff fun _ h =>
  obeys_range h fun _ h =>
  obeys_same h fun _ h =>
  obeys_words h fun _ h =>
  obeys_unless (command_last h) (Bool.not_iff_not.trans (not_congr shiftLeft10Overflows_iff)) fun _ h =>
  obeys_nil h (completes_digits s _ _)

end Sys2Proof.Machine
end

section
/-! Unit 3, word divider (43_word_divider_radix.md R120 to R126). The quotient of DIVW and the remainders fit a word,
the quotient of BDIVMOD fits its array because the divisor's top word is not 0, and the rounding indicator of SHR10 is
the leading discarded digit, moved off 0 and off 5. -/

namespace Sys2Proof.Machine

open Sys2Proof

/-! ### Scalar divisors -/

theorem toNat_bne_zero_iff {v : Word} : (v.toNat != 0) = true ↔ v ≠ 0 :=
  bne_iff_ne.trans (BitVec.toNat_ne (y := 0)).symm

/-- A remainder by a word fits a word. -/
theorem toNat_ofNat_mod_word (x : Nat) {v : Word} (hv : v ≠ 0) : (Word.ofNat (x % v.toNat)).toNat = x % v.toNat := by
  have hpos : 0 < v.toNat := Nat.pos_of_ne_zero (BitVec.toNat_ne.1 hv)
  rw [BitVec.toNat_ofNat, Nat.mod_eq_of_lt ((Nat.mod_lt x hpos).trans v.isLt)]

/-! ### DIVW (R121) -/

theorem exec_divw (rd ra rb rc re : Reg) (s : State) :
    let hi := s.reg rb
    let d := s.scalar re
    let dividend := hi.toNat * 2 ^ 64 + s.scalar rc
    exec (.divw rd ra rb rc re) s = command s (require (d != 0) .divzero 0 <|> checkBelow hi d) fun _ =>
      (s.setReg ra (Word.ofNat (dividend % d))).setReg rd (Word.ofNat (dividend / d)) := rfl

/-- A high word below the divisor keeps the quotient of a double word in one word (R121). -/
theorem double_word_div_lt {hi lo d : Nat} (hhi : hi < d) (hlo : lo < 2 ^ 64) :
    (hi * 2 ^ 64 + lo) / d < 2 ^ 64 :=
  Nat.div_lt_of_lt_mul (by omega)

/-- Settles O19: with `hi < d` neither the quotient nor the remainder is truncated. -/
theorem divwObeysItsRule : Obligations.Divw_obeys_its_rule := fun s rd ra rb rc re =>
  obeys_unless (exec_divw rd ra rb rc re s) bne_iff_ne fun hd h =>
  obeys_unless (command_last h) decide_eq_true_iff fun hhi h => by
    refine obeys_nil h ⟨completes_setReg_setReg s ra rd _ _, ?_, fun hne => ?_⟩
    · rw [State.advance_reg, State.setReg_reg_self, BitVec.toNat_ofNat]
      exact Nat.mod_eq_of_lt (double_word_div_lt hhi (s.reg rc).isLt)
    · rw [State.advance_reg, State.setReg_reg_ne _ _ hne, State.setReg_reg_self]
      exact toNat_ofNat_mod_word _ (BitVec.toNat_ne.2 hd)

/-! ### SDIV (R122) -/

theorem exec_sdiv (rd ra rb rc re : Reg) (s : State) :
    let n := s.scalar re
    let w := s.array ra n
    let u := s.array rb n
    let v := s.reg rc
    exec (.sdiv rd ra rb rc re) s =
      command s (checkLen (decide (1 ≤ n)) <|> s.checkAddrs [w, u] <|> checkSameBase w u
        <|> require (v.toNat != 0) .divzero 0 <|> checkBelow v RADIX <|> s.checkWords RADIX u) fun _ =>
      (s.setWords w (digits (s.value u / v.toNat) n)).setReg rd (Word.ofNat (s.value u % v.toNat)) := rfl

/-- Settles O20: the remainder by a word is one word. -/
theorem sdivObeysItsRule : Obligations.Sdiv_obeys_its_rule := fun s rd ra rb rc re =>
  obeys_unless (exec_sdiv rd ra rb rc re s) decide_eq_true_iff fun _ h =>
  obeys_range h fun _ h =>
  obeys_same h fun _ h =>
  obeys_unless h toNat_bne_zero_iff fun hv h =>
  obeys_unless h decide_eq_true_iff fun _ h =>
  obeys_words (command_last h) fun _ h =>
  obeys_nil h (completes_digits_reg s _ _ _ rd (toNat_ofNat_mod_word _ hv))

/-! ### BDIVMOD (R123, R126) -/

theorem exec_bdivmod (rd ra rb rc re rf rg : Reg) (s : State) :
    let nplusm := s.scalar rf
    let n := s.scalar rg
    let q := s.array ra (nplusm - n + 1)
    let r := s.array rb n
    let u := s.array rc nplusm
    let v := s.array re n
    exec (.bdivmod rd ra rb rc re rf rg) s =
      command s (checkLen (decide (1 ≤ n ∧ n ≤ nplusm)) <|> s.checkAddrs [q, r, u, v]
        <|> checkStrict q r <|> checkStrict q u <|> checkStrict q v <|> checkStrict r u <|> checkStrict r v
        <|> s.checkWords RADIX u <|> s.checkWords RADIX v
        <|> require (s.value v != 0) .divzero 0 <|> require (s.data (v.base.toNat + n - 1) != 0) .range 0
        <|> s.checkScratch .bdivmod [nplusm, n] [q, r]) fun _ =>
      ((s.setWords q (digits (s.value u / s.value v) q.len)).setWords r
        (digits (s.value u % s.value v) n)).setReg rd (presentFlag (s.value u % s.value v)) := rfl

/-- A command that completes by writing its destinations leaves all else as it was (R59). -/
theorem State.Writes.completes {s u : State} {i : Instr} (h : s.Writes i u) :
    s.Completes u.advance (destinationRegisters i) (s.destinationArrays i) := by
  obtain ⟨_, _, rfl⟩ := h.frame
  exact ⟨rfl, fun _ => h.reg_eq, fun _ => h.data_eq, fun _ => rfl, rfl, rfl, rfl, rfl, rfl⟩

/-- Writing an array leaves the words of an array apart from it. -/
theorem words_setWords_of_apart {s : State} {a b : ArrayOperand} {ws : List Word} (hl : ws.length = a.len)
    (h : b.Apart a) : (s.setWords a ws).words b = s.words b :=
  State.dataList_congr fun i hi => State.setData_data_outside s ws (by omega)

/-- What BDIVMOD leaves: `r` is written second and lies apart from `q`. -/
theorem completes_bdivmod (s : State) (rd ra rb rc re rf rg : Reg) (x y : Nat) (c : Word) :
    let n := s.scalar rg
    let q := s.array ra (s.scalar rf - n + 1)
    let r := s.array rb n
    let t := (((s.setWords q (digits x q.len)).setWords r (digits y n)).setReg rd c).advance
    q.Apart r → s.Completes t [rd] [q, r] ∧ t.words q = digits x q.len ∧ t.words r = digits y n ∧ t.reg rd = c := by
  intro n q r t hqr
  have hq : (digits x q.len).length = q.len := digits_length ..
  have hr : (digits y n).length = r.len := digits_length ..
  have hwrites : s.Writes (.bdivmod rd ra rb rc re rf rg)
      (((s.setWords q (digits x q.len)).setWords r (digits y n)).setReg rd c) :=
    .reg (.words (.words .none (.head _) hq) (.tail _ (.head _)) hr) (.head _)
  refine ⟨hwrites.completes, ?_, ?_, ?_⟩
  · rw [words_advance, words_setReg, words_setWords_of_apart hr hqr, words_setWords_self q _ hq]
  · rw [words_advance, words_setReg, words_setWords_self r _ hr]
  · rw [State.advance_reg, State.setReg_reg_self]

/-- The divisor's top word as the meaning reads it and as the rule names it. -/
theorem top_word_ne_zero_iff {s : State} {v : ArrayOperand} (hlen : 1 ≤ v.len) :
    (s.data (v.base.toNat + v.len - 1) != 0) = true ↔ s.element v (v.len - 1) ≠ 0 := by
  rw [Nat.add_sub_assoc hlen, bne_iff_ne, State.element]
  exact BitVec.toNat_ne

/-- An array whose top word is not 0 stands for at least the weight of that word. -/
theorem RADIX_pow_le_value {s : State} {v : ArrayOperand} (hlen : 1 ≤ v.len) (htop : s.element v (v.len - 1) ≠ 0) :
    RADIX ^ (v.len - 1) ≤ s.value v :=
  calc RADIX ^ (v.len - 1)
    _ ≤ s.element v (v.len - 1) * RADIX ^ (v.len - 1) := Nat.le_mul_of_pos_left _ (Nat.pos_of_ne_zero htop)
    _ ≤ ∑ i ∈ Finset.range v.len, s.element v i * RADIX ^ i :=
      Finset.single_le_sum_of_canonicallyOrdered (f := fun i => s.element v i * RADIX ^ i)
        (Finset.mem_range.2 (Nat.sub_one_lt_of_lt hlen))
    _ = s.value v := (s.value_eq_sum v).symm

/-- The quotient fits in `m − n + 1` words because the divisor is at least `RADIX^(n−1)` (R123). -/
theorem div_lt_RADIX_pow {u v m n : Nat} (hn : 1 ≤ n) (hnm : n ≤ m) (hu : u < RADIX ^ m) (hv : RADIX ^ (n - 1) ≤ v) :
    u / v < RADIX ^ (m - n + 1) := by
  refine Nat.div_lt_of_lt_mul ?_
  calc u < RADIX ^ m := hu
    _ = RADIX ^ (n - 1) * RADIX ^ (m - n + 1) := by rw [← pow_add]; congr 1; omega
    _ ≤ v * RADIX ^ (m - n + 1) := Nat.mul_le_mul_right _ hv

/-- The law of division (R126) of the words written: neither array cuts its value short. -/
theorem value_digits_div_mod {u v m n : Nat} (hn : 1 ≤ n) (hnm : n ≤ m) (hu : u < RADIX ^ m)
    (hlow : RADIX ^ (n - 1) ≤ v) (hhigh : v < RADIX ^ n) :
    value (digits (u / v) (m - n + 1)) * v + value (digits (u % v) n) = u ∧ value (digits (u % v) n) < v := by
  have hrem : u % v < v := Nat.mod_lt _ ((pow_pos RADIX_pos _).trans_le hlow)
  rw [value_digits, value_digits, Nat.mod_eq_of_lt (div_lt_RADIX_pow hn hnm hu hlow),
    Nat.mod_eq_of_lt (hrem.trans hhigh)]
  exact ⟨Nat.div_add_mod' u v, hrem⟩

/-- Settles O21: the checks in order, then the two arrays, which lie apart; the law is that of `value_digits_div_mod`. -/
theorem bdivmodObeysItsRule : Obligations.Bdivmod_obeys_its_rule := fun s rd ra rb rc re rf rg =>
  ⟨obeys_unless (exec_bdivmod rd ra rb rc re rf rg s) decide_eq_true_iff fun ⟨hn, _⟩ h =>
    obeys_range h fun _ h =>
    obeys_strict h fun hqr h =>
    obeys_strict h fun _ h =>
    obeys_strict h fun _ h =>
    obeys_strict h fun _ h =>
    obeys_strict h fun _ h =>
    obeys_words h fun _ h =>
    obeys_words h fun _ h =>
    obeys_unless h bne_iff_ne fun _ h =>
    obeys_unless h (top_word_ne_zero_iff (v := s.array re (s.scalar rg)) hn) fun _ h =>
    obeys_scratch (command_last h) fun _ h =>
    obeys_nil h (completes_bdivmod s rd ra rb rc re rf rg _ _ _ hqr),
   fun _ _ hn hnm hu hv htop =>
    value_digits_div_mod hn hnm hu.value_lt (RADIX_pow_le_value hn htop) hv.value_lt⟩

/-! ### SHR10 (R125) -/

theorem exec_shr10 (rd ra rb rc re : Reg) (s : State) :
    let m := s.scalar re
    let w := s.array ra m
    let u := s.array rb m
    let shift := s.scalar rc
    exec (.shr10 rd ra rb rc re) s =
      command s (checkLen (decide (1 ≤ m)) <|> s.checkAddrs [w, u] <|> checkSameBase w u <|> s.checkWords RADIX u)
      fun _ => (s.setWords w (digits (shiftRight10 (s.value u) shift m) m)).setReg rd
        (roundingIndicator (s.value u) shift m) := rfl

/-- A value of `m` words has no digit at or beyond position `RDIGITS · m`. -/
theorem lt_ten_pow_of_lt_RADIX_pow {u m k : Nat} (hu : u < RADIX ^ m) (hk : RDIGITS * m ≤ k) : u < 10 ^ k :=
  calc u < RADIX ^ m := hu
    _ = 10 ^ (RDIGITS * m) := by rw [pow_mul]; rfl
    _ ≤ 10 ^ k := Nat.pow_le_pow_right (by decide) hk

/-- The quotient of R125 is the plain one in all three branches: 0 beyond the array's digits. -/
theorem shiftRight10_eq {u s m : Nat} (hu : u < RADIX ^ m) : shiftRight10 u s m = u / 10 ^ s := by
  rw [shiftRight10]
  split_ifs with hzero hbeyond
  · rw [hzero, pow_zero, Nat.div_one]
  · exact (Nat.div_eq_of_lt (lt_ten_pow_of_lt_RADIX_pow hu (Nat.le_of_lt hbeyond))).symm
  · rfl

/-- The third branch of R125 for a discarded part `d` whose leading digit has weight `p`: that digit, moved off 0 and
off 5 where lower digits are not all 0. -/
def roundingDigit (d p : Nat) : Nat :=
  if (d / p = 0 ∨ d / p = 5) ∧ d % p ≠ 0 then d / p + 1 else d / p

theorem roundingIndicator_eq (u s m : Nat) :
    roundingIndicator u s m =
      if s = 0 then 0
      else if RDIGITS * m < s then presentFlag u
      else Word.ofNat (roundingDigit (u % 10 ^ s) (10 ^ (s - 1))) := rfl

theorem rounding_eq (u m s : Nat) :
    Rules.rounding u m s =
      if s = 0 then 0
      else if RDIGITS * m < s then (if u ≠ 0 then 1 else 0)
      else roundingDigit (u % 10 ^ s) (10 ^ (s - 1)) := rfl

theorem roundingDigit_cases (d p : Nat) :
    ((d / p = 0 ∨ d / p = 5) ∧ d % p ≠ 0 ∧ roundingDigit d p = d / p + 1)
      ∨ (¬((d / p = 0 ∨ d / p = 5) ∧ d % p ≠ 0) ∧ roundingDigit d p = d / p) := by
  rw [roundingDigit]
  split_ifs with hmoved
  · exact .inl ⟨hmoved.1, hmoved.2, rfl⟩
  · exact .inr ⟨hmoved, rfl⟩

/-- Below the leading digit's weight the leading digit is 0, and the indicator tells only whether `d` is 0. -/
theorem roundingDigit_of_lt {d p : Nat} (h : d < p) : roundingDigit d p = if d ≠ 0 then 1 else 0 := by
  rw [roundingDigit, Nat.div_eq_of_lt h, Nat.mod_eq_of_lt h]
  simp

theorem roundingDigit_le_ten {d p : Nat} (hd : d < 10 * p) : roundingDigit d p ≤ 10 := by
  have hlead : d / p < 10 := Nat.div_lt_of_lt_mul (by omega)
  rcases roundingDigit_cases d p with ⟨-, -, hdigit⟩ | ⟨-, hdigit⟩ <;> omega

/-- The class of the rounding digit (R125), read off for each of the ten leading digits `d / p`. -/
theorem roundingDigit_classes {d p : Nat} (hp : 0 < p) (hd : d < 10 * p) :
    (roundingDigit d p = 0 ↔ d = 0)
      ∧ (roundingDigit d p = 5 ↔ d = 5 * p)
      ∧ ((1 ≤ roundingDigit d p ∧ roundingDigit d p ≤ 4) ↔ (0 < d ∧ d < 5 * p))
      ∧ ((6 ≤ roundingDigit d p ∧ roundingDigit d p ≤ 9) ↔ 5 * p < d) := by
  have hlead : d / p < 10 := Nat.div_lt_of_lt_mul (by omega)
  have hrest : d % p < p := Nat.mod_lt _ hp
  have hsplit : d / p * p + d % p = d := Nat.div_add_mod' d p
  have hdigit := roundingDigit_cases d p
  generalize d / p = lead, d % p = rest, roundingDigit d p = digit at *
  interval_cases lead <;> omega

/-- The discarded part of a shift has `s` digits, the leading one of weight `10^(s−1)`. -/
theorem mod_ten_pow_lt (u : Nat) {s : Nat} (hs : s ≠ 0) : u % 10 ^ s < 10 * 10 ^ (s - 1) := by
  rw [mul_pow_sub_one hs]
  exact Nat.mod_lt _ (by positivity)

theorem toNat_presentFlag (v : Nat) : (presentFlag v).toNat = if v ≠ 0 then 1 else 0 := by
  rw [presentFlag]
  split <;> rfl

/-- The word SHR10 leaves in `rd` holds the number of R125. -/
theorem toNat_roundingIndicator (u s m : Nat) : (roundingIndicator u s m).toNat = Rules.rounding u m s := by
  rw [roundingIndicator_eq, rounding_eq]
  by_cases hzero : s = 0
  · rw [if_pos hzero, if_pos hzero]; rfl
  rw [if_neg hzero, if_neg hzero]
  by_cases hbeyond : RDIGITS * m < s
  · rw [if_pos hbeyond, if_pos hbeyond, toNat_presentFlag]
  · have hdigit := roundingDigit_le_ten (mod_ten_pow_lt u hzero)
    rw [if_neg hbeyond, if_neg hbeyond, BitVec.toNat_ofNat]
    exact Nat.mod_eq_of_lt (hdigit.trans_lt (by decide))

/-- Beyond the array's digits the discarded part is the whole value and its leading digit is 0, so the second branch of
R125 is the third. -/
theorem rounding_eq_roundingDigit {u m s : Nat} (hu : u < RADIX ^ m) (hs : s ≠ 0) :
    Rules.rounding u m s = roundingDigit (u % 10 ^ s) (10 ^ (s - 1)) := by
  rw [rounding_eq, if_neg hs]
  split
  next hbeyond =>
    have hsmall : u < 10 ^ (s - 1) := lt_ten_pow_of_lt_RADIX_pow hu (Nat.le_sub_one_of_lt hbeyond)
    have hdiscard : u % 10 ^ s = u := Nat.mod_eq_of_lt (lt_ten_pow_of_lt_RADIX_pow hu (Nat.le_of_lt hbeyond))
    rw [hdiscard, roundingDigit_of_lt hsmall]
  next => rfl

/-- Settles O22: the quotient is the plain one, and `rd` holds the number of R125. -/
theorem shr10ObeysItsRule : Obligations.Shr10_obeys_its_rule := fun s rd ra rb rc re =>
  obeys_unless (exec_shr10 rd ra rb rc re s) decide_eq_true_iff fun _ h =>
  obeys_range h fun _ h =>
  obeys_same h fun _ h =>
  obeys_words (command_last h) fun hu h => by
    have hquotient := shiftRight10_eq (s := s.scalar rc) hu.value_lt
    obtain ⟨hc, hw, hr⟩ := completes_digits_reg s _ _ _ rd (toNat_roundingIndicator _ _ _)
    exact obeys_nil h ⟨hc, hw.trans (congrArg (digits · _) hquotient), hr⟩

/-- Settles O23: for every shift the indicator is the rounding digit of the discarded part. -/
theorem roundingIndicatorTellsTheClass : Obligations.Rounding_indicator_tells_the_class := by
  intro u m shift hu hshift d rnd
  have hne : shift ≠ 0 := Nat.one_le_iff_ne_zero.1 hshift
  have hrnd : rnd = roundingDigit d (10 ^ (shift - 1)) :=
    (toNat_roundingIndicator u shift m).trans (rounding_eq_roundingDigit hu hne)
  rw [hrnd]
  exact roundingDigit_classes (by positivity) (mod_ten_pow_lt u hne)

end Sys2Proof.Machine
end

section
/-! Units 4, 5 and 6, modular commands (44_modular.md R130 to R141). The residue checks of a meaning are laid against the
lines of its rule once, for a list of any length; what is left of each rule is that its result, a residue, fits a word,
and that the model's subtraction and power are those of the integers. -/

namespace Sys2Proof.Machine

open Sys2Proof

/-! ### Residue checks (R130) -/

/-- The residue checks of a meaning against those of its rule. -/
theorem obeys_residueChecks {s t : State} {i : Instr} {done : State → Prop} {m : Nat} {l : List Word}
    (h : exec i s = command s (checkResidues m l) fun _ => t) (hdone : (∀ v ∈ l, v.toNat < m) → done t.advance) :
    s.Obeys i done (Rules.residueChecks m l) := by
  induction l with
  | nil => exact obeys_nil h (hdone nofun)
  | cons v rest ih =>
    exact obeys_unless h decide_eq_true_iff fun hv h => ih h fun hrest => hdone (List.forall_mem_cons.2 ⟨hv, hrest⟩)

theorem residueChecks_pass {s : State} {m : Nat} {l : List Word} (h : ∀ v ∈ l, v.toNat < m) :
    ∀ c ∈ Rules.residueChecks m l, c.Passes s :=
  List.forall_mem_map.2 h

/-- A modular command that writes `v` to its one destination obeys its rule when `v` stands for the result. -/
theorem obeys_residue {s : State} {i : Instr} {rd : Reg} {m result : Nat} {operands : List Word} {v : Word}
    (h : exec i s = command s (checkResidues m operands) fun _ => s.setReg rd v)
    (hv : (∀ a ∈ operands, a.toNat < m) → v.toNat = result) :
    s.ObeysRule i (Rules.residue s rd m operands result) :=
  obeys_residueChecks h fun hl =>
    ⟨completes_setReg rd v, by rw [State.advance_reg, State.setReg_reg_self, hv hl]⟩

/-- A number below a modulus that is at most `2^64` fits a word. -/
theorem toNat_ofNat_of_residue {x m : Nat} (hx : x < m) (hm : m ≤ 2 ^ 64) : (Word.ofNat x).toNat = x :=
  Nat.mod_eq_of_lt (hx.trans_le hm)

/-- A modulus that exceeds a first operand is not 0, so the remainders by it are residues. -/
theorem mod_lt_of_residues {a : Word} {rest : List Word} {m : Nat} (h : ∀ v ∈ a :: rest, v.toNat < m) (x : Nat) :
    x % m < m :=
  Nat.mod_lt x (Nat.zero_lt_of_lt (h a List.mem_cons_self))

/-! ### ADDMOD, SUBMOD and MULMOD (R131 to R133) -/

theorem exec_addmod (rd ra rb rc : Reg) (s : State) :
    exec (.addmod rd ra rb rc) s = command s (checkResidues (s.reg rc).toNat [s.reg ra, s.reg rb]) fun _ =>
      s.setReg rd (Word.ofNat (((s.reg ra).toNat + (s.reg rb).toNat) % (s.reg rc).toNat)) := rfl

theorem exec_submod (rd ra rb rc : Reg) (s : State) :
    exec (.submod rd ra rb rc) s = command s (checkResidues (s.reg rc).toNat [s.reg ra, s.reg rb]) fun _ =>
      s.setReg rd (Word.ofNat (subMod (s.reg ra).toNat (s.reg rb).toNat (s.reg rc).toNat)) := rfl

theorem exec_mulmod (rd ra rb rc : Reg) (s : State) :
    exec (.mulmod rd ra rb rc) s = command s (checkResidues (s.reg rc).toNat [s.reg ra, s.reg rb]) fun _ =>
      s.setReg rd (Word.ofNat ((s.reg ra).toNat * (s.reg rb).toNat % (s.reg rc).toNat)) := rfl

theorem subMod_lt {a b m : Nat} (ha : a < m) : subMod a b m < m := by
  rw [subMod]
  split <;> omega

/-- On residues, the two cases of R132 are the difference modulo `m` over the integers. -/
theorem subMod_eq_emod {a b m : Nat} (ha : a < m) (hb : b < m) : subMod a b m = (((a : Int) - b) % (m : Int)).toNat := by
  rw [subMod]
  split
  case isTrue hle => rw [Int.emod_eq_of_lt (by omega) (by omega)]; omega
  case isFalse hlt => rw [← Int.add_emod_right, Int.emod_eq_of_lt (by omega) (by omega)]; omega

/-- Settles O24: each result is a residue of a modulus that is a word. -/
theorem addmodSubmodMulmodObeyTheirRules : Obligations.Addmod_submod_mulmod_obey_their_rules := by
  intro s rd ra rb rc a b m
  have hm : m ≤ 2 ^ 64 := (s.reg rc).isLt.le
  refine ⟨obeys_residue (exec_addmod rd ra rb rc s) fun h => toNat_ofNat_of_residue (mod_lt_of_residues h _) hm,
    obeys_residue (exec_submod rd ra rb rc s) fun h => ?_,
    obeys_residue (exec_mulmod rd ra rb rc s) fun h => toNat_ofNat_of_residue (mod_lt_of_residues h _) hm⟩
  obtain ⟨ha, hb⟩ : a.toNat < m ∧ b.toNat < m := by simpa using h
  rw [← subMod_eq_emod ha hb]
  exact toNat_ofNat_of_residue (subMod_lt ha) hm

/-! ### MULMODP and REDP (R134, R139) -/

/-- A command with a legal prime index passes its ILLEGAL check (R75). -/
theorem exec_legal {i : Instr} {s : State} {checks : Option Trap} {effect : Unit → State}
    (h : exec i s = command s (checkPrimeIndex i <|> checks) effect) (hi : i.WellFormed) :
    exec i s = command s checks effect := by
  rw [h, checkPrimeIndex_eq_none hi]
  rfl

theorem exec_mulmodp {pi : BitVec 2} (hpi : pi ≠ 3) (rd ra rb : Reg) (s : State) :
    exec (.mulmodp rd ra rb pi) s = command s (checkResidues (s.cfg.prime pi) [s.reg ra, s.reg rb]) fun _ =>
      s.setReg rd (Word.ofNat ((s.reg ra).toNat * (s.reg rb).toNat % s.cfg.prime pi)) :=
  exec_legal rfl fun h => hpi (Option.some.inj h)

theorem exec_redp {pi : BitVec 2} (hpi : pi ≠ 3) (rd ra rb : Reg) (s : State) :
    exec (.redp rd ra rb pi) s = command s (checkResidues (s.cfg.prime pi) [s.reg ra]) fun _ =>
      s.setReg rd (Word.ofNat (((s.reg ra).toNat * 2 ^ 64 + (s.reg rb).toNat) % s.cfg.prime pi)) :=
  command_last (exec_legal rfl fun h => hpi (Option.some.inj h))

/-- Settles O25: with a legal index the checks are those of the residues, and a remainder by the prime is a word. -/
theorem mulmodpRedpObeyTheirRules : Obligations.Mulmodp_redp_obey_their_rules := fun s rd ra rb _ hpi hp =>
  ⟨obeys_residue (exec_mulmodp hpi rd ra rb s) fun h => toNat_ofNat_of_residue (mod_lt_of_residues h _) hp.le,
    obeys_residue (exec_redp hpi rd ra rb s) fun h => toNat_ofNat_of_residue (mod_lt_of_residues h _) hp.le⟩

/-! ### MULMOD2 and MULMOD2C (R135, R136) -/

theorem exec_mulmod2 (rd ra rb rc re rf rg : Reg) (s : State) :
    let m := (s.reg rg).toNat
    exec (.mulmod2 rd ra rb rc re rf rg) s =
      command s (checkResidues m [s.reg rb, s.reg rc, s.reg re, s.reg rf]) fun _ =>
      (s.setReg rd (Word.ofNat ((s.reg rb).toNat * (s.reg rc).toNat % m))).setReg ra
        (Word.ofNat ((s.reg re).toNat * (s.reg rf).toNat % m)) := rfl

theorem exec_mulmod2c (rd ra rb rc re rg : Reg) (s : State) :
    let m := (s.reg rg).toNat
    exec (.mulmod2c rd ra rb rc re rg) s = command s (checkResidues m [s.reg rb, s.reg rc, s.reg re]) fun _ =>
      (s.setReg rd (Word.ofNat ((s.reg rb).toNat * (s.reg re).toNat % m))).setReg ra
        (Word.ofNat ((s.reg rc).toNat * (s.reg re).toNat % m)) := rfl

/-- The order in which the destination registers are listed does not matter. -/
theorem State.Completes.swap {s t : State} {r q : Reg} {arrays : List ArrayOperand}
    (h : s.Completes t [r, q] arrays) : s.Completes t [q, r] arrays :=
  { h with regs := fun x hx => h.regs x (mt (List.Perm.swap ..).mem_iff.1 hx) }

/-- What a command leaves that writes residues to two registers, `first` before `second`. -/
theorem completes_two_residues (s : State) (first second : Reg) {x y m : Nat} (hx : x < m) (hy : y < m)
    (hm : m ≤ 2 ^ 64) :
    let t := ((s.setReg first (Word.ofNat x)).setReg second (Word.ofNat y)).advance
    s.Completes t [first, second] [] ∧ (t.reg second).toNat = y ∧ (first ≠ second → (t.reg first).toNat = x) := by
  refine ⟨(completes_setReg_setReg s first second _ _).swap, ?_, fun hne => ?_⟩
  · rw [State.advance_reg, State.setReg_reg_self, toNat_ofNat_of_residue hy hm]
  · rw [State.advance_reg, State.setReg_reg_ne _ _ hne, State.setReg_reg_self, toNat_ofNat_of_residue hx hm]

/-- Settles O26: both products are formed before the writes, and each is a residue. -/
theorem mulmod2Mulmod2cObeyTheirRules : Obligations.Mulmod2_mulmod2c_obey_their_rules := by
  intro s rd ra rb rc re rf rg m product
  have hm : m ≤ 2 ^ 64 := (s.reg rg).isLt.le
  exact ⟨obeys_residueChecks (exec_mulmod2 rd ra rb rc re rf rg s) fun h =>
      completes_two_residues s rd ra (mod_lt_of_residues h _) (mod_lt_of_residues h _) hm,
    obeys_residueChecks (exec_mulmod2c rd ra rb rc re rg s) fun h =>
      completes_two_residues s rd ra (mod_lt_of_residues h _) (mod_lt_of_residues h _) hm⟩

/-! ### POWMOD (R137) -/

theorem exec_powmod (rd ra rb rc : Reg) (s : State) :
    let m := (s.reg rc).toNat
    exec (.powmod rd ra rb rc) s =
      command s (require (decide (2 ≤ m)) .range (s.reg rc) <|> checkBelow (s.reg ra) m) fun _ =>
      s.setReg rd (Word.ofNat (powMod (s.reg ra).toNat (s.reg rb).toNat m)) := rfl

/-- Settles O27: the loop of 64 iterations is the power (`powMod_eq`), for an exponent that is a word. -/
theorem powmodObeysItsRule : Obligations.Powmod_obeys_its_rule := fun s rd ra rb rc =>
  obeys_unless (exec_powmod rd ra rb rc s) decide_eq_true_iff fun hm h =>
  obeys_unless (command_last h) decide_eq_true_iff fun _ h => by
    have hpos : 0 < (s.reg rc).toNat := Nat.zero_lt_of_lt hm
    refine obeys_nil h ⟨completes_setReg rd _, ?_⟩
    rw [State.advance_reg, State.setReg_reg_self, powMod_eq _ _ _ hpos (s.reg rb).isLt]
    exact toNat_ofNat_of_residue (Nat.mod_lt _ hpos) (s.reg rc).isLt.le

/-! ### Laws of the modular commands (R140, R141) -/

/-- Settles O28: with one modulus the two commands are one `command`; and the words of MULW, the high one below the
prime, are the double word REDP reduces (O15, O25). -/
theorem modularMultiplicationPathsAgree : Obligations.Modular_multiplication_paths_agree := by
  intro s rd ra rb rc pi hpi
  refine ⟨fun hmod => ?_, fun h l hne hp ha hb => ?_⟩
  · rw [exec_mulmodp hpi, exec_mulmod, hmod]
  · obtain ⟨t, ht, -, htr⟩ := (mulmodpRedpObeyTheirRules s rd ra rb pi hpi hp).1.completes
      (residueChecks_pass (by simp [ha, hb]))
    obtain ⟨x, hx, hxc, hhigh, hlow⟩ := mulwWritesTheDoubleWord s h l ra rb
    have hxp : x.cfg.prime pi = s.cfg.prime pi := by rw [hxc.cfg]
    have hbelow : (x.reg h).toNat < x.cfg.prime pi := by
      rw [hhigh, hxp]
      exact Nat.div_lt_of_lt_mul ((Nat.mul_lt_mul'' ha (s.reg rb).isLt).trans_eq (Nat.mul_comm ..))
    obtain ⟨y, hy, -, hyr⟩ := (mulmodpRedpObeyTheirRules x rd h l pi hpi (hxp ▸ hp)).2.completes
      (residueChecks_pass (by simp [hbelow]))
    refine ⟨t, x, y, ht, hx, hy, BitVec.eq_of_toNat_eq ?_⟩
    rw [hyr, htr, hxp, hhigh, hlow hne.symm, Nat.div_add_mod']

/-- Settles O29: both commands complete by their rules (O24), and the difference takes back the sum modulo `m`. -/
theorem submodUndoesAddmod : Obligations.Submod_undoes_addmod := by
  intro s rd ra rb rc hrb hrc ha hb
  obtain ⟨t, hadd, ht, htr⟩ := (addmodSubmodMulmodObeyTheirRules s rd ra rb rc).1.completes
    (residueChecks_pass (by simp [ha, hb]))
  have htb : t.reg rb = s.reg rb := ht.regs rb (by simpa using hrb.symm)
  have htc : t.reg rc = s.reg rc := ht.regs rc (by simpa using hrc.symm)
  have hsum : (t.reg rd).toNat < (s.reg rc).toNat := htr ▸ Nat.mod_lt _ (Nat.zero_lt_of_lt ha)
  obtain ⟨x, hsub, -, hxr⟩ := (addmodSubmodMulmodObeyTheirRules t rd rd rb rc).2.1.completes
    (residueChecks_pass (by simp [htb, htc, hsum, hb]))
  refine ⟨t, x, hadd, hsub, BitVec.eq_of_toNat_eq ?_⟩
  rw [hxr, htb, htc, htr, sub_after_add ha, Int.toNat_natCast]

end Sys2Proof.Machine
end

section
/-! The integers of 45_ntt.md behind the words (R150 to R155, R165): lengths, roots, the transform as a sum, butterflies
and bit reversal. An array's residues are written `(List.range n).map f`, `f` being its elements by index. -/

namespace Sys2Proof.Machine

open Sys2Proof

/-! ### Lengths (R151, R165) -/

theorem log2?_eq_some_iff {kmax n k : Nat} : log2? kmax n = some k ↔ k ≤ kmax ∧ n = 2 ^ k := by
  rw [log2?, List.find?_range_eq_some, beq_iff_eq, List.mem_range, Nat.lt_succ_iff]
  constructor
  · rintro ⟨hn, hk, -⟩
    exact ⟨hk, hn.symm⟩
  · rintro ⟨hk, rfl⟩
    refine ⟨rfl, hk, fun j hj => ?_⟩
    simpa using hj.ne

theorem log2?_isSome_iff {c : Config} {n : Nat} : (log2? c.maxNttLog2 n).isSome = true ↔ c.Pow2Length n := by
  simp only [Option.isSome_iff_exists, log2?_eq_some_iff, Config.Pow2Length, List.mem_range, Nat.lt_succ_iff]

theorem log2?_getD {c : Config} {n : Nat} (h : c.Pow2Length n) : (log2? c.maxNttLog2 n).getD 0 = n.log2 := by
  obtain ⟨k, hk, rfl⟩ := h
  rw [log2?_eq_some_iff.2 ⟨Nat.lt_succ_iff.1 (List.mem_range.1 hk), rfl⟩, Nat.log2_two_pow]
  rfl

theorem two_pow_dvd_of_lt_log2 {c : Config} {n s : Nat} (h : c.Pow2Length n) (hs : s < n.log2) : 2 ^ s ∣ n := by
  obtain ⟨k, -, rfl⟩ := h
  rw [Nat.log2_two_pow] at hs
  exact pow_dvd_pow 2 hs.le

theorem validLength_iff {c : Config} {n : Nat} : validLength c.maxNttLog2 n = true ↔ c.ValidLength n := by
  simp [validLength, Config.ValidLength]

theorem validLength_pos {c : Config} {n : Nat} (h : c.ValidLength n) : 0 < n := by
  obtain ⟨k, -, rfl | rfl⟩ := h <;> positivity

/-- What `leastFrom` finds is the least member from `r` up. -/
theorem leastFrom_eq_some_iff {r m : Nat} {l : List Nat} :
    leastFrom r l = some m ↔ (m ∈ l ∧ r ≤ m) ∧ ∀ x ∈ l, r ≤ x → m ≤ x := by
  simp [leastFrom, List.min?_eq_some_iff]

theorem leastFrom_isSome_iff {r : Nat} {l : List Nat} : (leastFrom r l).isSome = true ↔ ∃ x ∈ l, r ≤ x := by
  simp [leastFrom, List.isSome_min?_iff, List.filter_eq_nil_iff]

theorem mem_pow2Lengths {kmax l : Nat} : l ∈ pow2Lengths kmax ↔ ∃ k ≤ kmax, l = 2 ^ k := by
  simp [pow2Lengths, eq_comm]

/-- The set `S` of R165 is that of the valid lengths. -/
theorem mem_transformLengths {c : Config} {l : Nat} : l ∈ transformLengths c.maxNttLog2 ↔ c.ValidLength l := by
  simp only [transformLengths, pow2Lengths, Config.ValidLength, List.mem_append, List.mem_map, and_or_left, exists_or,
    eq_comm]

theorem hasLengthFrom_iff {c : Config} {r : Nat} : c.HasLengthFrom r ↔ ∃ l, c.ValidLength l ∧ r ≤ l := by
  constructor
  · rintro ⟨k, hk, h | h⟩
    · exact ⟨_, ⟨k, hk, .inl rfl⟩, h⟩
    · exact ⟨_, ⟨k, hk, .inr rfl⟩, h⟩
  · rintro ⟨_, ⟨k, hk, rfl | rfl⟩, h⟩
    · exact ⟨k, hk, .inl h⟩
    · exact ⟨k, hk, .inr h⟩

/-! ### The roots (R153) -/

theorem forwardRoot_eq {c : Config} {pi : BitVec 2} (hpos : 0 < c.prime pi) (hp : c.prime pi ≤ 2 ^ 64) (n : Nat) :
    forwardRoot c pi n = c.omega pi n :=
  powMod_eq _ _ _ hpos ((Nat.div_le_self _ n).trans_lt (by omega))

theorem inverseRoot_eq {c : Config} {pi : BitVec 2} (hpos : 0 < c.prime pi) (hp : c.prime pi ≤ 2 ^ 64) (n : Nat) :
    inverseRoot c pi n = c.omegaInv pi n :=
  powMod_eq _ _ _ hpos ((Nat.sub_le _ _).trans_lt (by omega))

/-! ### The transform (R155) -/

theorem dftAt_lt {p : Nat} (hp : 0 < p) (r n : Nat) (f : Nat → Nat) (k : Nat) : dftAt p r n f k < p :=
  Nat.mod_lt _ hp

/-- Element `k` of the transform as a sum in the ring of residues. -/
theorem cast_dftAt (p r n : Nat) (f : Nat → Nat) (k : Nat) :
    (dftAt p r n f k : ZMod p) = ∑ j ∈ Finset.range n, (f j : ZMod p) * (r : ZMod p) ^ (j * k) := by
  simp [dftAt]

/-- Horner's evaluation is the sum it stands for. -/
theorem polyMod_range (p x n : Nat) (f : Nat → Nat) :
    polyMod p x ((List.range n).map f) = (∑ j ∈ Finset.range n, f j * x ^ j) % p := by
  induction n generalizing f with
  | zero => rfl
  | succ n ih =>
    have shift (j : Nat) : f (j + 1) * x ^ (j + 1) = x * (f (j + 1) * x ^ j) := by ring
    rw [List.range_succ_eq_map, List.map_cons, List.map_map, polyMod_cons, ih, Finset.sum_range_succ', Nat.add_mod,
      Nat.mul_mod_mod, ← Nat.add_mod, Nat.add_comm, Finset.mul_sum]
    simp [shift]

theorem dft_range {p n : Nat} (hp : 0 < p) (hn : n ≤ 2 ^ 64) (r : Nat) (f : Nat → Nat) :
    dft p r ((List.range n).map f) = (List.range n).map (dftAt p r n f) := by
  rw [dft, List.length_map, List.length_range]
  refine List.map_congr_left fun k hk => ?_
  rw [polyMod_range, powMod_eq _ _ _ hp ((List.mem_range.1 hk).trans_le hn), dftAt]
  refine (ZMod.natCast_eq_natCast_iff' _ _ p).1 ?_
  simp [pow_mul, pow_right_comm]

/-- The products of R162, element by element. -/
theorem pointwise_range (p ninv n : Nat) (f g : Nat → Nat) :
    pointwise p ninv ((List.range n).map f) ((List.range n).map g)
      = (List.range n).map (Rules.pointwise p ninv f g) := by
  simp [pointwise, List.zipWith_map, List.zipWith_self, Rules.pointwise]

/-! ### Butterflies (R152) -/

/-- A block that begins inside the array ends inside it. -/
theorem block_end_le {n s q : Nat} (hs : 2 ^ s ∣ n) (hq : q * (n / 2 ^ s) < n) :
    q * (n / 2 ^ s) + n / 2 ^ s ≤ n := by
  obtain ⟨block, rfl⟩ := hs
  rw [Nat.mul_div_cancel_left _ (by positivity)] at *
  rw [← Nat.succ_mul]
  exact Nat.mul_le_mul_right _ (Nat.lt_of_mul_lt_mul_right hq)

/-- The blocks of one stage are two of the next. -/
theorem two_pow_succ_mul_div (s half : Nat) : 2 ^ (s + 1) * half / 2 ^ s = half + half := by
  rw [pow_succ, Nat.mul_assoc, Nat.mul_div_cancel_left _ (by positivity), Nat.two_mul]

section

variable {n s q j : Nat} (hq : q * (n / 2 ^ s) + n / 2 ^ s ≤ n) (hj : j < n / 2 ^ s / 2)
include hq hj

/-- The first element of a butterfly. -/
theorem butterfly_sum (p r : Nat) (f : Nat → Nat) :
    butterfly p r s ((List.range n).map f) (q * (n / 2 ^ s) + j)
      = (f (q * (n / 2 ^ s) + j) + f (q * (n / 2 ^ s) + j + n / 2 ^ s / 2)) % p := by
  have hpos : (q * (n / 2 ^ s) + j) % (n / 2 ^ s) = j := by
    rw [Nat.mul_add_mod_self_right, Nat.mod_eq_of_lt (by omega)]
  have hget (i : Nat) (hi : i < n) : ((List.range n).map f).getD i 0 = f i := by simp [hi]
  simp only [butterfly, List.length_map, List.length_range, hpos, if_pos hj]
  rw [hget _ (by omega), hget _ (by omega)]

/-- The second element of a butterfly of residues. -/
theorem butterfly_difference {p : Nat} (hn : n ≤ 2 ^ 64) (r : Nat) {f : Nat → Nat} (hf : ∀ i < n, f i < p) :
    butterfly p r s ((List.range n).map f) (q * (n / 2 ^ s) + j + n / 2 ^ s / 2)
      = (((f (q * (n / 2 ^ s) + j) : Int) - f (q * (n / 2 ^ s) + j + n / 2 ^ s / 2)) % (p : Int)).toNat
          * r ^ (j * 2 ^ s) % p := by
  have hpos : (q * (n / 2 ^ s) + j + n / 2 ^ s / 2) % (n / 2 ^ s) = j + n / 2 ^ s / 2 := by
    rw [Nat.add_assoc, Nat.mul_add_mod_self_right, Nat.mod_eq_of_lt (by omega)]
  have hexp : j * 2 ^ s < n :=
    (Nat.mul_lt_mul_of_pos_right (hj.trans_le (Nat.div_le_self ..)) (by positivity)).trans_le (Nat.div_mul_le_self n _)
  have hget (i : Nat) (hi : i < n) : ((List.range n).map f).getD i 0 = f i := by simp [hi]
  simp only [butterfly, List.length_map, List.length_range, hpos, Nat.not_lt.2 (Nat.le_add_left _ j), if_false,
    Nat.add_sub_cancel]
  rw [hget _ (by omega), hget _ (by omega), subMod_eq_emod (hf _ (by omega)) (hf _ (by omega)),
    powMod_eq _ _ _ (Nat.zero_lt_of_lt (hf 0 (by omega))) (hexp.trans_le hn), Nat.mul_mod_mod]

end

/-! ### Bit reversal (R154) -/

theorem bitReversed_getElem {k : Nat} {l : List Word} {i : Nat} (hi : i < (bitReversed k l).length)
    (hr : bitReverse k i < l.length) : (bitReversed k l)[i] = l[bitReverse k i] := by
  simp [bitReversed, hr]

theorem bitReverse_lt (k i : Nat) : bitReverse k i < 2 ^ k := by
  induction k generalizing i with
  | zero => exact Nat.one_pos
  | succ k ih =>
    have hlow := ih (i / 2)
    rw [bitReverse, pow_succ]
    rcases Nat.mod_two_eq_zero_or_one i with hbit | hbit <;> rw [hbit] <;> omega

theorem testBit_bitReverse {k b : Nat} (hb : b < k) (i : Nat) :
    (bitReverse k i).testBit b = i.testBit (k - 1 - b) := by
  induction k generalizing i with
  | zero => omega
  | succ k ih =>
    rw [bitReverse, Nat.mul_comm, Nat.testBit_two_pow_mul_add _ (bitReverse_lt k _)]
    split_ifs with hlow
    · rw [ih hlow, ← Nat.testBit_add_one]
      congr 1; omega
    · obtain rfl : b = k := by omega
      simp

/-- `rev_k` by its bits: R154's words for it. -/
theorem bitReverse_eq_of_testBit {k i r : Nat} (hi : i < 2 ^ k) (h : ∀ b < k, r.testBit b = i.testBit (k - 1 - b)) :
    bitReverse k r = i := by
  refine Nat.eq_of_testBit_eq fun b => ?_
  rcases Nat.lt_or_ge b k with hb | hb
  · rw [testBit_bitReverse hb, h _ (by omega)]
    congr 1; omega
  · have hpow : 2 ^ k ≤ 2 ^ b := Nat.pow_le_pow_right (by decide) hb
    rw [Nat.testBit_lt_two_pow ((bitReverse_lt k r).trans_le hpow), Nat.testBit_lt_two_pow (hi.trans_le hpow)]

/-- Reading backwards twice gives the number back. -/
theorem bitReverse_bitReverse {k i : Nat} (hi : i < 2 ^ k) : bitReverse k (bitReverse k i) = i :=
  bitReverse_eq_of_testBit hi fun _ hb => testBit_bitReverse hb i

end Sys2Proof.Machine
end

section
/-! The primes and roots of R6 and R153 in the ring of residues: a valid length divides `p − 1`, the two roots of a length
are primitive and each other's inverse, and so the powers of one against those of the other sum to the length or to 0. -/

namespace Sys2Proof.Config

variable {c : Config}

theorem Legal.legalPrime (h : c.Legal) (pi : BitVec 2) : LegalPrime (c.prime pi) (c.root pi) c.maxNttLog2 := by
  unfold prime root
  split_ifs
  exacts [h.prime1, h.prime2, h.prime3]

theorem Legal.fact_prime (h : c.Legal) (pi : BitVec 2) : Fact (c.prime pi).Prime := ⟨(h.legalPrime pi).prime⟩

theorem Legal.length_dvd (h : c.Legal) (pi : BitVec 2) {n : Nat} (hn : c.ValidLength n) : n ∣ c.prime pi - 1 := by
  have hp := h.legalPrime pi
  have hpow {k : Nat} (hk : k ∈ List.range (c.maxNttLog2 + 1)) : 2 ^ k ∣ c.prime pi - 1 :=
    (pow_dvd_pow 2 (Nat.lt_succ_iff.1 (List.mem_range.1 hk))).trans hp.pow2_dvd
  obtain ⟨k, hk, rfl | rfl⟩ := hn
  · exact hpow hk
  · exact (Nat.Coprime.pow_right k (by decide)).mul_dvd_of_dvd_of_dvd hp.three_dvd (hpow hk)

theorem Legal.length_lt (h : c.Legal) (pi : BitVec 2) {n : Nat} (hn : c.ValidLength n) : n < c.prime pi := by
  have htwo := (h.legalPrime pi).prime.two_le
  have hle : n ≤ c.prime pi - 1 := Nat.le_of_dvd (by omega) (h.length_dvd pi hn)
  omega

/-- The forward root of a valid length is a primitive root of unity. -/
theorem Legal.isPrimitiveRoot_omega (h : c.Legal) (pi : BitVec 2) {n : Nat} (hn : c.ValidLength n) :
    IsPrimitiveRoot (c.omega pi n : ZMod (c.prime pi)) n := by
  have hp := h.legalPrime pi
  have hroot : IsPrimitiveRoot (c.root pi : ZMod (c.prime pi)) (c.prime pi - 1) :=
    hp.primitive ▸ IsPrimitiveRoot.orderOf _
  have hcast : (c.omega pi n : ZMod (c.prime pi)) = (c.root pi : ZMod (c.prime pi)) ^ ((c.prime pi - 1) / n) := by
    simp [omega]
  rw [hcast]
  exact hroot.pow (Nat.sub_pos_of_lt hp.prime.one_lt) (Nat.div_mul_cancel (h.length_dvd pi hn)).symm

/-- The two roots of R153 are each other's inverse. -/
theorem Legal.omega_mul_omegaInv (h : c.Legal) (pi : BitVec 2) (n : Nat) :
    (c.omega pi n : ZMod (c.prime pi)) * (c.omegaInv pi n : ZMod (c.prime pi)) = 1 := by
  have hone : (c.root pi : ZMod (c.prime pi)) ^ (c.prime pi - 1) = 1 :=
    (h.legalPrime pi).primitive ▸ pow_orderOf_eq_one _
  simp only [omega, omegaInv, ZMod.natCast_mod, Nat.cast_pow]
  rw [← pow_add, Nat.add_sub_cancel' (Nat.div_le_self ..), hone]

/-- The inverse root of a valid length is a primitive root of unity too. -/
theorem Legal.isPrimitiveRoot_omegaInv (h : c.Legal) (pi : BitVec 2) {n : Nat} (hn : c.ValidLength n) :
    IsPrimitiveRoot (c.omegaInv pi n : ZMod (c.prime pi)) n := by
  have := h.fact_prime pi
  rw [eq_inv_of_mul_eq_one_right (h.omega_mul_omegaInv pi n)]
  exact (h.isPrimitiveRoot_omega pi hn).inv

end Sys2Proof.Config

namespace Sys2Proof.Machine

open Sys2Proof

/-- Fermat's inverse (R162, log entry 12) of a number that the prime does not divide. -/
theorem mul_invMod {n p : Nat} (hp : p.Prime) (hword : p ≤ 2 ^ 64) (hpos : 0 < n) (hn : n < p) :
    n * invMod n p % p = 1 := by
  have := Fact.mk hp
  have hne : (n : ZMod p) ≠ 0 := by
    rw [Ne, ZMod.natCast_eq_zero_iff]
    exact Nat.not_dvd_of_pos_of_lt hpos hn
  have hexp : p - 1 = p - 2 + 1 := by have := hp.two_le; omega
  have hfermat : ((n * n ^ (p - 2) : Nat) : ZMod p) = ((1 : Nat) : ZMod p) := by
    push_cast
    rw [← pow_succ', ← hexp, ZMod.pow_card_sub_one_eq_one hne]
  rw [invMod, powMod_eq _ _ _ hp.pos (by omega), Nat.mod_eq_of_lt hn, Nat.mul_mod_mod,
    (ZMod.natCast_eq_natCast_iff' _ _ p).1 hfermat, Nat.mod_eq_of_lt hp.one_lt]

theorem invMod_lt {p : Nat} (hpos : 0 < p) (hword : p ≤ 2 ^ 64) (n : Nat) : invMod n p < p := by
  rw [invMod, powMod_eq _ _ _ hpos (by omega)]
  exact Nat.mod_lt _ hpos

/-! ### Inverse roots against each other (R167) -/

section Orthogonality

variable {F : Type*} [Field F] {x y : F} {n : Nat} (hx : IsPrimitiveRoot x n) (hxy : x * y = 1)
include hx hxy

theorem sum_pow_mul_pow (i k : Nat) :
    ∑ m ∈ Finset.range n, x ^ (i * m) * y ^ (m * k) = if i % n = k % n then (n : F) else 0 := by
  rcases n.eq_zero_or_pos with rfl | hn
  · simp
  have hfin : IsOfFinOrder x := hx.isOfFinOrder hn.ne'
  have hterm (m : Nat) : x ^ (i * m) * y ^ (m * k) = (x ^ i * y ^ k) ^ m := by
    rw [mul_pow, pow_mul, pow_mul' y]
  have hinv : x ^ k * y ^ k = 1 := by rw [← mul_pow, hxy, one_pow]
  have hone : x ^ i * y ^ k = 1 ↔ i % n = k % n := by
    rw [← hinv, mul_left_inj' (right_ne_zero_of_mul_eq_one hinv), hfin.pow_eq_pow_iff_modEq, ← hx.eq_orderOf, Nat.ModEq]
  simp only [hterm]
  split_ifs with heq
  · simp [hone.2 heq]
  · have hgeom := geom_sum_mul (x ^ i * y ^ k) n
    have hroot : (x ^ i * y ^ k) ^ n = 1 := by
      have hyroot : y ^ n = 1 := by simpa [mul_pow, hx.pow_eq_one] using congrArg (· ^ n) hxy
      rw [mul_pow, pow_right_comm, hx.pow_eq_one, one_pow, one_mul, pow_right_comm, hyroot, one_pow]
    rw [hroot, sub_self] at hgeom
    exact (mul_eq_zero.1 hgeom).resolve_right (sub_ne_zero.2 (mt hone.1 heq))

/-- A transform with one root and then with the other multiplies every element by the length. -/
theorem sum_sum_pow (f : Nat → F) {i : Nat} (hi : i < n) :
    ∑ m ∈ Finset.range n, (∑ j ∈ Finset.range n, f j * x ^ (j * m)) * y ^ (m * i) = n * f i := by
  calc ∑ m ∈ Finset.range n, (∑ j ∈ Finset.range n, f j * x ^ (j * m)) * y ^ (m * i)
      = ∑ j ∈ Finset.range n, f j * ∑ m ∈ Finset.range n, x ^ (j * m) * y ^ (m * i) := by
        simp only [Finset.sum_mul, Finset.mul_sum, mul_assoc]
        exact Finset.sum_comm
    _ = ∑ j ∈ Finset.range n, if j = i then n * f j else 0 := by
        refine Finset.sum_congr rfl fun j hj => ?_
        rw [sum_pow_mul_pow hx hxy, Nat.mod_eq_of_lt (Finset.mem_range.1 hj), Nat.mod_eq_of_lt hi, mul_ite, mul_zero,
          mul_comm]
    _ = n * f i := by simp [hi]

/-- The products of two transforms, transformed back, are `n` times the cyclic convolution. -/
theorem sum_mul_sum_pow (f g : Nat → F) {k : Nat} (hk : k < n) :
    ∑ m ∈ Finset.range n,
        (∑ i ∈ Finset.range n, f i * x ^ (i * m)) * (∑ j ∈ Finset.range n, g j * x ^ (j * m)) * y ^ (m * k)
      = n * ∑ i ∈ Finset.range n, ∑ j ∈ Finset.range n, if (i + j) % n = k then f i * g j else 0 := by
  have hterm (m i j : Nat) : f i * x ^ (i * m) * (g j * x ^ (j * m)) * y ^ (m * k)
      = f i * g j * (x ^ ((i + j) * m) * y ^ (m * k)) := by rw [add_mul, pow_add]; ring
  simp only [Finset.sum_mul_sum]
  simp only [Finset.sum_mul, Finset.mul_sum, hterm]
  rw [Finset.sum_comm]
  refine Finset.sum_congr rfl fun i _ => ?_
  rw [Finset.sum_comm]
  refine Finset.sum_congr rfl fun j _ => ?_
  rw [← Finset.mul_sum, sum_pow_mul_pow hx hxy, Nat.mod_eq_of_lt hk, mul_ite, mul_ite, mul_zero, mul_zero,
    mul_comm (f i * g j)]

end Orthogonality

section Transforms

variable {p x y n : Nat} [Fact p.Prime] (hx : IsPrimitiveRoot (x : ZMod p) n) (hxy : (x : ZMod p) * y = 1)
include hx hxy

theorem dftAt_dftAt (f : Nat → Nat) {i : Nat} (hi : i < n) : dftAt p y n (dftAt p x n f) i = n * f i % p := by
  refine (ZMod.natCast_eq_natCast_iff' _ _ p).1 ?_
  push_cast [cast_dftAt]
  exact sum_sum_pow hx hxy _ hi

/-- The convolution theorem (R162). -/
theorem dftAt_pointwise {ninv : Nat} (hninv : n * ninv % p = 1) (f g : Nat → Nat) {k : Nat} (hk : k < n) :
    dftAt p y n (Rules.pointwise p ninv (dftAt p x n f) (dftAt p x n g)) k = Rules.cyclic p n f g k := by
  have hone : (n : ZMod p) * ninv = 1 := by
    rw [← Nat.cast_mul, ← ZMod.natCast_mod, hninv, Nat.cast_one]
  refine (ZMod.natCast_eq_natCast_iff' _ _ p).1 ?_
  have hsum := sum_mul_sum_pow hx hxy (fun i => (f i : ZMod p)) (fun j => (g j : ZMod p)) hk
  push_cast [cast_dftAt, Rules.pointwise, ZMod.natCast_mod]
  simp only [mul_right_comm _ (ninv : ZMod p)]
  rw [← Finset.sum_mul, hsum, mul_right_comm, hone, one_mul]

end Transforms

end Sys2Proof.Machine
end

section
/-! Units 7, 8 and 9, number-theoretic transform (45_ntt.md R150 to R165): each meaning's checks against the lines of its
rule, and the residues it leaves, which are those of the integers behind the words. -/

namespace Sys2Proof.Machine

open Sys2Proof

/-! ### The elements of an array (R150) -/

theorem residues_eq (s : State) (a : ArrayOperand) : s.residues a = (List.range a.len).map (s.element a) :=
  List.ext_getElem (by simp) fun i _ _ => by simp [State.residues, State.words, State.dataList_getElem, State.element]

/-- A word written to an array is the one read back at its place. -/
theorem data_setWords {s : State} {a : ArrayOperand} {l : List Word} {i : Nat} (hi : i < l.length) :
    (s.setWords a l).data (a.base.toNat + i) = l[i] :=
  State.setData_data_inside s l a.base.toNat hi

/-- Residues written to an array are read back. -/
theorem element_setResidues {s : State} {a : ArrayOperand} {f : Nat → Nat} {n i : Nat} (hi : i < n)
    (hf : f i < 2 ^ 64) : (s.setResidues a ((List.range n).map f)).element a i = f i := by
  rw [State.element, State.setResidues, data_setWords (by simpa using hi)]
  simpa using Nat.mod_eq_of_lt hf

/-- What a command leaves that writes residues to one array. -/
theorem completes_residues (s : State) (a : ArrayOperand) {f : Nat → Nat} {m : Nat} (hm : m ≤ 2 ^ 64)
    (hf : ∀ i, f i < m) :
    let t := (s.setResidues a ((List.range a.len).map f)).advance
    s.Completes t [] [a] ∧ ∀ i < a.len, t.element a i = f i :=
  ⟨completes_words a _ (by simp), fun i hi => element_setResidues hi ((hf i).trans_le hm)⟩

/-- What a command leaves that writes residues to two arrays that lie apart. -/
theorem completes_residues_residues (s : State) {a b : ArrayOperand} {f g : Nat → Nat} {m : Nat} (hm : m ≤ 2 ^ 64)
    (hf : ∀ i, f i < m) (hg : ∀ i, g i < m) (hab : a.Apart b) :
    let t := ((s.setResidues a ((List.range a.len).map f)).setResidues b ((List.range b.len).map g)).advance
    s.Completes t [] [a, b] ∧ (∀ i < a.len, t.element a i = f i) ∧ ∀ i < b.len, t.element b i = g i := by
  intro t
  have houtside (x : Nat) (hx : ¬b.Holds x) : t.data x = (s.setResidues a ((List.range a.len).map f)).data x :=
    State.setData_data_outside _ _ (by simp only [List.length_map, List.length_range]; omega)
  obtain ⟨hcompletes, helement⟩ := completes_residues s a hm hf
  refine ⟨⟨rfl, fun _ _ => rfl, fun x hx => ?_, fun _ => rfl, rfl, rfl, rfl, rfl, rfl⟩, fun i hi => ?_,
    fun i hi => element_setResidues hi ((hg i).trans_le hm)⟩
  · obtain ⟨ha, hb⟩ : ¬a.Holds x ∧ ¬b.Holds x := by simpa using hx
    exact (houtside x hb).trans (hcompletes.data x (by simpa using ha))
  · rw [State.element, houtside _ (by omega)]
    exact helement i hi

/-- Some element of an array lies below the bound, so the bound is not 0. -/
theorem State.WordsBelow.bound_pos {s : State} {a : ArrayOperand} {m : Nat} (h : s.WordsBelow m a) (hlen : 0 < a.len) :
    0 < m :=
  Nat.zero_lt_of_lt (h 0 hlen)

/-! ### NTTSTG (R152) -/

theorem exec_nttstg {pi : BitVec 2} (hpi : pi ≠ 3) (ra re rf : Reg) (inv : Bool) (s : State) :
    let p := s.cfg.prime pi
    let n := (s.reg re).toNat
    let a : ArrayOperand := ⟨s.reg ra, n⟩
    let k := log2? s.cfg.maxNttLog2 n
    let r := if inv then inverseRoot s.cfg pi n else forwardRoot s.cfg pi n
    exec (.nttstg ra re rf pi inv) s =
      command s (checkLen (k.isSome && decide (2 ≤ n)) <|> s.checkAddr a <|> checkBelow (s.reg rf) (k.getD 0)
        <|> s.checkWords p a) fun _ => s.setResidues a (nttStage p r (s.reg rf).toNat (s.residues a)) :=
  exec_legal rfl fun h => hpi (Option.some.inj h)

theorem butterfly_lt {p : Nat} (hp : 0 < p) (r s : Nat) (l : List Nat) (i : Nat) : butterfly p r s l i < p := by
  simp only [butterfly]
  split <;> exact Nat.mod_lt _ hp

theorem nttStage_residues (p r stage : Nat) (s : State) (a : ArrayOperand) :
    nttStage p r stage (s.residues a)
      = (List.range a.len).map (butterfly p r stage ((List.range a.len).map (s.element a))) := by
  rw [nttStage, residues_length, residues_eq]

/-- Settles O30: the stage's blocks divide the length, so both elements of a butterfly lie in one block inside the array. -/
theorem nttstgObeysItsRule : Obligations.Nttstg_obeys_its_rule := by
  intro s ra re rf pi inv hpi hp
  have hlen : ((log2? s.cfg.maxNttLog2 (s.reg re).toNat).isSome && decide (2 ≤ (s.reg re).toNat)) = true
      ↔ 2 ≤ (s.reg re).toNat ∧ s.cfg.Pow2Length (s.reg re).toNat := by
    rw [Bool.and_eq_true, log2?_isSome_iff, decide_eq_true_iff, and_comm]
  refine
    obeys_unless (exec_nttstg hpi ra re rf inv s) hlen fun ⟨htwo, hpow⟩ h =>
    obeys_unless h decide_eq_true_iff fun _ h =>
    obeys_unless h (decide_eq_true_iff.trans (by rw [log2?_getD hpow])) fun hstage h =>
    obeys_words (command_last h) fun hw h => ?_
  have hpos : 0 < s.cfg.prime pi := hw.bound_pos (Nat.zero_lt_of_lt htwo)
  rw [nttStage_residues, forwardRoot_eq hpos hp.le, inverseRoot_eq hpos hp.le] at h
  obtain ⟨hc, helement⟩ := completes_residues s ⟨s.reg ra, (s.reg re).toNat⟩ hp.le (butterfly_lt hpos _ _ _)
  refine obeys_nil h ⟨hc, fun q j hq hj => ?_⟩
  have hend := block_end_le (two_pow_dvd_of_lt_log2 hpow hstage) hq
  constructor
  · rw [helement _ (by dsimp only; omega)]
    exact butterfly_sum hend hj _ _ _
  · rw [helement _ (by dsimp only; omega)]
    exact butterfly_difference hend hj (s.reg re).isLt.le _ hw

/-! ### NTTREV (R154) -/

theorem exec_nttrev (ra re : Reg) (s : State) :
    let n := (s.reg re).toNat
    let a : ArrayOperand := ⟨s.reg ra, n⟩
    let k := log2? s.cfg.maxNttLog2 n
    exec (.nttrev ra re) s = command s (checkLen k.isSome <|> s.checkAddr a) fun _ =>
      s.setWords a (bitReversed (k.getD 0) (s.words a)) := rfl

/-- Settles O31: the word at `r` is that of the place whose bits are those of `r` read backwards. -/
theorem nttrevObeysItsRule : Obligations.Nttrev_obeys_its_rule := fun s ra re =>
  obeys_unless (exec_nttrev ra re s) log2?_isSome_iff fun hpow h =>
  obeys_unless (command_last h) decide_eq_true_iff fun _ h => by
    rw [log2?_getD hpow] at h
    refine obeys_nil h ⟨completes_words _ _ (by simp), fun k i r hk hi hr hbits => ?_⟩
    have hlog : (s.reg re).toNat.log2 = k := by rw [hk, Nat.log2_two_pow]
    have hrev : bitReverse k r = i := bitReverse_eq_of_testBit (hk ▸ hi) hbits
    subst hrev
    rw [hlog, State.advance_data]
    refine (data_setWords (by simpa using hr)).trans ?_
    rw [bitReversed_getElem _ (by simpa using hi)]
    exact State.dataList_getElem ..

/-! ### NTTFWD and NTTINV (R156, R157) -/

theorem exec_nttfwd {pi : BitVec 2} (hpi : pi ≠ 3) (ra re : Reg) (s : State) :
    let p := s.cfg.prime pi
    let n := (s.reg re).toNat
    let a : ArrayOperand := ⟨s.reg ra, n⟩
    exec (.nttfwd ra re pi) s =
      command s (checkLen (validLength s.cfg.maxNttLog2 n) <|> s.checkAddr a <|> s.checkWords p a
        <|> s.checkScratch .nttfwd [n] [a]) fun _ =>
      s.setResidues a (dft p (forwardRoot s.cfg pi n) (s.residues a)) :=
  exec_legal rfl fun h => hpi (Option.some.inj h)

theorem exec_nttinv {pi : BitVec 2} (hpi : pi ≠ 3) (ra re : Reg) (s : State) :
    let p := s.cfg.prime pi
    let n := (s.reg re).toNat
    let a : ArrayOperand := ⟨s.reg ra, n⟩
    exec (.nttinv ra re pi) s =
      command s (checkLen (validLength s.cfg.maxNttLog2 n) <|> s.checkAddr a <|> s.checkWords p a
        <|> s.checkScratch .nttinv [n] [a]) fun _ =>
      s.setResidues a (dft p (inverseRoot s.cfg pi n) (s.residues a)) :=
  exec_legal rfl fun h => hpi (Option.some.inj h)

theorem dft_residues {p n : Nat} (hp : 0 < p) (hn : n ≤ 2 ^ 64) (r : Nat) (s : State) (b : Word) :
    dft p r (s.residues ⟨b, n⟩) = (List.range n).map (dftAt p r n (s.element ⟨b, n⟩)) := by
  rw [residues_eq, dft_range hp hn]

/-- A transform in place obeys its rule when its root is the rule's. -/
theorem obeys_transform {s : State} {i : Instr} {ra re : Reg} {pi : BitVec 2} {user : Config.ScratchUser}
    {root root' : Nat → Nat} (hp : s.cfg.prime pi ≤ 2 ^ 64)
    (h : let n := (s.reg re).toNat
      let a : ArrayOperand := ⟨s.reg ra, n⟩
      exec i s =
        command s (checkLen (validLength s.cfg.maxNttLog2 n) <|> s.checkAddr a <|> s.checkWords (s.cfg.prime pi) a
          <|> s.checkScratch user [n] [a]) fun _ =>
        s.setResidues a (dft (s.cfg.prime pi) (root' n) (s.residues a)))
    (hroot : ∀ n, 0 < s.cfg.prime pi → root' n = root n) :
    s.ObeysRule i (Rules.transform s ra re pi user root) :=
  obeys_unless h validLength_iff fun hn h =>
  obeys_unless h decide_eq_true_iff fun _ h =>
  obeys_words h fun hw h =>
  obeys_scratch (command_last h) fun _ h => by
    have hpos : 0 < s.cfg.prime pi := hw.bound_pos (validLength_pos hn)
    rw [hroot _ hpos, dft_residues hpos (s.reg re).isLt.le] at h
    exact obeys_nil h (completes_residues s _ hp (dftAt_lt hpos _ _ _))

/-- Settles O32: Horner's evaluations are the sums of R155, and the model's roots those of R153. -/
theorem nttfwdNttinvObeyTheirRules : Obligations.Nttfwd_nttinv_obey_their_rules := fun s ra re _ hpi hp =>
  ⟨obeys_transform hp.le (exec_nttfwd hpi ra re s) fun n hpos => forwardRoot_eq hpos hp.le n,
    obeys_transform hp.le (exec_nttinv hpi ra re s) fun n hpos => inverseRoot_eq hpos hp.le n⟩

/-! ### NTTCONV and NTTACONV (R162, R163) -/

theorem exec_nttconv {pi : BitVec 2} (hpi : pi ≠ 3) (ra rb re : Reg) (s : State) :
    let p := s.cfg.prime pi
    let n := (s.reg re).toNat
    let c1 : ArrayOperand := ⟨s.reg ra, n⟩
    let c2 : ArrayOperand := ⟨s.reg rb, n⟩
    let t1 := dft p (forwardRoot s.cfg pi n) (s.residues c1)
    let t2 := dft p (forwardRoot s.cfg pi n) (s.residues c2)
    exec (.nttconv ra rb re pi) s =
      command s (checkLen (validLength s.cfg.maxNttLog2 n) <|> s.checkAddrs [c1, c2] <|> checkStrict c1 c2
        <|> s.checkWords p c1 <|> s.checkWords p c2 <|> s.checkScratch .nttconv [n] [c1, c2]) fun _ =>
      (s.setResidues c1 (dft p (inverseRoot s.cfg pi n) (pointwise p (invMod n p) t1 t2))).setResidues c2 t2 :=
  exec_legal rfl fun h => hpi (Option.some.inj h)

theorem exec_nttaconv {pi : BitVec 2} (hpi : pi ≠ 3) (ra re : Reg) (s : State) :
    let p := s.cfg.prime pi
    let n := (s.reg re).toNat
    let a : ArrayOperand := ⟨s.reg ra, n⟩
    let t1 := dft p (forwardRoot s.cfg pi n) (s.residues a)
    exec (.nttaconv ra re pi) s =
      command s (checkLen (validLength s.cfg.maxNttLog2 n) <|> s.checkAddr a <|> s.checkWords p a
        <|> s.checkScratch .nttaconv [n] [a]) fun _ =>
      s.setResidues a (dft p (inverseRoot s.cfg pi n) (pointwise p (invMod n p) t1 t1)) :=
  exec_legal rfl fun h => hpi (Option.some.inj h)

/-- What NTTCONV and NTTACONV write to `c1`, as the sums of R162. -/
theorem dft_pointwise_residues {c : Config} {pi : BitVec 2} (hpos : 0 < c.prime pi) (hp : c.prime pi ≤ 2 ^ 64)
    {n : Nat} (hn : n ≤ 2 ^ 64) (ninv : Nat) (s : State) (b1 b2 : Word) :
    let p := c.prime pi
    let r := forwardRoot c pi n
    dft p (inverseRoot c pi n) (pointwise p ninv (dft p r (s.residues ⟨b1, n⟩)) (dft p r (s.residues ⟨b2, n⟩)))
      = (List.range n).map (dftAt p (c.omegaInv pi n) n (Rules.pointwise p ninv
          (dftAt p (c.omega pi n) n (s.element ⟨b1, n⟩)) (dftAt p (c.omega pi n) n (s.element ⟨b2, n⟩)))) := by
  intro p r
  rw [dft_residues hpos hn, dft_residues hpos hn, pointwise_range, dft_range hpos hn, inverseRoot_eq hpos hp]
  simp only [r, forwardRoot_eq hpos hp, p]

/-- Settles O33: the transforms are those of O32, and Fermat's inverse of the length is the `ninv` of R162. -/
theorem nttconvNttaconvObeyTheirRules : Obligations.Nttconv_nttaconv_obey_their_rules := by
  intro s ra rb re pi hpi hlegal
  have hprime := hlegal.legalPrime pi
  have hpos : 0 < s.cfg.prime pi := hprime.prime.pos
  have hp : s.cfg.prime pi ≤ 2 ^ 64 := hprime.is_word.le
  have hword : (s.reg re).toNat ≤ 2 ^ 64 := (s.reg re).isLt.le
  have hninv (hn : s.cfg.ValidLength (s.reg re).toNat) :
      (s.reg re).toNat * invMod (s.reg re).toNat (s.cfg.prime pi) % s.cfg.prime pi = 1 :=
    mul_invMod hprime.prime hp (validLength_pos hn) (hlegal.length_lt pi hn)
  constructor
  · refine
      obeys_unless (exec_nttconv hpi ra rb re s) validLength_iff fun hn h =>
      obeys_range h fun _ h =>
      obeys_strict h fun hapart h =>
      obeys_words h fun _ h =>
      obeys_words h fun _ h =>
      obeys_scratch (command_last h) fun _ h => ?_
    rw [dft_pointwise_residues hpos hp hword, forwardRoot_eq hpos hp, dft_residues hpos hword] at h
    obtain ⟨hc, h1, h2⟩ := completes_residues_residues s hp (dftAt_lt hpos _ _ _) (dftAt_lt hpos _ _ _) hapart
    exact obeys_nil h ⟨hc, _, invMod_lt hpos hp _, hninv hn, fun k hk => ⟨h1 k hk, h2 k hk⟩⟩
  · refine
      obeys_unless (exec_nttaconv hpi ra re s) validLength_iff fun hn h =>
      obeys_unless h decide_eq_true_iff fun _ h =>
      obeys_words h fun _ h =>
      obeys_scratch (command_last h) fun _ h => ?_
    rw [dft_pointwise_residues hpos hp hword] at h
    obtain ⟨hc, h1⟩ := completes_residues s ⟨s.reg ra, (s.reg re).toNat⟩ hp (dftAt_lt hpos _ _ _)
    exact obeys_nil h ⟨hc, _, invMod_lt hpos hp _, hninv hn, h1⟩

/-! ### NTTLEN (R165) -/

theorem exec_nttlen (rd ra : Reg) (s : State) :
    let rsize := (s.reg ra).toNat
    let length := (selectLength s.cfg rsize).getD 0
    exec (.nttlen rd ra) s =
      command s (checkLen (rsize != 0) <|> checkLen (selectLength s.cfg rsize).isSome) fun _ =>
      s.setReg rd (if length < 2 ^ 64 then Word.ofNat length else s.cfg.overlongLength rsize) := rfl

/-- At or below the crossover the length is the smallest power of two, which is a word. -/
theorem selectLength_pow2 {c : Config} {r : Nat} (hc : c.nttPow2Crossover ≤ 2 ^ 63) (hr : r ≤ c.nttPow2Crossover) :
    ∃ m, selectLength c r = some m ∧ m < 2 ^ 64 ∧ r ≤ m ∧ (∃ k, m = 2 ^ k) ∧ ∀ k, r ≤ 2 ^ k → m ≤ 2 ^ k := by
  have htop : 2 ^ 63 ∈ pow2Lengths 64 := mem_pow2Lengths.2 ⟨63, by decide, rfl⟩
  obtain ⟨m, hm⟩ := Option.isSome_iff_exists.1 (leastFrom_isSome_iff.2 ⟨_, htop, hr.trans hc⟩)
  obtain ⟨⟨hmem, hrm⟩, hleast⟩ := leastFrom_eq_some_iff.1 hm
  have hword : m ≤ 2 ^ 63 := hleast _ htop (hr.trans hc)
  obtain ⟨e, -, he⟩ := mem_pow2Lengths.1 hmem
  refine ⟨m, by rw [selectLength, if_pos hr, hm], by omega, hrm, ⟨e, he⟩, fun k hk => ?_⟩
  rcases Nat.le_total k 64 with hle | hge
  · exact hleast _ (mem_pow2Lengths.2 ⟨k, hle, rfl⟩) hk
  · have hbig : 2 ^ 64 ≤ 2 ^ k := Nat.pow_le_pow_right (by decide) hge
    omega

/-- Above the crossover the length is the smallest member of `S`. -/
theorem selectLength_above {c : Config} {r : Nat} (hr : c.nttPow2Crossover < r) :
    selectLength c r = leastFrom r (transformLengths c.maxNttLog2) := if_neg (Nat.not_le.2 hr)

theorem selectLength_isSome_iff {c : Config} {r : Nat} (hc : c.nttPow2Crossover ≤ 2 ^ 63) :
    (selectLength c r).isSome = true ↔ r ≤ c.nttPow2Crossover ∨ c.HasLengthFrom r := by
  rcases Nat.lt_or_ge c.nttPow2Crossover r with hr | hr
  · rw [selectLength_above hr, leastFrom_isSome_iff, hasLengthFrom_iff, or_iff_right (Nat.not_le.2 hr)]
    simp only [mem_transformLengths]
  · obtain ⟨m, hm, -⟩ := selectLength_pow2 hc hr
    simp [hm, hr]

theorem validLength_le {c : Config} {n : Nat} (h : c.ValidLength n) : n ≤ 3 * 2 ^ c.maxNttLog2 := by
  obtain ⟨k, hk, hn⟩ := h
  have hpow : 2 ^ k ≤ 2 ^ c.maxNttLog2 := Nat.pow_le_pow_right (by decide) (Nat.lt_succ_iff.1 (List.mem_range.1 hk))
  omega

/-- Settles O34: what is selected is the least length of its set, and a word. -/
theorem nttlenObeysItsRule : Obligations.Nttlen_obeys_its_rule := fun s rd ra hc hS =>
  obeys_unless (exec_nttlen rd ra s) bne_iff_ne fun _ h =>
  obeys_unless (command_last h) (selectLength_isSome_iff hc) fun hsome h => by
    have hreg {m : Nat} (hsel : selectLength s.cfg (s.reg ra).toNat = some m) (hm : m < 2 ^ 64) :
        s.Obeys (.nttlen rd ra) (fun t => s.Completes t [rd] [] ∧ (t.reg rd).toNat = m) [] := by
      rw [hsel, Option.getD_some, if_pos hm] at h
      refine obeys_nil h ⟨completes_setReg rd _, ?_⟩
      rw [State.advance_reg, State.setReg_reg_self, toNat_ofNat_of_residue hm le_rfl]
    rcases Nat.lt_or_ge s.cfg.nttPow2Crossover (s.reg ra).toNat with hr | hr
    · obtain ⟨m, hsel⟩ := Option.isSome_iff_exists.1 ((selectLength_isSome_iff hc).2 hsome)
      obtain ⟨⟨hmem, hrm⟩, hleast⟩ := leastFrom_eq_some_iff.1 (selectLength_above hr ▸ hsel)
      rw [mem_transformLengths] at hmem
      obtain ⟨t, ht, hcompletes, rfl⟩ := hreg hsel ((validLength_le hmem).trans_lt hS)
      exact ⟨t, ht, hcompletes, hrm, fun hle => absurd hle (Nat.not_le.2 hr),
        fun _ => ⟨hmem, fun l hl => hleast l (mem_transformLengths.2 hl)⟩⟩
    · obtain ⟨m, hsel, hm, hrm, hpow, hleast⟩ := selectLength_pow2 hc hr
      obtain ⟨t, ht, hcompletes, rfl⟩ := hreg hsel hm
      exact ⟨t, ht, hcompletes, hrm, fun _ => ⟨hpow, hleast⟩, fun hlt => absurd hlt (Nat.not_lt.2 hr)⟩

end Sys2Proof.Machine
end

section
/-! The laws of the transform commands (45_ntt.md R156, R157, R162, R163, R167), derived from their rules and from the
roots alone: a transform undone, the convolution theorem, and the fast transform, whose stages split each block of the
array into the transforms of its even and its odd places. -/

namespace Sys2Proof.Machine

open Sys2Proof

/-! ### A transform that completes -/

/-- The operands of a transform: `ra` and `re` name the array `a`, which lies inside `M` and holds residues, on a machine
with parameters `c`. -/
structure State.TransformOperands (s : State) (c : Config) (ra re : Reg) (pi : BitVec 2) (a : ArrayOperand) : Prop where
  cfg : s.cfg = c
  base : s.reg ra = a.base
  len : (s.reg re).toNat = a.len
  fits : a.Fits s
  below : s.WordsBelow (c.prime pi) a

section Operands

variable {s t : State} {c : Config} {ra re : Reg} {pi : BitVec 2} {a : ArrayOperand}

/-- A command that leaves residues in the array leaves operands of a transform. -/
theorem State.TransformOperands.of_completes (h : s.TransformOperands c ra re pi a) {arrays : List ArrayOperand}
    (ht : s.Completes t [] arrays) (hlt : ∀ i < a.len, t.element a i < c.prime pi) :
    t.TransformOperands c ra re pi a where
  cfg := ht.cfg.trans h.cfg
  base := (ht.regs ra List.not_mem_nil).trans h.base
  len := by rw [ht.regs re List.not_mem_nil, h.len]
  fits := by rw [ArrayOperand.Fits, ht.cfg]; exact h.fits
  below := hlt

theorem State.TransformOperands.setReg (h : s.TransformOperands c ra re pi a) {r : Reg} (hra : r ≠ ra) (hre : r ≠ re)
    (v : Word) : (s.setReg r v).TransformOperands c ra re pi a where
  cfg := h.cfg
  base := (State.setReg_reg_ne _ _ hra.symm).trans h.base
  len := by rw [State.setReg_reg_ne _ _ hre.symm, h.len]
  fits := h.fits
  below := h.below

theorem dftAt_congr {p r n : Nat} {f g : Nat → Nat} (h : ∀ j < n, f j = g j) : dftAt p r n f = dftAt p r n g := by
  funext k
  rw [dftAt, dftAt, Finset.sum_congr rfl fun j hj => by rw [h j (Finset.mem_range.1 hj)]]

/-- A command that obeys the rule of a transform in place, in every state, with the root that the parameters give. -/
def IsTransform (i : Instr) (ra re : Reg) (pi : BitVec 2) (user : Config.ScratchUser) (root : Config → Nat → Nat) :
    Prop :=
  ∀ s : State, s.cfg.prime pi < 2 ^ 64 → s.ObeysRule i (Rules.transform s ra re pi user (root s.cfg))

theorem isTransform_nttfwd (hpi : pi ≠ 3) :
    IsTransform (.nttfwd ra re pi) ra re pi .nttfwd fun c => c.omega pi :=
  fun s hp => (nttfwdNttinvObeyTheirRules s ra re pi hpi hp).1

theorem isTransform_nttinv (hpi : pi ≠ 3) :
    IsTransform (.nttinv ra re pi) ra re pi .nttinv fun c => c.omegaInv pi :=
  fun s hp => (nttfwdNttinvObeyTheirRules s ra re pi hpi hp).2

/-- The checks of a transform in place, which are those of NTTACONV too. -/
theorem transform_checks_pass {user : Config.ScratchUser} (root : Nat → Nat) (hn : s.cfg.ValidLength (s.reg re).toNat)
    (hfits : ArrayOperand.Fits ⟨s.reg ra, (s.reg re).toNat⟩ s)
    (hbelow : s.WordsBelow (s.cfg.prime pi) ⟨s.reg ra, (s.reg re).toNat⟩)
    (hscratch : scratchShort s.cfg user [(s.reg re).toNat] = false) :
    ∀ c ∈ (Rules.transform s ra re pi user root).checks, c.Passes s := by
  simp only [Rules.transform, State.rangeChecks, List.map_cons, List.map_nil, List.cons_append, List.nil_append,
    List.forall_mem_cons]
  exact ⟨hn, hfits, hbelow, hscratch, List.forall_mem_nil _⟩

/-- A transform that has its operands and its scratch completes, and leaves operands of a transform. -/
theorem IsTransform.completes {i : Instr} {user : Config.ScratchUser} {root : Config → Nat → Nat}
    (hi : IsTransform i ra re pi user root) (h : s.TransformOperands c ra re pi a) (hc : c.Legal)
    (hn : c.ValidLength a.len) (hs : scratchShort c user [a.len] = false) :
    ∃ t, exec i s = .next t ∧ t.TransformOperands c ra re pi a
      ∧ ∀ k < a.len, t.element a k = dftAt (c.prime pi) (root c a.len) a.len (s.element a) k := by
  have hp := hc.legalPrime pi
  obtain rfl := h.cfg
  obtain rfl : a = ⟨s.reg ra, (s.reg re).toNat⟩ := by rw [h.base, h.len]
  obtain ⟨t, ht, hcompletes, helement⟩ := (hi s hp.is_word).completes (transform_checks_pass _ hn h.fits h.below hs)
  refine ⟨t, ht, h.of_completes hcompletes fun k hk => ?_, helement⟩
  rw [helement k hk]
  exact dftAt_lt hp.prime.pos ..

/-- Two transforms in a row, the second with the inverse of the first one's root. -/
theorem IsTransform.then_inverse {i i' : Instr} {user user' : Config.ScratchUser} {root root' : Config → Nat → Nat}
    (hi : IsTransform i ra re pi user root) (hi' : IsTransform i' ra re pi user' root')
    (h : s.TransformOperands c ra re pi a) (hc : c.Legal) (hn : c.ValidLength a.len)
    (hs : scratchShort c user [a.len] = false) (hs' : scratchShort c user' [a.len] = false)
    (hprimitive : IsPrimitiveRoot (root c a.len : ZMod (c.prime pi)) a.len)
    (hinverse : (root c a.len : ZMod (c.prime pi)) * (root' c a.len : ZMod (c.prime pi)) = 1) :
    ∃ t x, exec i s = .next t ∧ exec i' t = .next x
      ∧ ∀ j < a.len, x.element a j = a.len * s.element a j % c.prime pi := by
  have := hc.fact_prime pi
  obtain ⟨t, ht, hoperands, htransform⟩ := hi.completes h hc hn hs
  obtain ⟨x, hx, -, hback⟩ := hi'.completes hoperands hc hn hs'
  refine ⟨t, x, ht, hx, fun j hj => ?_⟩
  rw [hback j hj, dftAt_congr htransform, dftAt_dftAt hprimitive hinverse _ hj]

end Operands

/-- Settles O35: the two roots are primitive and each other's inverse. -/
theorem inverseTransformMultipliesByTheLength : Obligations.Inverse_transform_multiplies_by_the_length := by
  intro s ra re pi hpi hlegal n a hn hfits hbelow hfwd hinv
  have hoperands : s.TransformOperands s.cfg ra re pi a := ⟨rfl, rfl, rfl, hfits, hbelow⟩
  have hinverse := hlegal.omega_mul_omegaInv pi n
  exact ⟨(isTransform_nttfwd hpi).then_inverse (isTransform_nttinv hpi) hoperands hlegal hn hfwd hinv
      (hlegal.isPrimitiveRoot_omega pi hn) hinverse,
    (isTransform_nttinv hpi).then_inverse (isTransform_nttfwd hpi) hoperands hlegal hn hinv hfwd
      (hlegal.isPrimitiveRoot_omegaInv pi hn) ((mul_comm ..).trans hinverse)⟩

/-! ### The convolution theorem (R162, R163) -/

/-- Settles O37: both commands complete by their rules (O33), and the products of the transforms, transformed back, are
the convolution. -/
theorem nttconvIsTheCyclicConvolution : Obligations.Nttconv_is_the_cyclic_convolution := by
  intro s ra re pi hpi hlegal p n c1 hn hfits hbelow
  have := hlegal.fact_prime pi
  have hprimitive := hlegal.isPrimitiveRoot_omega pi hn
  have hinverse := hlegal.omega_mul_omegaInv pi n
  refine ⟨fun rb hfits2 hapart hbelow2 hscratch => ?_, fun hscratch => ?_⟩
  · obtain ⟨t, ht, -, ninv, -, hninv, helement⟩ :=
      (nttconvNttaconvObeyTheirRules s ra rb re pi hpi hlegal).1.completes (by
        simp only [Rules.nttconv, State.rangeChecks, List.map_cons, List.map_nil, List.cons_append, List.nil_append,
          List.forall_mem_cons]
        exact ⟨hn, hfits, hfits2, hapart, hbelow, hbelow2, hscratch, List.forall_mem_nil _⟩)
    exact ⟨t, ht, fun k hk => (helement k hk).1.trans (dftAt_pointwise hprimitive hinverse hninv _ _ hk)⟩
  · obtain ⟨t, ht, -, ninv, -, hninv, helement⟩ :=
      (nttconvNttaconvObeyTheirRules s ra ra re pi hpi hlegal).2.completes
        (transform_checks_pass id hn hfits hbelow hscratch)
    exact ⟨t, ht, fun k hk => (helement k hk).trans (dftAt_pointwise hprimitive hinverse hninv _ _ hk)⟩

end Sys2Proof.Machine
end

section
/-! The fast transform (45_ntt.md R152, R154, R156): the butterfly stages in order and the bit reversal write the words of
the transform. After stage `s − 1` block `q` of the array holds `n / 2^s` values whose own transform, with the root
`r^(2^s)`, is the elements of the whole transform at the places `rev_s(q)` modulo `2^s`. -/

namespace Sys2Proof.Machine

open Sys2Proof

/-! ### One stage splits a transform -/

section Split

variable {F : Type*} [CommRing F]

/-- The even places of a block's transform are the transform of the sums. -/
theorem sum_block_even {w : F} {h : Nat} (hw : w ^ h = -1) (f : Nat → F) (m : Nat) :
    ∑ j ∈ Finset.range (h + h), f j * w ^ (j * (2 * m))
      = ∑ j ∈ Finset.range h, (f j + f (j + h)) * (w ^ 2) ^ (j * m) := by
  have hfull : (w ^ h) ^ (2 * m) = 1 := by rw [hw, pow_mul, neg_one_sq, one_pow]
  rw [Finset.sum_range_add, ← Finset.sum_add_distrib]
  refine Finset.sum_congr rfl fun j _ => ?_
  have hlow : w ^ (j * (2 * m)) = (w ^ 2) ^ (j * m) := by rw [← pow_mul, Nat.mul_left_comm]
  have hhigh : w ^ ((h + j) * (2 * m)) = (w ^ 2) ^ (j * m) := by
    rw [Nat.add_mul, pow_add, pow_mul w h, hfull, one_mul, hlow]
  rw [hlow, hhigh, Nat.add_comm h, add_mul]

/-- The odd places are the transform of the differences times the twiddles. -/
theorem sum_block_odd {w : F} {h : Nat} (hw : w ^ h = -1) (f : Nat → F) (m : Nat) :
    ∑ j ∈ Finset.range (h + h), f j * w ^ (j * (2 * m + 1))
      = ∑ j ∈ Finset.range h, (f j - f (j + h)) * w ^ j * (w ^ 2) ^ (j * m) := by
  have htwiddle (j : Nat) : w ^ (j * (2 * m + 1)) = w ^ j * w ^ (j * (2 * m)) := by
    rw [← pow_add, Nat.mul_add_one, Nat.add_comm]
  have hsign (j : Nat) : w ^ (h + j) = -w ^ j := by rw [pow_add, hw, neg_one_mul]
  calc ∑ j ∈ Finset.range (h + h), f j * w ^ (j * (2 * m + 1))
      = ∑ j ∈ Finset.range (h + h), f j * w ^ j * w ^ (j * (2 * m)) := by simp only [htwiddle, mul_assoc]
    _ = ∑ j ∈ Finset.range h, (f j * w ^ j + f (j + h) * w ^ (j + h)) * (w ^ 2) ^ (j * m) :=
        sum_block_even hw (fun j => f j * w ^ j) m
    _ = ∑ j ∈ Finset.range h, (f j - f (j + h)) * w ^ j * (w ^ 2) ^ (j * m) := by
        simp only [Nat.add_comm _ h, hsign, mul_neg, ← sub_eq_add_neg, sub_mul]

/-- The array `f` of `n` values after the stages below `s` of a transform with root `r` and result `X`. -/
def AfterStages (r : F) (n s : Nat) (X f : Nat → F) : Prop :=
  ∀ q < 2 ^ s, ∀ m, X (m * 2 ^ s + bitReverse s q)
    = ∑ j ∈ Finset.range (n / 2 ^ s), f (q * (n / 2 ^ s) + j) * (r ^ 2 ^ s) ^ (j * m)

variable {r : F} {n s : Nat} {X f g : Nat → F}

/-- Before the first stage the array holds the operand. -/
theorem afterStages_zero (hX : ∀ m, X m = ∑ j ∈ Finset.range n, f j * r ^ (j * m)) : AfterStages r n 0 X f := by
  intro q hq m
  obtain rfl : q = 0 := by simpa using hq
  simp [bitReverse, hX]

/-- The butterflies of one stage, `f` before and `g` after. -/
def StageOf (r : F) (n s : Nat) (f g : Nat → F) : Prop :=
  ∀ q j, q < 2 ^ s → j < n / 2 ^ s / 2 →
    g (q * (n / 2 ^ s) + j) = f (q * (n / 2 ^ s) + j) + f (q * (n / 2 ^ s) + j + n / 2 ^ s / 2)
      ∧ g (q * (n / 2 ^ s) + j + n / 2 ^ s / 2)
          = (f (q * (n / 2 ^ s) + j) - f (q * (n / 2 ^ s) + j + n / 2 ^ s / 2)) * r ^ (j * 2 ^ s)

theorem AfterStages.succ (h : AfterStages r n s X f) (hstage : StageOf r n s f g) (hdvd : 2 ^ (s + 1) ∣ n)
    (hr : r ^ (n / 2) = -1) : AfterStages r n (s + 1) X g := by
  obtain ⟨half, rfl⟩ := hdvd
  have hnext : 2 ^ (s + 1) * half / 2 ^ (s + 1) = half := Nat.mul_div_cancel_left _ (by positivity)
  have hhalf : (half + half) / 2 = half := by omega
  have hw : (r ^ 2 ^ s) ^ half = -1 := by
    rw [← hr, ← pow_mul, pow_succ, Nat.mul_right_comm, Nat.mul_div_cancel _ (by decide)]
  have hsquare : r ^ 2 ^ (s + 1) = (r ^ 2 ^ s) ^ 2 := by rw [← pow_mul, pow_succ]
  unfold AfterStages StageOf at *
  rw [two_pow_succ_mul_div] at h
  rw [two_pow_succ_mul_div, hhalf] at hstage
  intro q hq m
  have hq' : q / 2 < 2 ^ s := by rw [pow_succ] at hq; omega
  have hplace : m * 2 ^ (s + 1) + bitReverse (s + 1) q = (2 * m + q % 2) * 2 ^ s + bitReverse s (q / 2) := by
    rw [bitReverse, pow_succ]; ring
  rw [hnext, hsquare, hplace, h _ hq']
  rcases Nat.mod_two_eq_zero_or_one q with hbit | hbit
  · have hindex (j : Nat) : q * half + j = q / 2 * (half + half) + j := by
      rw [← Nat.two_mul, ← Nat.mul_assoc, Nat.div_mul_cancel (Nat.dvd_of_mod_eq_zero hbit)]
    rw [hbit, Nat.add_zero, sum_block_even hw (fun j => f (q / 2 * (half + half) + j))]
    refine Finset.sum_congr rfl fun j hj => ?_
    rw [hindex, (hstage _ j hq' (Finset.mem_range.1 hj)).1, Nat.add_assoc]
  · have hindex (j : Nat) : q * half + j = q / 2 * (half + half) + j + half := by
      have hodd : q = q / 2 * 2 + 1 := by omega
      conv_lhs => rw [hodd]
      ring
    rw [hbit, sum_block_odd hw (fun j => f (q / 2 * (half + half) + j))]
    refine Finset.sum_congr rfl fun j hj => ?_
    rw [hindex, (hstage _ j hq' (Finset.mem_range.1 hj)).2, Nat.add_assoc, ← pow_mul r, Nat.mul_comm (2 ^ s)]

/-- After all stages the array is the transform, its places read backwards. -/
theorem AfterStages.last (h : AfterStages r n s X f) (hn : n = 2 ^ s) {q : Nat} (hq : q < 2 ^ s) :
    X (bitReverse s q) = f q := by
  simpa [hn] using h q hq 0

end Split

/-! ### The commands -/

section Fast

variable {s : State} {c : Config} {ra re rf : Reg} {pi : BitVec 2} {a : ArrayOperand} {inv : Bool} {k : Nat}

/-- The root of NTTSTG (R152). -/
def stageRoot (c : Config) (pi : BitVec 2) (inv : Bool) (n : Nat) : Nat :=
  if inv then c.omegaInv pi n else c.omega pi n

theorem isPrimitiveRoot_stageRoot (hc : c.Legal) (pi : BitVec 2) (inv : Bool) {n : Nat} (hn : c.ValidLength n) :
    IsPrimitiveRoot (stageRoot c pi inv n : ZMod (c.prime pi)) n := by
  cases inv
  · exact hc.isPrimitiveRoot_omega pi hn
  · exact hc.isPrimitiveRoot_omegaInv pi hn

/-- An array's elements in the ring of residues. -/
def State.residueAt (s : State) (p : Nat) (a : ArrayOperand) (i : Nat) : ZMod p := s.element a i

theorem words_eq_of_elements {s t : State} (h : ∀ i < a.len, s.element a i = t.element a i) : s.words a = t.words a :=
  State.dataList_congr fun i hi => BitVec.eq_of_toNat_eq (h i hi)

theorem cast_emod_sub {p : Nat} [NeZero p] (u v : Nat) :
    ((((u : Int) - v) % (p : Int)).toNat : ZMod p) = (u : ZMod p) - v := by
  have hnonneg : 0 ≤ ((u : Int) - v) % (p : Int) := Int.emod_nonneg _ (Int.natCast_ne_zero.2 (NeZero.ne p))
  rw [← Int.cast_natCast, Int.toNat_of_nonneg hnonneg, ZMod.intCast_mod]
  push_cast
  rfl

/-- Every place of the array is one of the two of a butterfly of the stage. -/
theorem exists_butterfly {n stage i : Nat} (hdvd : 2 ^ (stage + 1) ∣ n) (hi : i < n) :
    ∃ q j, q < 2 ^ stage ∧ j < n / 2 ^ stage / 2
      ∧ (i = q * (n / 2 ^ stage) + j ∨ i = q * (n / 2 ^ stage) + j + n / 2 ^ stage / 2) := by
  obtain ⟨half, rfl⟩ := hdvd
  have hpos : 0 < half := Nat.pos_of_ne_zero (by rintro rfl; simp at hi)
  have hq : i / (half + half) < 2 ^ stage := Nat.div_lt_of_lt_mul (hi.trans_eq (by ring))
  have hsplit := Nat.div_add_mod' i (half + half)
  have hlt : i % (half + half) < half + half := Nat.mod_lt _ (Nat.add_pos_left hpos _)
  rw [two_pow_succ_mul_div]
  rcases Nat.lt_or_ge (i % (half + half)) half with hlow | hhigh
  · exact ⟨_, i % (half + half), hq, by omega, .inl hsplit.symm⟩
  · exact ⟨_, i % (half + half) - half, hq, by omega, .inr (by omega)⟩

/-- NTTSTG on operands of a transform completes, does the butterflies of its stage, and leaves operands of a transform. -/
theorem nttstg_completes (hpi : pi ≠ 3) (hc : c.Legal) (h : s.TransformOperands c ra re pi a) (hlen : a.len = 2 ^ k)
    (hk : k ≤ c.maxNttLog2) (hstage : (s.reg rf).toNat < k) :
    ∃ t, exec (.nttstg ra re rf pi inv) s = .next t ∧ t.TransformOperands c ra re pi a
      ∧ StageOf (stageRoot c pi inv a.len : ZMod (c.prime pi)) a.len (s.reg rf).toNat (s.residueAt (c.prime pi) a)
          (t.residueAt (c.prime pi) a) := by
  obtain rfl := h.cfg
  obtain rfl : a = ⟨s.reg ra, (s.reg re).toNat⟩ := by rw [h.base, h.len]
  dsimp only at hlen
  have := hc.fact_prime pi
  have hp := hc.legalPrime pi
  have htwo : 2 ≤ (s.reg re).toNat := hlen ▸ Nat.le_self_pow (by omega) 2
  have hpow : s.cfg.Pow2Length (s.reg re).toNat := ⟨k, List.mem_range.2 (Nat.lt_succ_of_le hk), hlen⟩
  have hlog : (s.reg rf).toNat < (s.reg re).toNat.log2 := by rwa [hlen, Nat.log2_two_pow]
  have hdvd : 2 ^ ((s.reg rf).toNat + 1) ∣ (s.reg re).toNat := hlen ▸ pow_dvd_pow 2 hstage
  obtain ⟨t, ht, hcompletes, hbutterfly⟩ := (nttstgObeysItsRule s ra re rf pi inv hpi hp.is_word).completes (by
    simp only [Rules.nttstg, State.rangeChecks, List.map_cons, List.map_nil, List.cons_append, List.nil_append,
      List.forall_mem_cons]
    exact ⟨⟨htwo, hpow⟩, h.fits, hlog, h.below, List.forall_mem_nil _⟩)
  have hinside {q j : Nat} (hq : q < 2 ^ (s.reg rf).toNat)
      (hj : j < (s.reg re).toNat / 2 ^ (s.reg rf).toNat / 2) :
      q * ((s.reg re).toNat / 2 ^ (s.reg rf).toNat) < (s.reg re).toNat :=
    (Nat.mul_lt_mul_of_pos_right hq (by omega)).trans_le (Nat.mul_div_le _ _)
  refine ⟨t, ht, h.of_completes hcompletes fun i hi => ?_, fun q j hq hj => ?_⟩
  · obtain ⟨q, j, hq, hj, rfl | rfl⟩ := exists_butterfly hdvd hi
    · rw [(hbutterfly q j (hinside hq hj) hj).1]
      exact Nat.mod_lt _ hp.prime.pos
    · rw [(hbutterfly q j (hinside hq hj) hj).2]
      exact Nat.mod_lt _ hp.prime.pos
  · obtain ⟨hsum, hdifference⟩ := hbutterfly q j (hinside hq hj) hj
    simp only [State.residueAt, hsum, hdifference, ZMod.natCast_mod, Nat.cast_add, Nat.cast_mul, Nat.cast_pow,
      cast_emod_sub, stageRoot, and_self]

/-- The stages from `stage` up to `k`, each after the last. -/
theorem stages_complete (hpi : pi ≠ 3) (hc : c.Legal) (hlen : a.len = 2 ^ k) (hk : k ≤ c.maxNttLog2) (hra : rf ≠ ra)
    (hre : rf ≠ re) (hroot : (stageRoot c pi inv a.len : ZMod (c.prime pi)) ^ (a.len / 2) = -1)
    {X : Nat → ZMod (c.prime pi)} {count stage : Nat} (hcount : stage + count = k)
    (h : s.TransformOperands c ra re pi a)
    (hafter : AfterStages (stageRoot c pi inv a.len : ZMod (c.prime pi)) a.len stage X (s.residueAt (c.prime pi) a)) :
    ∃ t, Rules.stages ra re rf pi inv (List.range' stage count) s = .next t ∧ t.TransformOperands c ra re pi a
      ∧ AfterStages (stageRoot c pi inv a.len : ZMod (c.prime pi)) a.len k X (t.residueAt (c.prime pi) a) := by
  induction count generalizing stage s with
  | zero => exact ⟨s, rfl, h, hcount ▸ hafter⟩
  | succ count ih =>
    have hword : (Word.ofNat stage).toNat = stage := by
      have hself : k < 2 ^ k := Nat.lt_two_pow_self
      have hreg := (s.reg re).isLt
      rw [h.len, hlen] at hreg
      exact toNat_ofNat_of_residue (m := 2 ^ k) (by omega) hreg.le
    have hrf : ((s.setReg rf (Word.ofNat stage)).reg rf).toNat = stage := by rw [State.setReg_reg_self, hword]
    obtain ⟨t, ht, hoperands, hstage⟩ := nttstg_completes (rf := rf) (inv := inv) hpi hc
      (h.setReg hra hre (Word.ofNat stage)) hlen hk (by omega)
    rw [hrf] at hstage
    have hnext := AfterStages.succ hafter hstage (hlen ▸ pow_dvd_pow 2 (by omega)) hroot
    obtain ⟨x, hx, hx'⟩ := ih (by omega) hoperands hnext
    exact ⟨x, by rw [List.range'_succ, Rules.stages, ht]; exact hx, hx'⟩

theorem nttrev_completes (h : s.TransformOperands c ra re pi a) (hlen : a.len = 2 ^ k) (hk : k ≤ c.maxNttLog2) :
    ∃ t, exec (.nttrev ra re) s = .next t ∧ ∀ i < a.len, t.element a i = s.element a (bitReverse k i) := by
  obtain rfl := h.cfg
  obtain rfl : a = ⟨s.reg ra, (s.reg re).toNat⟩ := by rw [h.base, h.len]
  dsimp only at hlen
  have hpow : s.cfg.Pow2Length (s.reg re).toNat := ⟨k, List.mem_range.2 (Nat.lt_succ_of_le hk), hlen⟩
  obtain ⟨t, ht, -, hmoved⟩ := (nttrevObeysItsRule s ra re).completes (by
    simp only [Rules.nttrev, State.rangeChecks, List.map_cons, List.map_nil, List.forall_mem_cons]
    exact ⟨hpow, h.fits, List.forall_mem_nil _⟩)
  refine ⟨t, ht, fun i hi => congrArg BitVec.toNat ?_⟩
  refine hmoved k (bitReverse k i) i hlen (hlen ▸ bitReverse_lt k i) hi fun b hb => ?_
  rw [testBit_bitReverse (by omega)]
  congr 1; omega

/-- The stages and the reversal against a transform of the same root. -/
theorem stages_then_reversal {i : Instr} {user : Config.ScratchUser} {root : Config → Nat → Nat}
    (hi : IsTransform i ra re pi user root) (hroot : root c a.len = stageRoot c pi inv a.len) (hpi : pi ≠ 3)
    (hc : c.Legal) (h : s.TransformOperands c ra re pi a) (hlen : a.len = 2 ^ k) (hpos : 1 ≤ k)
    (hk : k ≤ c.maxNttLog2) (hra : rf ≠ ra) (hre : rf ≠ re) (hs : scratchShort c user [a.len] = false) :
    ∃ t x y, Rules.stages ra re rf pi inv (List.range k) s = .next t ∧ exec (.nttrev ra re) t = .next x
      ∧ exec i s = .next y ∧ x.words a = y.words a := by
  have hn : c.ValidLength a.len := ⟨k, List.mem_range.2 (Nat.lt_succ_of_le hk), .inl hlen⟩
  have := hc.fact_prime pi
  have htwo : a.len = a.len / 2 * 2 := (Nat.div_mul_cancel (hlen ▸ dvd_pow_self 2 (by omega))).symm
  have hsign := ((isPrimitiveRoot_stageRoot hc pi inv hn).pow (validLength_pos hn) htwo).eq_neg_one_of_two_right
  obtain ⟨t, ht, hoperands, hafter⟩ := stages_complete hpi hc hlen hk hra hre hsign (Nat.zero_add k) h
    (afterStages_zero (cast_dftAt _ _ _ (s.element a)))
  obtain ⟨x, hx, hreversed⟩ := nttrev_completes hoperands hlen hk
  obtain ⟨y, hy, hresult, htransform⟩ := hi.completes h hc hn hs
  refine ⟨t, x, y, List.range_eq_range' ▸ ht, hx, hy, words_eq_of_elements fun j hj => ?_⟩
  have hplace : bitReverse k j < a.len := hlen ▸ bitReverse_lt k j
  have hcast : (y.element a j : ZMod (c.prime pi)) = t.element a (bitReverse k j) := by
    have hlast := hafter.last hlen (bitReverse_lt k j)
    rw [bitReverse_bitReverse (hlen ▸ hj)] at hlast
    rw [htransform j hj, hroot]
    exact hlast
  have hmod := (ZMod.natCast_eq_natCast_iff' _ _ _).1 hcast
  have hstages : t.element a (bitReverse k j) < c.prime pi := hoperands.below _ hplace
  have hwhole : y.element a j < c.prime pi := hresult.below j hj
  rw [hreversed j hj, ← Nat.mod_eq_of_lt hstages, ← hmod, Nat.mod_eq_of_lt hwhole]

end Fast

/-- Settles O36: the stages take the array to the transform with its places read backwards, for either root. -/
theorem stagesAndReversalAreTheTransform : Obligations.Stages_and_reversal_are_the_transform := by
  intro s ra re rf pi k hpi hlegal hra hre hlen hpos hk n a hfits hbelow
  have hoperands : s.TransformOperands s.cfg ra re pi a := ⟨rfl, rfl, rfl, hfits, hbelow⟩
  exact ⟨stages_then_reversal (a := a) (inv := false) (isTransform_nttfwd hpi) rfl hpi hlegal hoperands hlen hpos hk
      hra hre,
    stages_then_reversal (a := a) (inv := true) (isTransform_nttinv hpi) rfl hpi hlegal hoperands hlen hpos hk
      hra hre⟩

end Sys2Proof.Machine
end

section
/-! Unit 10, CRT reconstructor (46_crt.md R180 to R183). The two mixed-radix steps of R182 each fix the residue of one
more prime, and coprime moduli leave one integer below their product; the loop of R181 writes the digits of the sum of
its coefficients. -/

namespace Sys2Proof.Config

/-- The moduli of the two steps of R182 are coprime to what has gone before. -/
theorem CrtPrimes.coprime {c : Config} (h : c.CrtPrimes) :
    c.p1.Coprime c.p2 ∧ (c.p1 * c.p2).Coprime c.p3 := by
  have h12 : c.p1.Coprime c.p2 := (Nat.coprime_primes h.prime1 h.prime2).2 h.distinct12
  have h13 : c.p1.Coprime c.p3 := (Nat.coprime_primes h.prime1 h.prime3).2 h.distinct13
  have h23 : c.p2.Coprime c.p3 := (Nat.coprime_primes h.prime2 h.prime3).2 h.distinct23
  exact ⟨h12, h13.mul_left h23⟩

end Sys2Proof.Config

namespace Sys2Proof.Machine

open Sys2Proof

/-! ### The Chinese remainder (R180, R182) -/

/-- One step of R182: the multiple of `M` that takes `y` to the residue of `a` modulo `p`. -/
def mixedRadixDigit (p M y a : Nat) : Nat := subMod (a % p) (y % p) p * invMod M p % p

/-- `CRT` is `a1` and then two steps of R182. -/
theorem crt_eq (c : Config) (a1 a2 a3 : Nat) :
    let y := a1 + c.p1 * mixedRadixDigit c.p2 c.p1 a1 a2
    crt c a1 a2 a3 = y + c.p1 * c.p2 * mixedRadixDigit c.p3 (c.p1 * c.p2) y a3 := rfl

section MixedRadix

variable {p : Nat} (hp : p.Prime)
include hp

/-- Fermat's inverse (log entry 12) of any number the prime does not divide, of whatever size. -/
theorem mul_invMod_of_coprime {M : Nat} (hword : p ≤ 2 ^ 64) (hM : M.Coprime p) : M * invMod M p % p = 1 := by
  have hpos : 0 < M % p := Nat.pos_of_ne_zero fun h =>
    hp.one_lt.ne' ((Nat.coprime_comm.1 hM).eq_one_of_dvd (Nat.dvd_of_mod_eq_zero h))
  have hinv : invMod (M % p) p = invMod M p := by rw [invMod, invMod, Nat.mod_mod]
  rw [← Nat.mod_mul_mod, ← hinv]
  exact mul_invMod hp hword hpos (Nat.mod_lt M hp.pos)

theorem mixedRadixDigit_lt (M y a : Nat) : mixedRadixDigit p M y a < p := Nat.mod_lt _ hp.pos

/-- A step of R182 reaches its residue. -/
theorem add_mul_mixedRadixDigit_mod {M : Nat} (hword : p ≤ 2 ^ 64) (hM : M.Coprime p) (y a : Nat) :
    (y + M * mixedRadixDigit p M y a) % p = a % p := by
  have := Fact.mk hp
  have hinv : (M : ZMod p) * invMod M p = 1 := by
    rw [← Nat.cast_mul, ← ZMod.natCast_mod, mul_invMod_of_coprime hp hword hM, Nat.cast_one]
  refine (ZMod.natCast_eq_natCast_iff' _ _ p).1 ?_
  rw [mixedRadixDigit, subMod_eq_emod (Nat.mod_lt _ hp.pos) (Nat.mod_lt _ hp.pos)]
  simp only [Nat.cast_add, Nat.cast_mul, ZMod.natCast_mod, cast_emod_sub]
  linear_combination (a - y : ZMod p) * hinv

end MixedRadix

/-- A step of R182 from a number below `M` stays below `M · p`. -/
theorem add_mul_lt_mul {M y d p : Nat} (hy : y < M) (hd : d < p) : y + M * d < M * p :=
  calc y + M * d < M + M * d := Nat.add_lt_add_right hy _
    _ = M * (d + 1) := by ring
    _ ≤ M * p := Nat.mul_le_mul_left M hd

/-- `z` is the integer R180 asks for: below `P1 · P2 · P3`, with the three residues. -/
def IsCrt (c : Config) (a1 a2 a3 z : Nat) : Prop :=
  z < c.p1 * c.p2 * c.p3 ∧ z % c.p1 = a1 ∧ z % c.p2 = a2 ∧ z % c.p3 = a3

section Remainder

variable {c : Config} {a1 a2 a3 : Nat} (hc : c.CrtPrimes)
include hc

theorem isCrt_crt (h1 : a1 < c.p1) (h2 : a2 < c.p2) (h3 : a3 < c.p3) : IsCrt c a1 a2 a3 (crt c a1 a2 a3) := by
  obtain ⟨hcop2, hcop3⟩ := hc.coprime
  let y := a1 + c.p1 * mixedRadixDigit c.p2 c.p1 a1 a2
  have hy : y < c.p1 * c.p2 := add_mul_lt_mul h1 (mixedRadixDigit_lt hc.prime2 ..)
  rw [crt_eq]
  refine ⟨add_mul_lt_mul hy (mixedRadixDigit_lt hc.prime3 ..), ?_, ?_, ?_⟩
  · rw [mul_assoc, Nat.add_mul_mod_self_left, Nat.add_mul_mod_self_left, Nat.mod_eq_of_lt h1]
  · rw [mul_comm c.p1 c.p2, mul_assoc, Nat.add_mul_mod_self_left,
      add_mul_mixedRadixDigit_mod hc.prime2 hc.is_word2.le hcop2, Nat.mod_eq_of_lt h2]
  · rw [add_mul_mixedRadixDigit_mod hc.prime3 hc.is_word3.le hcop3, Nat.mod_eq_of_lt h3]

/-- Coprime moduli admit one integer below their product. -/
theorem IsCrt.unique {z z' : Nat} (hz : IsCrt c a1 a2 a3 z) (hz' : IsCrt c a1 a2 a3 z') : z = z' := by
  obtain ⟨hcop2, hcop3⟩ := hc.coprime
  obtain ⟨hlt, hz1, hz2, hz3⟩ := hz
  obtain ⟨hlt', hz1', hz2', hz3'⟩ := hz'
  have h12 : z ≡ z' [MOD c.p1 * c.p2] :=
    (Nat.modEq_and_modEq_iff_modEq_mul hcop2).1 ⟨hz1.trans hz1'.symm, hz2.trans hz2'.symm⟩
  exact ((Nat.modEq_and_modEq_iff_modEq_mul hcop3).1 ⟨h12, hz3.trans hz3'.symm⟩).eq_of_lt_of_lt hlt hlt'

end Remainder

/-- Settles O39: the model's value is such an integer, and there is only one. -/
theorem crtIsTheOneIntegerWithTheResidues : Obligations.Crt_is_the_one_integer_with_the_residues :=
  fun _ _ _ _ hc h1 h2 h3 _ =>
    ⟨fun hz => IsCrt.unique hc hz (isCrt_crt hc h1 h2 h3), fun hz => hz ▸ isCrt_crt hc h1 h2 h3⟩

/-! ### The loop (R181) -/

/-- The loop writes the digits of the carry it starts with plus the weighted coefficients, and carries out the rest. -/
theorem crtCarry_eq (carry : Nat) (z : List Nat) :
    crtCarry carry z
      = (digits (carry + Nat.ofDigits RADIX z) z.length, (carry + Nat.ofDigits RADIX z) / RADIX ^ z.length) := by
  induction z generalizing carry with
  | nil => simp [crtCarry, digits]
  | cons x rest ih =>
    have hsum : carry + Nat.ofDigits RADIX (x :: rest) = carry + x + RADIX * Nat.ofDigits RADIX rest := by
      rw [Nat.ofDigits_cons, Nat.add_assoc]
    rw [hsum, List.length_cons, digits, pow_succ', ← Nat.div_div_eq_div_mul, Nat.add_mul_mod_self_left,
      Nat.add_mul_div_left _ _ RADIX_pos, crtCarry, ih]

/-- The sum of R181's derived clause. -/
theorem ofDigits_eq_sum_range (b : Nat) (z : List Nat) :
    Nat.ofDigits b z = ∑ i ∈ Finset.range z.length, z.getD i 0 * b ^ i := by
  induction z with
  | nil => rfl
  | cons x rest ih =>
    rw [Nat.ofDigits_cons, ih, List.length_cons, Finset.sum_range_succ', Finset.mul_sum, Nat.add_comm]
    simp [pow_succ', mul_left_comm]

theorem presentFlag_eq_one_iff {v : Nat} : presentFlag v = 1 ↔ v ≠ 0 := by
  rw [presentFlag]
  split <;> simp [*]

/-- Settles O40: the words are the digits of the sum, and what is carried out is its quotient by `RADIX^n`. -/
theorem crtWordsStandForTheSum : Obligations.Crt_words_stand_for_the_sum := by
  intro z
  rw [← ofDigits_eq_sum_range, crtCarry_eq, Nat.zero_add]
  refine ⟨value_digits _ _, fun _ => toNat_lt_RADIX_of_mem_digits, ?_⟩
  rw [presentFlag_eq_one_iff, Nat.div_ne_zero_iff]
  exact and_iff_right (pow_pos RADIX_pos _).ne'

/-- The loop of R183: a bound on the carry that one iteration keeps is kept by them all. -/
theorem crtCarry_left_le {cmax zmax : Nat} (hstep : (cmax + zmax) / RADIX ≤ cmax) {carry : Nat} {z : List Nat}
    (hcarry : carry ≤ cmax) (hz : ∀ x ∈ z, x ≤ zmax) : (crtCarry carry z).2 ≤ cmax := by
  induction z generalizing carry with
  | nil => exact hcarry
  | cons x rest ih =>
    obtain ⟨hx, hrest⟩ := List.forall_mem_cons.1 hz
    exact ih ((Nat.div_le_div_right (Nat.add_le_add hcarry hx)).trans hstep) hrest

/-- Settles O41: `cmax` and the largest coefficient, divided by `RADIX`, are at most `cmax` again. -/
theorem crtCarryStaysWithinThreeWords : Obligations.Crt_carry_stays_within_three_words := by
  intro before z pp hbefore hz
  have hle : (crtCarry 0 before).2 ≤ 627710135393475385904124401220046371710 :=
    crtCarry_left_le (zmax := pp - 1) (by decide) (Nat.zero_le _) fun x hx => Nat.le_pred_of_lt (hbefore x hx)
  have hroom : 627710135393475385904124401220046371710 + pp < 2 ^ 192 := by decide
  exact ⟨hle, by omega⟩

/-! ### CRT3 (R181) -/

/-- The integer of R180 for position `i` of three arrays. -/
def State.crtAt (s : State) (r1 r2 r3 : ArrayOperand) (i : Nat) : Nat :=
  crt s.cfg (s.element r1 i) (s.element r2 i) (s.element r3 i)

theorem crtCoefficients_map (c : Config) (f g h : Nat → Nat) (l : List Nat) :
    crtCoefficients c (l.map f) (l.map g) (l.map h) = l.map fun i => crt c (f i) (g i) (h i) := by
  induction l with
  | nil => rfl
  | cons i rest ih => simp only [List.map_cons, crtCoefficients, ih]

theorem exec_crt3 (rd ra rb rc re rf : Reg) (s : State) :
    let n := s.scalar rf
    let w := s.array ra n
    let r1 := s.array rb n
    let r2 := s.array rc n
    let r3 := s.array re n
    let result := crtCarry 0 ((List.range n).map (s.crtAt r1 r2 r3))
    exec (.crt3 rd ra rb rc re rf) s =
      command s (checkLen (decide (1 ≤ n)) <|> s.checkAddrs [w, r1, r2, r3] <|> checkSameBase w r1 <|> checkStrict w r2
        <|> checkStrict w r3 <|> s.checkWords s.cfg.p1 r1 <|> s.checkWords s.cfg.p2 r2 <|> s.checkWords s.cfg.p3 r3)
      fun _ => (s.setWords w result.1).setReg rd (presentFlag result.2) := by
  intro n w r1 r2 r3 result
  have hcoefficients : crtCoefficients s.cfg (s.residues r1) (s.residues r2) (s.residues r3)
      = (List.range n).map (s.crtAt r1 r2 r3) := by
    rw [residues_eq, residues_eq, residues_eq]
    exact crtCoefficients_map ..
  simp only [result, ← hcoefficients]
  rfl

theorem crtCarry_append (carry : Nat) (l m : List Nat) :
    let first := crtCarry carry l
    let second := crtCarry first.2 m
    crtCarry carry (l ++ m) = (first.1 ++ second.1, second.2) := by
  induction l generalizing carry with
  | nil => rfl
  | cons x rest ih => simp only [List.cons_append, crtCarry, ih]

/-- `carry` of R181 before iteration `i`, for the coefficients `z`. -/
def crtCarryAt (z : Nat → Nat) (i : Nat) : Nat := (crtCarry 0 ((List.range i).map z)).2

theorem crtCarryAt_succ (z : Nat → Nat) (i : Nat) : crtCarryAt z (i + 1) = (crtCarryAt z i + z i) / RADIX := by
  rw [crtCarryAt, List.range_succ, List.map_append, crtCarry_append]
  rfl

/-- Each word is the running value modulo `RADIX`, the rest being carried on (R181). -/
theorem crtCarry_getElem (carry : Nat) {z : List Nat} {i : Nat} (hi : i < z.length) :
    (crtCarry carry z).1[i]'(by simpa using hi)
      = Word.ofNat (((crtCarry carry (z.take i)).2 + z[i]) % RADIX) := by
  induction z generalizing carry i with
  | nil => exact absurd hi (Nat.not_lt_zero i)
  | cons x rest ih =>
    cases i with
    | zero => rfl
    | succ i => exact ih _ (Nat.lt_of_succ_lt_succ hi)

theorem crtCarry_range_getElem (z : Nat → Nat) {n i : Nat} (hi : i < n) :
    (crtCarry 0 ((List.range n).map z)).1[i]'(by simpa using hi) = Word.ofNat ((crtCarryAt z i + z i) % RADIX) := by
  rw [crtCarry_getElem 0 (by simpa using hi), ← List.map_take, List.take_range, Nat.min_eq_left hi.le, List.getElem_map,
    List.getElem_range, crtCarryAt]

/-- What CRT3 leaves for coefficients `z`. -/
theorem completes_crt3 (s : State) (w : ArrayOperand) (rd : Reg) (z : Nat → Nat) :
    let result := crtCarry 0 ((List.range w.len).map z)
    let t := ((s.setWords w result.1).setReg rd (presentFlag result.2)).advance
    s.Completes t [rd] [w] ∧ (∀ i < w.len, t.element w i = (crtCarryAt z i + z i) % RADIX)
      ∧ t.reg rd = if crtCarryAt z w.len ≠ 0 then 1 else 0 := by
  intro result t
  have hlen : result.1.length = w.len := by simp [result]
  refine ⟨completes_words_reg w _ hlen rd _, fun i hi => ?_, State.setReg_reg_self ..⟩
  have hword : t.data (w.base.toNat + i) = Word.ofNat ((crtCarryAt z i + z i) % RADIX) :=
    (data_setWords (hi.trans_eq hlen.symm)).trans (crtCarry_range_getElem z hi)
  rw [State.element, hword, toNat_ofNat_mod_RADIX]

/-- Settles O38: residues below their primes have the integer of R180, and the loop runs over these. -/
theorem crt3ObeysItsRule : Obligations.Crt3_obeys_its_rule := fun s rd ra rb rc re rf hc =>
  obeys_unless (exec_crt3 rd ra rb rc re rf s) decide_eq_true_iff fun _ h =>
  obeys_range h fun _ h =>
  obeys_same h fun _ h =>
  obeys_strict h fun _ h =>
  obeys_strict h fun _ h =>
  obeys_words h fun h1 h =>
  obeys_words h fun h2 h =>
  obeys_words (command_last h) fun h3 h => by
    let n := s.scalar rf
    let z := s.crtAt (s.array rb n) (s.array rc n) (s.array re n)
    obtain ⟨hcompletes, hwords, hflag⟩ := completes_crt3 s (s.array ra n) rd z
    refine obeys_nil h ⟨hcompletes, z, crtCarryAt z, rfl, fun i hi => ?_, hflag⟩
    obtain ⟨hlt, hz1, hz2, hz3⟩ := isCrt_crt hc (h1 i hi) (h2 i hi) (h3 i hi)
    exact ⟨hlt, hz1, hz2, hz3, hwords i hi, crtCarryAt_succ _ i⟩

end Sys2Proof.Machine
end

section
/-! Unit 11, Karatsuba multiplier (47_karatsuba.md R190 to R196). KMUL, KMULN and NMUL make the checks of an array
product, as BMUL does, then that of their scratch, and write BMUL's words (R192). The tuning parameters show only through
the scratch and the length of NMUL: no other check and no word written looks at them. -/

namespace Sys2Proof.Machine

open Sys2Proof

/-! ### The rules of KMUL, KMULN and NMUL (R191, R193, R195) -/

theorem exec_kmul (ra rb rc re rf : Reg) (s : State) :
    let la := s.scalar re
    let lb := s.scalar rf
    let w := s.array ra (la + lb)
    let u := s.array rb la
    let v := s.array rc lb
    exec (.kmul ra rb rc re rf) s =
      command s (checkLen (decide (1 ≤ la ∧ 1 ≤ lb)) <|> s.checkProduct w u v <|> s.checkScratch .kmul [la, lb] [w])
        fun _ => s.writeProduct w u v := rfl

theorem exec_kmuln (ra rb rc re rf : Reg) (s : State) :
    let la := s.scalar re
    let lb := s.scalar rf
    let w := s.array ra (la + lb)
    let u := s.array rb la
    let v := s.array rc lb
    exec (.kmuln ra rb rc re rf) s =
      command s (checkLen (decide (1 ≤ la ∧ 1 ≤ lb)) <|> s.checkProduct w u v <|> s.checkScratch .kmuln [la, lb] [w])
        fun _ => s.writeProduct w u v := rfl

theorem exec_nmul (ra rb rc re rf : Reg) (s : State) :
    let la := s.scalar re
    let lb := s.scalar rf
    let w := s.array ra (la + lb)
    let u := s.array rb la
    let v := s.array rc lb
    exec (.nmul ra rb rc re rf) s =
      command s (checkLen (decide (1 ≤ la ∧ 1 ≤ lb)) <|> checkLen (decide (la + lb ≤ 3 * 2 ^ s.cfg.maxNttLog2))
        <|> s.checkProduct w u v <|> s.checkScratch .nmul [la, lb] [w])
        fun _ => s.writeProduct w u v := rfl

/-- The checks of an array product and then of its scratch, against the lines they stand for. -/
theorem obeys_scratchProduct {s : State} {i : Instr} {w u v : ArrayOperand} {user : Config.ScratchUser}
    {lengths : List Nat}
    (h : exec i s = command s (s.checkProduct w u v <|> s.checkScratch user lengths [w]) fun _ => s.writeProduct w u v) :
    s.Obeys i (Rules.productDone s w u v) (Rules.productChecks s w u v ++ [.scratch user lengths [w]]) :=
  obeys_productChecks h fun h =>
  obeys_scratch (command_last h) fun _ h =>
  obeys_nil h (completes_digits s w _)

/-- KMUL needs no scratch for operands at or below the base case (R191). -/
theorem scratchShort_kmul_basecase {c : Config} {la lb : Nat} (ha : la ≤ c.karatsubaBasecase)
    (hb : lb ≤ c.karatsubaBasecase) : scratchShort c .kmul [la, lb] = false := by
  have hneed : scratchNeed c .kmul [la, lb] = 0 := if_pos (by simp [ha, hb])
  rw [scratchShort, hneed]
  cases c.scratchWords <;> simp

/-- Settles O42: after their length checks the three run the checks of one scratch product. -/
theorem kmulKmulnNmulObeyTheirRules : Obligations.Kmul_kmuln_nmul_obey_their_rules := fun s ra rb rc re rf =>
  ⟨obeys_unless (exec_kmul ra rb rc re rf s) decide_eq_true_iff fun _ h => obeys_scratchProduct h,
   obeys_unless (exec_kmuln ra rb rc re rf s) decide_eq_true_iff fun _ h => obeys_scratchProduct h,
   obeys_unless (exec_nmul ra rb rc re rf s) decide_eq_true_iff fun _ h =>
    obeys_unless h decide_eq_true_iff fun _ h => obeys_scratchProduct h,
   fun _ _ => scratchShort_kmul_basecase⟩

/-! ### The strategies agree (R192) -/

/-- A command that leaves no fault has passed its checks and done its writes. -/
theorem command_completed {s u : State} {trap : Option Trap} {effect : Unit → State}
    (h : command s trap effect = .next u) (hu : u.status.fault = false) : trap = none ∧ u = (effect ()).advance := by
  obtain ⟨t, -, rfl⟩ | hcompleted := command_cases h
  · simp at hu
  · exact hcompleted

theorem checkProduct_eq_none {s : State} {w u v : ArrayOperand} :
    s.checkProduct w u v = none ↔
      (∀ a ∈ [w, u, v], a.Fits s) ∧ w.Apart u ∧ w.Apart v ∧ s.WordsBelow RADIX u ∧ s.WordsBelow RADIX v := by
  simp [State.checkProduct]

section Retuned

variable {s : State} {c : Config} {w u v : ArrayOperand}

/-- Of the parameters, the checks of a product look at the size of `M` alone. -/
theorem checkProduct_retuned (hc : c.memWords = s.cfg.memWords) (h : s.checkProduct w u v = none) :
    State.checkProduct { s with cfg := c } w u v = none := by
  obtain ⟨hfits, happart⟩ := checkProduct_eq_none.1 h
  exact checkProduct_eq_none.2 ⟨fun a ha => (hfits a ha).trans_eq hc.symm, happart⟩

theorem value_retuned (a : ArrayOperand) : State.value { s with cfg := c } a = s.value a :=
  congrArg Machine.value (State.dataList_congr fun _ _ => rfl)

/-- The write of a product looks at no parameter. -/
theorem writeProduct_retuned :
    State.writeProduct { s with cfg := c } w u v = { s.writeProduct w u v with cfg := c } := by
  rw [State.writeProduct, value_retuned u, value_retuned v]
  rfl

/-- The scratch is looked for under the new parameters, the other checks of a product being those passed before. -/
theorem scratchProduct_retuned {user : Config.ScratchUser} {lengths : List Nat} {dsts : List ArrayOperand}
    (hc : c.memWords = s.cfg.memWords) (h : s.checkProduct w u v = none) (hs : scratchShort c user lengths = false) :
    (State.checkProduct { s with cfg := c } w u v <|> State.checkScratch { s with cfg := c } user lengths dsts) = none :=
  (Option.orElse_eq_none _ _).2 ⟨checkProduct_retuned hc h, checkScratch_eq_none.2 hs⟩

/-- A product whose checks pass leaves, under other parameters, the state it leaves under the first ones. -/
theorem command_writeProduct_retuned {trap : Option Trap} (h : trap = none) :
    command { s with cfg := c } trap (fun _ => State.writeProduct { s with cfg := c } w u v) =
      .next { (s.writeProduct w u v).advance with cfg := c } := by
  rw [command_completes h, writeProduct_retuned]
  rfl

end Retuned

/-- Settles O43: the checks that BMUL passes are those of the others but for scratch and length, and the write is one. -/
theorem multiplicationStrategiesAgree : Obligations.Multiplication_strategies_agree := by
  intro s t ra rb rc re rf basecase crossover karatsuba sixstep tuned la lb _ hbmul hfault
  obtain ⟨hchecks, rfl⟩ := command_completed ((exec_bmul ra rb rc re rf s).symm.trans hbmul) hfault
  obtain ⟨hlen, hproduct⟩ := (Option.orElse_eq_none _ _).1 hchecks
  refine ⟨fun hs => ?_, fun hs => ?_, fun hs hbound => ?_⟩
  · exact (exec_kmul ..).trans <| command_writeProduct_retuned <|
      (Option.orElse_eq_none _ _).2 ⟨hlen, scratchProduct_retuned rfl hproduct hs⟩
  · exact (exec_kmuln ..).trans <| command_writeProduct_retuned <|
      (Option.orElse_eq_none _ _).2 ⟨hlen, scratchProduct_retuned rfl hproduct hs⟩
  · have hnmulLen : checkLen (decide (la + lb ≤ 3 * 2 ^ s.cfg.maxNttLog2)) = none :=
      checkLen_eq_none.2 (decide_eq_true hbound)
    exact (exec_nmul ..).trans <| command_writeProduct_retuned <|
      (Option.orElse_eq_none _ _).2 ⟨hlen, (Option.orElse_eq_none _ _).2
        ⟨hnmulLen, scratchProduct_retuned rfl hproduct hs⟩⟩

end Sys2Proof.Machine
end

section
/-! Faults (60_exceptions.md R201, R204, R211, R212, R223): which traps the checks of a command can answer, on what those
depend, and what the record of a fault can change by while the block is stopped. -/

namespace Sys2Proof.Machine

open Sys2Proof

/-! ### The traps a chain of checks can answer -/

/-- Every trap that a chain of checks can answer has property `P`. -/
def RaisesOnly (P : Trap → Prop) (checks : Option Trap) : Prop := ∀ t, checks = some t → P t

section RaisesOnly

variable {P : Trap → Prop} {s : State} {a b : ArrayOperand} {ok : Bool} {v : Word} {bound : Nat}

@[simp] theorem raisesOnly_none : RaisesOnly P none := by simp [RaisesOnly]

/-- The second check of two is reached only when the first passes. -/
@[simp] theorem raisesOnly_or {c d : Option Trap} :
    RaisesOnly P (c.or d) ↔ RaisesOnly P c ∧ (c = none → RaisesOnly P d) := by
  cases c <;> simp [RaisesOnly]

@[simp] theorem raisesOnly_require {c : Cause} {inf : Word} :
    RaisesOnly P (require ok c inf) ↔ (ok = false → P { cause := c, info := inf }) := by
  cases ok <;> simp [RaisesOnly, require]

@[simp] theorem raisesOnly_checkLen :
    RaisesOnly P (checkLen ok) ↔ (ok = false → P { cause := .len, info := 0 }) := raisesOnly_require

@[simp] theorem raisesOnly_checkAddr :
    RaisesOnly P (s.checkAddr a) ↔ (¬a.Fits s → P { cause := .addr, info := a.base }) := by
  rw [State.checkAddr, raisesOnly_require, decide_eq_false_iff_not]

@[simp] theorem raisesOnly_checkSameBase :
    RaisesOnly P (checkSameBase a b) ↔ (¬a.InPlaceOrApart b → P { cause := .overlap, info := a.base }) := by
  rw [← checkSameBase_eq_none, checkSameBase, raisesOnly_require, require_eq_none, Bool.not_eq_true]

@[simp] theorem raisesOnly_checkStrict :
    RaisesOnly P (checkStrict a b) ↔ (¬a.Apart b → P { cause := .overlap, info := a.base }) := by
  rw [← checkStrict_eq_none, checkStrict, raisesOnly_require, require_eq_none, Bool.not_eq_true]

@[simp] theorem raisesOnly_checkBelow :
    RaisesOnly P (checkBelow v bound) ↔ (¬v.toNat < bound → P { cause := .range, info := v }) := by
  rw [checkBelow, raisesOnly_require, decide_eq_false_iff_not]

@[simp] theorem raisesOnly_checkPrimeIndex {i : Instr} :
    RaisesOnly P (checkPrimeIndex i) ↔ (¬i.WellFormed → P { cause := .illegal, info := encode i }) := by
  rw [checkPrimeIndex, raisesOnly_require, decide_eq_false_iff_not]

@[simp] theorem raisesOnly_checkWords :
    RaisesOnly P (s.checkWords bound a)
      ↔ ∀ n, s.firstNotBelow bound a.base.toNat a.len = some n → P { cause := .badword, info := Word.ofNat n } := by
  simp [RaisesOnly, State.checkWords]

@[simp] theorem raisesOnly_checkScratch {user : Config.ScratchUser} {lengths : List Nat} {dsts : List ArrayOperand} :
    RaisesOnly P (s.checkScratch user lengths dsts)
      ↔ (scratchShort s.cfg user lengths = true → P { cause := .alloc, info := 0, clobbers := dsts }) := by
  cases h : scratchShort s.cfg user lengths <;> simp [RaisesOnly, State.checkScratch, h]

end RaisesOnly

/-! ### The causes listed for a command (R201) -/

/-- A trap that R201 lists for command `i`, or the ILLEGAL of an ill-formed one (R75). -/
def Trap.Listed (i : Instr) (t : Trap) : Prop :=
  (t.cause = .illegal ∧ ¬i.WellFormed)
    ∨ (i.mnemonic ∈ Rules.raisedBy t.cause ∧ (t.cause = .len ∨ t.cause = .divzero ∨ t.cause = .alloc → t.info = 0))

/-- ILLEGAL and FETCH have empty rows. -/
theorem code_of_raisedBy {c : Cause} {mnemonic : String} (h : mnemonic ∈ Rules.raisedBy c) :
    3 ≤ c.code.toNat ∧ c.code.toNat ≤ 9 := by
  cases c
  case illegal | fetch => simp [Rules.raisedBy] at h
  all_goals decide

/-! ### Checks on the same operands with another memory (R204) -/

/-- A trap of LEN, ADDR or OVERLAP. -/
def Trap.OnOperands (t : Trap) : Prop := t.cause.code = 3 ∨ t.cause.code = 4 ∨ t.cause.code = 5

/-- A trap of LEN, ADDR or OVERLAP of the first chain of checks is the trap of the second. -/
def OperandTrapsAgree (checks checks' : Option Trap) : Prop :=
  ∀ t, checks = some t → t.OnOperands → checks' = some t

/-- A check made of the same values in both chains answers the same; the chains differ only after it has passed. -/
@[simp] theorem operandTrapsAgree_or {c d d' : Option Trap} :
    OperandTrapsAgree (c.or d) (c.or d') ↔ (c = none → OperandTrapsAgree d d') := by
  cases c <;> simp [OperandTrapsAgree]

@[simp] theorem operandTrapsAgree_self (c : Option Trap) : OperandTrapsAgree c c := fun _ h _ => h

/-- Checks of other causes only, those of RANGE, BADWORD, DIVZERO and ALLOC that read memory among them. -/
theorem operandTrapsAgree_of_other {c c' : Option Trap} (h : RaisesOnly (fun t => ¬t.OnOperands) c) :
    OperandTrapsAgree c c' := fun t ht hop => absurd hop (h t ht)

/-- Two states of one machine with the same registers. -/
structure State.SameOperands (s s' : State) : Prop where
  regs : s.regs = s'.regs
  cfg : s.cfg = s'.cfg

namespace State.SameOperands

variable {s s' : State}

theorem reg (h : s.SameOperands s') (r : Reg) : s.reg r = s'.reg r := by rw [State.reg, State.reg, h.regs]

theorem scalar (h : s.SameOperands s') (r : Reg) : s.scalar r = s'.scalar r := congrArg BitVec.toNat (h.reg r)

theorem array (h : s.SameOperands s') (r : Reg) (n : Nat) : s.array r n = s'.array r n := by
  rw [State.array, State.array, h.reg]

theorem checkAddr (h : s.SameOperands s') (a : ArrayOperand) : s.checkAddr a = s'.checkAddr a := by
  rw [State.checkAddr, State.checkAddr, h.cfg]

theorem checkAddrs (h : s.SameOperands s') (l : List ArrayOperand) : s.checkAddrs l = s'.checkAddrs l := by
  induction l with
  | nil => rfl
  | cons a rest ih => rw [State.checkAddrs, State.checkAddrs, h.checkAddr, ih]

end State.SameOperands

/-! ### The checks of a command -/

/-- `checks` are what command `i` checks in each state: `exec` makes them and, when they pass, leaves FAULT as it is; they
raise what R201 lists for it; and LEN, ADDR and OVERLAP among them look at the registers only. -/
structure ChecksOf (i : Instr) (checks : State → Option Trap) : Prop where
  exec_eq : ∀ s, ∃ u : State, exec i s = command s (checks s) (fun _ => u) ∧ u.status.fault = s.status.fault
  listed : ∀ s, RaisesOnly (Trap.Listed i) (checks s)
  agree : ∀ s s', s.SameOperands s' → OperandTrapsAgree (checks s) (checks s')

/-- Every command has its chain of checks: none, checks on operands alone, checks on register values that raise none of
LEN, ADDR and OVERLAP, or checks on operands first and on values, memory and scratch after them. -/
theorem exists_checksOf (i : Instr) : ∃ checks, ChecksOf i checks := by
  cases i
  case halt | nop | li | lih | mov | mulw =>
    exact ⟨fun _ => none, fun s => ⟨_, rfl, rfl⟩, fun _ => raisesOnly_none, fun _ _ _ => operandTrapsAgree_self none⟩
  case ldw | stw | nttrev | nttlen =>
    refine ⟨_, fun s => ⟨_, rfl, rfl⟩, fun s => ?_, fun s s' h => ?_⟩
    · simp [Trap.Listed, Instr.mnemonic, Rules.raisedBy]
    · simp [State.effectiveAddress, h.reg, h.scalar, h.array, h.cfg, h.checkAddr]
  case divw | addmod | submod | mulmod | mulmodp | mulmod2 | mulmod2c | powmod | redp =>
    refine ⟨_, fun s => ⟨_, rfl, rfl⟩, fun s => ?_, fun s s' h => operandTrapsAgree_of_other ?_⟩
    · simp [checkResidues, Trap.Listed, Instr.mnemonic, Rules.raisedBy]
    · simp [checkResidues, Trap.OnOperands, Cause.code]
  case add | sub | sadd | smul | bmul | shl10 | sdiv | bdivmod | shr10 | nttstg | nttfwd | nttinv | nttconv
      | nttaconv | crt3 | kmul | kmuln | nmul =>
    refine ⟨_, fun s => ⟨_, rfl, rfl⟩, fun s => ?_, fun s s' h => ?_⟩
    · simp [State.checkAddSub, State.checkProduct, State.checkAddrs, Trap.Listed, Instr.mnemonic, Rules.raisedBy]
    · simp only [State.checkAddSub, State.checkProduct, Option.orElse_eq_orElse, Option.orElse_eq_or, Option.or_assoc,
        h.scalar, h.array, h.reg, h.cfg, h.checkAddr, h.checkAddrs, operandTrapsAgree_or]
      intros
      exact operandTrapsAgree_of_other (by simp [Trap.OnOperands, Cause.code])

/-- A command that takes a fault takes the trap of its checks. -/
theorem ChecksOf.raise_of_fault {i : Instr} {checks : State → Option Trap} (h : ChecksOf i checks) {s t : State}
    (hs : s.status.fault = false) (ht : exec i s = .next t) (hfault : t.status.fault = true) :
    ∃ f, checks s = some f ∧ t = s.raise f := by
  obtain ⟨u, hexec, hu⟩ := h.exec_eq s
  obtain hraise | ⟨-, rfl⟩ := command_cases (hexec.symm.trans ht)
  · exact hraise
  · simp [hu, hs] at hfault

/-- A command whose checks answer a trap takes its fault. -/
theorem ChecksOf.exec_of_some {i : Instr} {checks : State → Option Trap} (h : ChecksOf i checks) {s : State} {f : Trap}
    (hf : checks s = some f) : exec i s = .next (s.raise f) := by
  obtain ⟨u, hexec, -⟩ := h.exec_eq s
  exact hexec.trans (command_faults hf)

/-- Settles O46: the fault is the trap of the command's checks, which R201 lists. -/
theorem causesAreRaisedByTheirCommands : Obligations.Causes_are_raised_by_their_commands := by
  intro i s t hwf hs ht hfault
  obtain ⟨checks, hchecks⟩ := exists_checksOf i
  obtain ⟨f, hf, rfl⟩ := hchecks.raise_of_fault hs ht hfault
  obtain ⟨-, hill⟩ | ⟨hrow, hinfo⟩ := hchecks.listed s f hf
  · exact absurd hwf hill
  · obtain ⟨hlow, hhigh⟩ := code_of_raisedBy hrow
    exact ⟨f.cause, rfl, hlow, hhigh, hrow, hinfo⟩

/-- Settles O48: the checks of both states answer the same trap. -/
theorem lenAddrOverlapIgnoreMemory : Obligations.Len_addr_overlap_ignore_memory := by
  intro i s s' t t' hregs hcfg hs _ ht ht' hfault hcause
  obtain ⟨checks, hchecks⟩ := exists_checksOf i
  obtain ⟨f, hf, rfl⟩ := hchecks.raise_of_fault hs ht hfault
  have hf' : checks s' = some f := hchecks.agree s s' ⟨hregs, hcfg⟩ f hf hcause
  obtain rfl : t' = s'.raise f := by simpa [ht'] using hchecks.exec_of_some hf'
  exact ⟨rfl, rfl, rfl⟩

/-! ### A stopped block (R211, R212, R223) -/

/-- Settles O5: RUN is what a step looks at first. -/
theorem stoppedBlockHoldsItsState : Obligations.Stopped_block_holds_its_state := fun _ => step_stopped

/-- With a fault, a write to CTRL without CLRF and SRST has no effect, START included. -/
theorem hostWrite_ctrl_faulted {s : State} (hfault : s.status.fault = true) {data : Word}
    (hclrf : data.getLsbD 1 = false) (hsrst : data.getLsbD 2 = false) : hostWrite s 0 1 data = s := by
  show s.writeCtrl data = s
  obtain ⟨c, ⟨-, hset, -⟩ | ⟨rfl, -⟩, -, hstart⟩ := writeCtrl_cases (s := s) hsrst
  · exact absurd hset (Bool.eq_false_iff.1 hclrf)
  · obtain ⟨-, -, -, hclear⟩ | ⟨ht, -⟩ := hstart
    · exact absurd hfault (Bool.eq_false_iff.1 hclear)
    · exact ht

/-- A write to any other place changes registers, `pc` and stores only. -/
theorem hostWrite_frame (s : State) {space : BitVec 2} {addr : Word} (hctrl : ¬(space = 0 ∧ addr = 1)) (data : Word) :
    ∃ regs pc m c, hostWrite s space addr data = { s with regs := regs, pc := pc, dataMem := m, cmdMem := c } := by
  rw [hostWrite, State.writeControl]
  split_ifs with h0 h1
  · exact absurd ⟨h0, h1⟩ hctrl
  case neg => split <;> exact ⟨_, _, _, _, rfl⟩
  all_goals exact ⟨_, _, _, _, rfl⟩

/-- Settles O49, one case an event: a host write is one to CTRL or one that `hostWrite_frame` speaks of. -/
theorem faultsDoNotNest : Obligations.Faults_do_not_nest := by
  intro s t e hfault hrun ht hrst hctrl
  cases e with
  | rst => exact absurd rfl hrst
  | step =>
    obtain rfl : s = t := Host.Outcome.next.inj ((step_stopped hrun).symm.trans ht)
    exact ⟨rfl, rfl, rfl, rfl⟩
  | host q =>
    obtain ⟨_ | _, space, addr, data⟩ := q
    case false =>
      obtain ⟨k, hread⟩ := hostRead_state s space addr
      obtain rfl : { s with freeCount := k } = t := hread.symm.trans (Host.Outcome.next.inj ht)
      exact ⟨rfl, rfl, rfl, rfl⟩
    case true =>
      obtain rfl : hostWrite s space addr data = t := Host.Outcome.next.inj ht
      by_cases hplace : space = 0 ∧ addr = 1
      · obtain ⟨rfl, rfl⟩ := hplace
        obtain ⟨hclrf, hsrst⟩ := hctrl data rfl
        rw [hostWrite_ctrl_faulted hfault hclrf hsrst]
        exact ⟨rfl, rfl, rfl, rfl⟩
      · obtain ⟨_, _, _, _, hframe⟩ := hostWrite_frame s hplace data
        rw [hframe]
        exact ⟨rfl, rfl, rfl, rfl⟩

/-- CLRF and START together, to a stopped block: the record is cleared, then the run starts (R27). -/
theorem hostWrite_clear_and_start {s : State} (hrun : s.status.run = false) :
    hostWrite s 0 1 3 = s.clearFault.startRun := by
  show s.writeCtrl 3 = _
  simp [State.writeCtrl, State.ctrlClrf, State.ctrlStart, State.startRun, hrun]

/-- Settles O50: `pc` and `C` are those of the fault, so the next step executes the command there. -/
theorem clearingAFaultResumesAtTheCommand : Obligations.Clearing_a_fault_resumes_at_the_command := by
  intro s hfault hrun
  refine ⟨hostWrite_clear_and_start hrun, fun i hpc hi => ?_, hostWrite_ctrl_faulted hfault rfl rfl⟩
  rw [hostWrite_clear_and_start hrun]
  exact ((stepRunsTheDecodedCommand s.clearFault.startRun rfl).2 hpc).1 i hi

end Sys2Proof.Machine
end
